-- ==== Sys2Proof/Word.lean ====
section
/-! DEFINITION. The word types of the KCMAC core and the tag variant.

A block is `Bytes[16]` read as a 128-bit big-endian integer (R8, R9): byte 0 is the most significant byte, so the
block written `bb1d6929…746` in the spec's hex notation (R15) is the numeral `0xbb1d6929…746#128`.
DEDUCED, safe: log 9. -/

namespace Sys2Proof

/-- A byte, 0..255 (R8). -/
abbrev Byte := BitVec 8

/-- A 32-bit bus word (R6, R13), and a command word (R60). -/
abbrev Word := BitVec 32

/-- `Bytes[16]`, through the reading `int` of R9. -/
abbrev Block := BitVec 128

/-- `Bytes[32]`, the width of KEYW and KREG (R24, R31), byte 0 most significant as in a block. -/
abbrev KeyBytes := BitVec 256

/-- The variant, the tag length selected at INIT (R18, R32). -/
inductive Variant where
  /-- VAR = 0: the 16-byte CMAC tag. -/
  | cmac
  /-- VAR = 1: the 12-byte CMAC-96 tag. -/
  | cmac96
deriving DecidableEq, Repr, Inhabited

/-- The bit the variant has in the command word and in STATUS (R29, R61). -/
def Variant.bit : Variant → BitVec 1
  | .cmac => 0#1
  | .cmac96 => 1#1

end Sys2Proof
end

