-- ==== Sys2Proof/Syntax.lean ====
section
/-! DEFINITION. The six commands of KCMAC command set v1, one constructor for each row of spec/opcode_table.json,
with the operands in the order of R70. Lengths are numbers of bytes; their ranges are checked in WellFormed.lean. -/

namespace Sys2Proof

/-- A command (R66). -/
inductive Instr where
  /-- INIT klen, var (OP 0x01, R85). -/
  | init (klen : Nat) (var : Variant)
  /-- UPDATE len (OP 0x02, R110). -/
  | update (len : Nat)
  /-- FINAL len (OP 0x03, R111). -/
  | final (len : Nat)
  /-- VERIFY len, clen (OP 0x04, R112). -/
  | verify (len clen : Nat)
  /-- CTEQ len, clen (OP 0x05, R151). -/
  | cteq (len clen : Nat)
  /-- DOUBLE (OP 0x06, R86). -/
  | double
deriving DecidableEq, Repr, Inhabited

end Sys2Proof
end

