-- ==== Sys2Proof/WellFormed.lean ====
section
/-! DEFINITION. The operand ranges of a legal command (R61, R64, R67). -/

namespace Sys2Proof

/-- The constraint of R67 on a command's operands. INIT takes every 6-bit key length (R64): a length that is not 16, 24
or 32 is a legal command that fails with InvalidKeyLength. -/
def Instr.wellFormed : Instr → Bool
  | .init klen _ => decide (klen ≤ 63)
  | .update len => decide (len ≤ 16)
  | .final len => decide (len ≤ 16)
  | .verify len clen => decide (len ≤ 16) && decide (clen ≤ 16)
  | .cteq len clen => decide (len ≤ 16) && decide (clen ≤ 16)
  | .double => true

end Sys2Proof
end

