-- ==== Sys2Proof/Decode.lean ====
section
/-! DEFINITION. The decoder of command words (R60), then the encoder (R63), the opcode map as a table (R66), the
command syntax with its pseudo-commands (R70, R71), and the host's entry `decodeTableWord`. -/

namespace Sys2Proof

/-- Why a command word is illegal (R68), in the order `execute_command` of R60 finds it. The core reports every one of
them as IllegalCommand; the names are the model's (log 13). -/
inductive DecodeError where
  /-- Bits [15:13], [23:22] or [31:25] are not 0. -/
  | reservedField
  /-- OP is 0x00 or 0x07..0xFF. -/
  | unassignedOpcode
  /-- A field breaks the command's constraint of R67. -/
  | fieldConstraint
deriving DecidableEq, Repr, Inhabited

/-- `w[hi:lo]` as an unsigned number (R10), for a field of `n = hi - lo + 1` bits. -/
def wordField (w : Word) (lo n : Nat) : Nat := (w.extractLsb' lo n).toNat

/-- The reserved fields of R61, which must be 0. -/
def reservedZero (w : Word) : Bool :=
  wordField w 13 3 == 0 && wordField w 22 2 == 0 && wordField w 25 7 == 0

/-- The variant a VAR field of 0 or 1 selects (R61). -/
def variantOf (var : Nat) : Variant := if var = 0 then .cmac else .cmac96

/-- The command if it meets its constraint of R67, else an illegal word. -/
def constrained (ok : Bool) (i : Instr) : Except DecodeError Instr :=
  if ok then .ok i else .error .fieldConstraint

/-- The decoding part of `execute_command(w)` (R60): the reserved fields, then OP, then the field constraints. Total on
every 32-bit word. -/
def decode (w : Word) : Except DecodeError Instr :=
  let op := wordField w 0 8
  let len := wordField w 8 5
  let alen := wordField w 16 6
  let var := wordField w 24 1
  if reservedZero w then
    match op with
    | 0x01 => constrained (len == 0) (.init alen (variantOf var))
    | 0x02 => constrained (decide (len ≤ 16) && alen == 0 && var == 0) (.update len)
    | 0x03 => constrained (decide (len ≤ 16) && alen == 0 && var == 0) (.final len)
    | 0x04 => constrained (decide (len ≤ 16) && decide (alen ≤ 16) && var == 0) (.verify len alen)
    | 0x05 => constrained (decide (len ≤ 16) && decide (alen ≤ 16) && var == 0) (.cteq len alen)
    | 0x06 => constrained (len == 0 && alen == 0 && var == 0) .double
    | _ => .error .unassignedOpcode
  else .error .reservedField

/-- `enc(op, len, alen, var) = op + len·2^8 + alen·2^16 + var·2^24` (R63). -/
def enc (op len alen var : Nat) : Word :=
  BitVec.ofNat 32 (op + len * 2 ^ 8 + alen * 2 ^ 16 + var * 2 ^ 24)

/-- The command selector OP of a command (R66). -/
def Instr.opcode : Instr → Nat
  | .init _ _ => 0x01
  | .update _ => 0x02
  | .final _ => 0x03
  | .verify _ _ => 0x04
  | .cteq _ _ => 0x05
  | .double => 0x06

/-- The command word of a command (R63). -/
def encode (i : Instr) : Word :=
  match i with
  | .init klen var => enc i.opcode 0 klen var.bit.toNat
  | .update len => enc i.opcode len 0 0
  | .final len => enc i.opcode len 0 0
  | .verify len clen => enc i.opcode len clen 0
  | .cteq len clen => enc i.opcode len clen 0
  | .double => enc i.opcode 0 0 0

/-- One row of the opcode map (R66). -/
structure OpcodeRow where
  opcode : Nat
  pattern : Word
  mask : Word
deriving DecidableEq, Repr

/-- The match and mask columns of R66 and of spec/opcode_table.json. -/
def opcodeRow : Instr → OpcodeRow
  | .init _ _ => ⟨0x01, 0x00000001#32, 0xFEC0FFFF#32⟩
  | .update _ => ⟨0x02, 0x00000002#32, 0xFFFFE0FF#32⟩
  | .final _ => ⟨0x03, 0x00000003#32, 0xFFFFE0FF#32⟩
  | .verify _ _ => ⟨0x04, 0x00000004#32, 0xFFC0E0FF#32⟩
  | .cteq _ _ => ⟨0x05, 0x00000005#32, 0xFFC0E0FF#32⟩
  | .double => ⟨0x06, 0x00000006#32, 0xFFFFFFFF#32⟩

/-- "a word w selects the row when `w AND mask = match`" (R66). -/
def OpcodeRow.selects (r : OpcodeRow) (w : Word) : Bool := w &&& r.mask == r.pattern

/-- The command syntax of R70 with the pseudo-commands of R71. -/
inductive AsmCommand where
  | command (i : Instr)
  /-- `DIGEST` ≡ `FINAL 0`. -/
  | digest
  /-- `CHECK clen` ≡ `VERIFY 0, clen`. -/
  | check (clen : Nat)
  /-- `INIT128` ≡ `INIT 16, 0`. -/
  | init128
  /-- `INIT96 klen` ≡ `INIT klen, 1`. -/
  | init96 (klen : Nat)
deriving DecidableEq, Repr, Inhabited

/-- The expansions of R71. -/
def AsmCommand.expand : AsmCommand → Instr
  | .command i => i
  | .digest => .final 0
  | .check clen => .verify 0 clen
  | .init128 => .init 16 .cmac
  | .init96 klen => .init klen .cmac96

/-- "Each assembles to `enc` of rule R63" (R70). -/
def assemble (c : AsmCommand) : Word := encode c.expand

/-- The instruction the decoder reads from an instruction whose bits, numbered as the opcode table numbers them, are
`w`: a command is one 32-bit word, and every bit above `nbits` is 0. -/
def decodeTableWord (nbits w : Nat) : Option Instr :=
  if w % 2 ^ nbits < 2 ^ 32 then
    match decode (BitVec.ofNat 32 (w % 2 ^ nbits)) with
    | .ok i => some i
    | .error _ => none
  else none

end Sys2Proof
end

