-- ==== Sys2Proof/Config.lean ====
section
/-! DEFINITION. What stands outside the core and is fixed for it: the bus transactions a host can make, the
responses the bus can give, and the parameters of R7 and R181 the spec leaves open. An open parameter is an `opaque`
constant without a body, so no proof can use a value of it. CMD_LATENCY has no constant: the model has no time
(R188, log 6). -/

namespace Sys2Proof

/-- One bus transaction at a byte offset of the register window (R13). The window has 0x100 bytes (R40), so an offset
has 8 bits. `width` is the access width in bits: only 32 exists (R43), and any other is a bus error. -/
inductive Access where
  /-- `MemRead(off, width / 8)`. -/
  | read (off : BitVec 8) (width : Nat)
  /-- `MemWrite(off, width / 8, data)`. -/
  | write (off : BitVec 8) (width : Nat) (data : Word)
deriving DecidableEq, Repr, Inhabited

/-- What the bus answers to a transaction. -/
inductive Response where
  /-- A read's word (R44). -/
  | data (w : Word)
  /-- A write completed (R45). -/
  | written
  /-- An error response (R46, R181). -/
  | error
deriving DecidableEq, Repr, Inhabited

/-- What can reach the core's inputs: a bus transaction, or reset (R20, R168). -/
inductive Input where
  | access (a : Access)
  /-- Reset is asserted and released; `cut` is the transaction it cut off, if any (R180, R181). -/
  | reset (cut : Option Access)
deriving DecidableEq, Repr, Inhabited

/-- One call at the AES port: the key bytes and the block (R7). -/
structure AesCall where
  key : List Byte
  block : Block
deriving DecidableEq, Repr, Inhabited

namespace Config

/-- `AES_ENCRYPT(key, block)` of R7: "the model assumes nothing except that it is a total deterministic function of
the key bytes and the block". The length of the key alone selects AES-128, AES-192 or AES-256 (R84). Log 4. -/
opaque aesEncrypt : List Byte → Block → Block

/-- `CMAC_BASE / 0x100`: the platform's choice (R7). A page number, because CMAC_BASE is 0x100-aligned (R40). Log 5. -/
opaque cmacPage : Nat

/-- `CMAC_BASE`, the bus address of the register window (R7, R40). -/
def cmacBase : Nat := 0x100 * cmacPage

/-- `RESET_ABORT_RESPONSE` of R181 and D25: the response to a transaction cut off by reset, the platform's. Log 8. -/
opaque resetAbortResponse : Access → Response

end Config

end Sys2Proof
end

