-- ==== Sys2Proof/Machine/State.lean ====
section
/-! DEFINITION. The state of the KCMAC core (10_state.md R20 to R39), its faults and refusals, and the state after
reset (R180). The last three fields are the model's own: they hold what stands at the core's bus and AES interfaces
(log 1, 2, 3). -/

namespace Sys2Proof.Machine

/-- MODE (R30): the engine's state machine, not a privilege level (R169). -/
inductive Mode where
  /-- From reset to the first successful INIT. -/
  | unkeyed
  /-- Keyed; no tag present. -/
  | active
  /-- A tag is present. -/
  | finalized
deriving DecidableEq, Repr, Inhabited

/-- The errors a command can raise (R160). -/
inductive CmdError where
  /-- Code 1: KLEN is not 16, 24 or 32. -/
  | invalidKeyLength
  /-- Code 2: LEN ≥ 1 in FINALIZED. -/
  | alreadyFinalized
  /-- Code 3: VERIFY's candidate does not match the tag. -/
  | tagMismatch
  /-- Code 4: UPDATE, FINAL or VERIFY in UNKEYED. -/
  | notKeyed
  /-- Code 5: an illegal command word. -/
  | illegalCommand
deriving DecidableEq, Repr, Inhabited

/-- Why a bus transaction is answered with a bus error (R43 to R46). The spec has one bus error; the causes are the
model's names for its cases (log 7). -/
inductive BusError where
  /-- The offset is not a multiple of 4 (R43). -/
  | misaligned
  /-- The width is not 32 bits (R43). -/
  | badWidth
  /-- The offset is unmapped (R41). -/
  | unmapped
  /-- A read of CMD or KEYW (R44). -/
  | notReadable
  /-- A write of STATUS, TOUT or DOUT (R45). -/
  | notWritable
deriving DecidableEq, Repr, Inhabited

/-- The faults of a step. -/
inductive Fault where
  /-- Raised by `busAccess` for a transaction the core answers with a bus error. The core itself is unaffected (R46);
  the run of the host's program stops here, as R46 says a model treats it. Safe: the model stops where the hardware
  would go on with the core unchanged (log 7). -/
  | busError (cause : BusError)
deriving DecidableEq, Repr, Inhabited

/-- The refusals of a step. -/
inductive Refusal where
  /-- Raised by an arm of `exec` whose instruction has no meaning yet. No arm raises it. Safe. -/
  | notModelled (mnemonic : String)
deriving DecidableEq, Repr, Inhabited

/-- The state of one core and of its interfaces. -/
structure State where
  /-- DIN, the data-in window (R23). -/
  din : Block
  /-- KEYW, the key staging window (R24). -/
  keyw : KeyBytes
  /-- CAND, the candidate-tag window (R25). -/
  cand : Block
  /-- DOUT, the doubler-output window (R27). -/
  dout : Block
  /-- MODE (R30). -/
  mode : Mode
  /-- KREG, the stored master key; only `KREG[0..KLENREG)` is the key (R31). -/
  kreg : KeyBytes
  /-- KLENREG, the byte length of the stored key (R31). -/
  klenReg : Nat
  /-- VARREG, the variant (R32). -/
  varReg : Variant
  /-- LREG (R33). -/
  lreg : Block
  /-- K1REG (R33). -/
  k1reg : Block
  /-- K2REG (R33). -/
  k2reg : Block
  /-- BUF, the pending bytes (R34). -/
  buf : List Byte
  /-- CHAIN, the chain state (R35). -/
  chain : Block
  /-- TAG, the tag at full 128 bits (R35). -/
  tag : Block
  /-- ERR, the last command's error code (R36). -/
  err : BitVec 4
  /-- EQ, the last command's comparison result (R36). -/
  eq : Bool
  /-- ERRS, the sticky error bit (R36). -/
  errs : Bool
  /-- The model's own: the inputs issued to the core and not yet taken, oldest first (log 1). -/
  pending : List Input
  /-- The model's own: the bus response to the last transaction taken (log 2). -/
  response : Option Response
  /-- The model's own: the calls made at the AES port since reset, newest first (log 3). -/
  aesCalls : List AesCall
deriving DecidableEq, Repr

/-- The state after reset: every element of R180 at the value it gives; the model's own fields empty (log 1, 2, 3). -/
def State.reset : State where
  din := 0#128
  keyw := 0#256
  cand := 0#128
  dout := 0#128
  mode := .unkeyed
  kreg := 0#256
  klenReg := 0
  varReg := .cmac
  lreg := 0#128
  k1reg := 0#128
  k2reg := 0#128
  buf := []
  chain := 0#128
  tag := 0#128
  err := 0#4
  eq := false
  errs := false
  pending := []
  response := none
  aesCalls := []

end Sys2Proof.Machine
end

