-- ==== Sys2Proof/Machine/Operands.lean ====
section
/-! DEFINITION. The operands of the commands, all of them taken from the windows (R62): byte order inside a window
(R9, R42), the slices `DIN[0..LEN)`, `CAND[0..CLEN)` and `KEYW[0..KLEN)` (R54), and the stored key `k` (R31). -/

namespace Sys2Proof.Machine

/-- Byte `i` of an `n`-byte value, byte 0 the most significant (R9). Meant for `i < n`. -/
def byteAt {w : Nat} (n : Nat) (v : BitVec w) (i : Nat) : Byte := v.extractLsb' (8 * (n - 1 - i)) 8

/-- The `n` bytes of a value, byte 0 first (R9). -/
def bytesOf {w : Nat} (n : Nat) (v : BitVec w) : List Byte := (List.range n).map (byteAt n v)

/-- The value whose bytes are `l`, byte 0 the most significant: `blk` of R9 at 16 bytes, `bytes_to_word` of R45 at 4. -/
def ofBytes (w : Nat) (l : List Byte) : BitVec w := l.foldl (fun acc b => (acc <<< 8) ||| b.setWidth w) 0

/-- The block whose bytes are `l` (R9). -/
def blockOf (l : List Byte) : Block := ofBytes 128 l

/-- `v[0..m) ++ zeros(n − m)` for an `n`-byte value `v` and `m ≤ n`. -/
def keepFirst {w : Nat} (n m : Nat) (v : BitVec w) : BitVec w := (v >>> (8 * (n - m))) <<< (8 * (n - m))

/-- Window word `j` of an `n`-byte window: byte `4j` in bits [31:24] (R42). -/
def wordAt {w : Nat} (n : Nat) (v : BitVec w) (j : Nat) : Word := v.extractLsb' (8 * (n - 4 - 4 * j)) 32

/-- An `n`-byte window with its word `j` replaced by `x`, and no other byte changed (R45). -/
def setWordAt {w : Nat} (n : Nat) (v : BitVec w) (j : Nat) (x : Word) : BitVec w :=
  (v &&& ~~~((0xFFFFFFFF#32).setWidth w <<< (8 * (n - 4 - 4 * j)))) ||| (x.setWidth w <<< (8 * (n - 4 - 4 * j)))

/-- `DIN[0..len)` (R54). -/
def State.dinSlice (s : State) (len : Nat) : List Byte := (bytesOf 16 s.din).take len

/-- `CAND[0..clen)` (R54). -/
def State.candSlice (s : State) (clen : Nat) : List Byte := (bytesOf 16 s.cand).take clen

/-- The stored key, `k = KREG[0..KLENREG)` (R31). -/
def State.key (s : State) : List Byte := (bytesOf 32 s.kreg).take s.klenReg

end Sys2Proof.Machine
end

