-- ==== Sys2Proof/Machine/Flags.lean ====
section
/-! DEFINITION. What the host sees of the state: TLEN, TOUT and the STATUS word (R26, R29, R130), and the error codes
(R160). -/

namespace Sys2Proof.Machine

/-- The code STATUS.ERR shows for an error (R160). -/
def CmdError.code : CmdError → BitVec 4
  | .invalidKeyLength => 1#4
  | .alreadyFinalized => 2#4
  | .tagMismatch => 3#4
  | .notKeyed => 4#4
  | .illegalCommand => 5#4

/-- `code` of R162: 0 on success. -/
def codeOf : Option CmdError → BitVec 4
  | none => 0#4
  | some e => e.code

/-- The tag length a variant returns (R18). -/
def tagLength : Variant → Nat
  | .cmac => 16
  | .cmac96 => 12

/-- TLEN, the valid bytes of TOUT (R29). -/
def State.tlen (s : State) : Nat :=
  match s.mode with
  | .finalized => tagLength s.varReg
  | .active => 0
  | .unkeyed => 0

/-- TOUT, the truncator's output: `TAG[0..TLEN) ++ zeros(16 − TLEN)` (R26, R130). -/
def State.tout (s : State) : Block := keepFirst 16 s.tlen s.tag

/-- The bytes `TOUT[0..TLEN)`, the tag FINAL returns. -/
def State.tagBytes (s : State) : List Byte := (bytesOf 16 s.tout).take s.tlen

/-- A field of STATUS with its lowest bit at `lo`. -/
def placeAt {n : Nat} (lo : Nat) (v : BitVec n) : Word := v.setWidth 32 <<< lo

/-- A one-bit field. -/
def bitOf (b : Bool) : BitVec 1 := BitVec.ofBool b

/-- The STATUS word, assembled from state at the time of the read; every reserved bit reads 0 (R29). -/
def State.status (s : State) : Word :=
  placeAt 0 s.err
  ||| placeAt 4 (bitOf s.eq)
  ||| placeAt 5 (bitOf (s.mode != .unkeyed))
  ||| placeAt 6 (bitOf (s.mode == .finalized))
  ||| placeAt 7 s.varReg.bit
  ||| placeAt 8 (BitVec.ofNat 5 s.buf.length)
  ||| placeAt 16 (BitVec.ofNat 5 s.tlen)
  ||| placeAt 24 (BitVec.ofNat 6 s.klenReg)
  ||| placeAt 31 (bitOf s.errs)

end Sys2Proof.Machine
end

