-- ==== Sys2Proof/Machine/Ops.lean ====
section
/-! DEFINITION. The operations the commands share: the reporting of a command's outcome (R162, this core's only
exception mechanism), the AES port and the CBC step (R7, R19), the doubler and the subkeys (R80, R83), the absorb step,
the last block and the finish step (R100, R103, R104), the bodies of UPDATE and FINAL, and the comparator (R150). -/

namespace Sys2Proof.Machine

/-! ## Reporting -/

/-- The wrapper of R162: ERR takes the code, EQ the command-local `eqres`, and ERRS becomes 1 on a nonzero code. An error
redirects nothing, saves nothing and changes no mode (R165), so there is no return from one. -/
def report (s : State) (eqres : Bool) (error : Option CmdError) : State :=
  { s with err := codeOf error, eq := eqres, errs := s.errs || error.isSome }

/-- The end of a command that compares nothing: on a raise nothing but the report is written (R14, R161). -/
def conclude (s : State) (body : Except CmdError State) : State :=
  match body with
  | .ok s' => report s' false none
  | .error e => report s false (some e)

/-- An illegal command word: IllegalCommand, with no state changed but ERR, EQ and ERRS (R68). -/
def illegalCommand (s : State) : State := conclude s (.error .illegalCommand)

/-! ## The AES port -/

/-- `AES(k, b)` with the stored key (R14). -/
def State.aes (s : State) (b : Block) : Block := Config.aesEncrypt s.key b

/-- The call `AES(k, b)` stands at the port (log 3). -/
def State.callAes (s : State) (b : Block) : State := { s with aesCalls := ⟨s.key, b⟩ :: s.aesCalls }

/-- One CBC step: `CHAIN <- AES(k, CHAIN ⊕ M)` (R19). -/
def State.cbcStep (s : State) (m : Block) : State :=
  { s.callAes (s.chain ^^^ m) with chain := s.aes (s.chain ^^^ m) }

/-! ## The doubler and the subkeys -/

/-- The GF(2^128) bit-doubler (R80). -/
def dbl (x : Block) : Block :=
  let r := x <<< 1
  if x.getLsbD 127 then r ^^^ 0x87#128 else r

/-- A key length AES takes (R5, R85). -/
def validKeyLength (n : Nat) : Bool := n == 16 || n == 24 || n == 32

/-- `generate(k)` for the stored key, written to LREG, K1REG and K2REG (R83, R85). -/
def State.generateSubkeys (s : State) : State :=
  { s.callAes 0#128 with
    lreg := s.aes 0#128
    k1reg := dbl (s.aes 0#128)
    k2reg := dbl (dbl (s.aes 0#128)) }

/-- The key and the variant copied in by INIT: `KREG <- KEYW[0..klen) ++ zeros(32 − klen)` (R85). -/
def State.loadKey (s : State) (klen : Nat) (var : Variant) : State :=
  { s with kreg := keepFirst 32 klen s.keyw, klenReg := klen, varReg := var }

/-- The fresh context of INIT: an empty buffer, a zero chain and tag, MODE ACTIVE (R85). -/
def State.startContext (s : State) : State :=
  { s with buf := [], chain := 0#128, tag := 0#128, mode := .active }

/-- INIT's pseudocode (R85). -/
def initBody (klen : Nat) (var : Variant) (s : State) : Except CmdError State :=
  if validKeyLength klen then .ok ((s.loadKey klen var).generateSubkeys.startContext)
  else .error .invalidKeyLength

/-! ## The streaming buffer -/

/-- The loop of `absorb` (R100): while more than 16 bytes are staged, one CBC step over the first 16. The staged bytes
shrink at every turn, so their number is fuel enough. -/
def absorbLoop : Nat → List Byte → State → State
  | 0, staged, s => { s with buf := staged }
  | fuel + 1, staged, s =>
    if 16 < staged.length then absorbLoop fuel (staged.drop 16) (s.cbcStep (blockOf (staged.take 16)))
    else { s with buf := staged }

/-- `absorb(d)` (R100). -/
def absorb (d : List Byte) (s : State) : State :=
  absorbLoop (s.buf ++ d).length (s.buf ++ d) s

/-- The buffer padded to a block: a 0x80 byte, then zeros (R103). Meant for at most 15 bytes. -/
def padded (b : List Byte) : Block := blockOf (b ++ [0x80#8] ++ List.replicate (15 - b.length) 0#8)

/-- `last_block()` (R103). -/
def State.lastBlock (s : State) : Block :=
  if s.buf.length = 16 then blockOf s.buf ^^^ s.k1reg else padded s.buf ^^^ s.k2reg

/-- `finish()` (R104): the tag is the last ciphertext, the chain takes it, the buffer is consumed. -/
def finish (s : State) : State :=
  let t := s.cbcStep s.lastBlock
  { t with tag := t.chain, buf := [], mode := .finalized }

/-- UPDATE's pseudocode (R110). -/
def updateBody (len : Nat) (s : State) : Except CmdError State :=
  match s.mode with
  | .unkeyed => .error .notKeyed
  | .active => if len = 0 then .ok s else .ok (absorb (s.dinSlice len) s)
  | .finalized => if len = 0 then .ok s else .error .alreadyFinalized

/-- FINAL's pseudocode (R111), which VERIFY runs first (R112). -/
def finalBody (len : Nat) (s : State) : Except CmdError State :=
  match s.mode with
  | .unkeyed => .error .notKeyed
  | .finalized => if 0 < len then .error .alreadyFinalized else .ok s
  | .active => if 0 < len then .ok (finish (absorb (s.dinSlice len) s)) else .ok (finish s)

/-! ## The comparator -/

/-- `acc <- acc OR (a[i] XOR b[i])` over every pair, no early exit (R150). -/
def diffBits (a b : List Byte) : Byte := (List.zipWith (· ^^^ ·) a b).foldl (· ||| ·) 0#8

/-- `ct_equal(a, b)` (R150). -/
def ctEqual (a b : List Byte) : Bool :=
  if a.length = b.length then diffBits a b == 0#8 else false

end Sys2Proof.Machine
end

