-- ==== Sys2Proof/Machine/Compare.lean ====
section
/-! DEFINITION. CTEQ (44_compare.md). -/

namespace Sys2Proof.Machine

/-- CTEQ len, clen (R151): EQ takes the comparator's result; an unequal result is no error. -/
def execCteq (len clen : Nat) (s : State) : Host.Outcome State Fault Refusal :=
  .next (report s (ctEqual (s.dinSlice len) (s.candSlice clen)) none)

end Sys2Proof.Machine
end

