-- ==== Sys2Proof/Machine/Engine.lean ====
section
/-! DEFINITION. UPDATE, FINAL and VERIFY (41_engine.md). -/

namespace Sys2Proof.Machine

/-- UPDATE len (R110). -/
def execUpdate (len : Nat) (s : State) : Host.Outcome State Fault Refusal :=
  .next (conclude s (updateBody len s))

/-- FINAL len (R111). -/
def execFinal (len : Nat) (s : State) : Host.Outcome State Fault Refusal :=
  .next (conclude s (finalBody len s))

/-- VERIFY's comparison and report, in the state its FINAL part left (R112): EQ takes the result, and TagMismatch is
raised with TAG, CHAIN and MODE as FINAL wrote them. -/
def compareTag (clen : Nat) (s : State) : State :=
  let eqres := ctEqual (s.candSlice clen) s.tagBytes
  report s eqres (if eqres then none else some .tagMismatch)

/-- VERIFY len, clen (R112): "a raise there ends VERIFY with that error". -/
def execVerify (len clen : Nat) (s : State) : Host.Outcome State Fault Refusal :=
  match finalBody len s with
  | .ok s' => .next (compareTag clen s')
  | .error e => .next (conclude s (.error e))

end Sys2Proof.Machine
end

