-- ==== Sys2Proof/Machine/Subkey.lean ====
section
/-! DEFINITION. INIT and DOUBLE (40_subkey.md). -/

namespace Sys2Proof.Machine

/-- INIT klen, var (R85): accepted in every MODE; a failed INIT writes nothing but the report. -/
def execInit (klen : Nat) (var : Variant) (s : State) : Host.Outcome State Fault Refusal :=
  .next (conclude s (initBody klen var s))

/-- DOUBLE (R86): `DOUT <- dbl(DIN)`, in every MODE. -/
def execDouble (s : State) : Host.Outcome State Fault Refusal :=
  .next (report { s with dout := dbl s.din } false none)

end Sys2Proof.Machine
end

