-- ==== Sys2Proof/Machine/Dispatch.lean ====
section
/-! DEFINITION. One arm per command (R60, R66). -/

namespace Sys2Proof.Machine

def exec (i : Instr) (s : State) : Host.Outcome State Fault Refusal :=
  match i with
  | .init klen var => Sys2Proof.Machine.execInit klen var s
  | .update len => Sys2Proof.Machine.execUpdate len s
  | .final len => Sys2Proof.Machine.execFinal len s
  | .verify len clen => Sys2Proof.Machine.execVerify len clen s
  | .cteq len clen => Sys2Proof.Machine.execCteq len clen s
  | .double => Sys2Proof.Machine.execDouble s

end Sys2Proof.Machine
end

