-- ==== Sys2Proof/Machine/Bus.lean ====
section
/-! DEFINITION. The register window and its transactions (20_memory.md), the execution of a CMD write (R60, R162), and
the reset input (R180, R181). -/

namespace Sys2Proof.Machine

/-- What a mapped word offset names (R41); `j` is the word of the window. -/
inductive Port where
  | cmd
  | status
  | din (j : Nat)
  | keyw (j : Nat)
  | cand (j : Nat)
  | tout (j : Nat)
  | dout (j : Nat)
deriving DecidableEq, Repr

/-- The register map of R41, at a word-aligned offset. -/
def portAt (off : Nat) : Option Port :=
  if off = 0x000 then some .cmd
  else if off = 0x004 then some .status
  else if off < 0x010 then none
  else if off < 0x020 then some (.din ((off - 0x010) / 4))
  else if off < 0x040 then some (.keyw ((off - 0x020) / 4))
  else if off < 0x050 then some (.cand ((off - 0x040) / 4))
  else if off < 0x060 then some (.tout ((off - 0x050) / 4))
  else if off < 0x070 then some (.dout ((off - 0x060) / 4))
  else none

/-- The port an access names, or why there is none: alignment and width first (R43), then the map (R41). -/
def selectPort (off : BitVec 8) (width : Nat) : Except BusError Port :=
  if off.toNat % 4 ≠ 0 then .error .misaligned
  else if width ≠ 32 then .error .badWidth
  else
    match portAt off.toNat with
    | some p => .ok p
    | none => .error .unmapped

/-- The word a port reads as, for a port whose access includes R (R41, R44). -/
def readPort (p : Port) (s : State) : Except BusError Word :=
  match p with
  | .status => .ok s.status
  | .din j => .ok (wordAt 16 s.din j)
  | .cand j => .ok (wordAt 16 s.cand j)
  | .tout j => .ok (wordAt 16 s.tout j)
  | .dout j => .ok (wordAt 16 s.dout j)
  | .cmd => .error .notReadable
  | .keyw _ => .error .notReadable

/-- `MemRead(off, width / 8)` (R44, R45): the word, or a bus error. It changes no state of the core. -/
def busRead (off : BitVec 8) (width : Nat) (s : State) : Except BusError Word :=
  match selectPort off width with
  | .ok p => readPort p s
  | .error e => .error e

/-- A write of CMD (R28, R60, R162): the command runs to completion; an illegal word is reported. -/
def runCommand (w : Word) (s : State) : Host.Outcome State Fault Refusal :=
  match decode w with
  | .ok i => exec i s
  | .error _ => .next (illegalCommand s)

/-- A write of a port (R41, R45). -/
def writePort (p : Port) (w : Word) (s : State) : Host.Outcome State Fault Refusal :=
  match p with
  | .cmd => runCommand w s
  | .din j => .next { s with din := setWordAt 16 s.din j w }
  | .keyw j => .next { s with keyw := setWordAt 32 s.keyw j w }
  | .cand j => .next { s with cand := setWordAt 16 s.cand j w }
  | .status => .fault (.busError .notWritable)
  | .tout _ => .fault (.busError .notWritable)
  | .dout _ => .fault (.busError .notWritable)

/-- The bus response to the transaction being taken (log 2). -/
def State.respond (s : State) (r : Response) : State := { s with response := some r }

/-- One bus transaction (R43 to R46). A CMD write is answered when its command has completed (R45). A bus error is the
fault R46 asks of a model (log 7). -/
def busAccess (a : Access) (s : State) : Host.Outcome State Fault Refusal :=
  match a with
  | .read off width =>
    match busRead off width s with
    | .ok w => .next (s.respond (.data w))
    | .error e => .fault (.busError e)
  | .write off width w =>
    match selectPort off width with
    | .ok p => writePort p w (s.respond .written)
    | .error e => .fault (.busError e)

/-- Reset (R180, R181): every element of the core at its reset value, whatever was in progress; a transaction it cut off
has no effect and gets RESET_ABORT_RESPONSE (log 8). What the host issues afterwards is still to come (log 20). -/
def takeReset (cut : Option Access) (later : List Input) : State :=
  { State.reset with pending := later, response := cut.map Config.resetAbortResponse }

/-- One input, in the order received (R49, R168). With nothing issued the core does nothing (R20, R182). -/
def stepInput (s : State) : Host.Outcome State Fault Refusal :=
  match s.pending with
  | [] => .next s
  | .reset cut :: rest => .next (takeReset cut rest)
  | .access a :: rest => busAccess a { s with pending := rest }

/-- The offset of a bus address inside the window at CMAC_BASE, if it lies there (R40). -/
def windowOffset (addr : Nat) : Option (BitVec 8) :=
  if addr / 0x100 = Config.cmacPage then some (BitVec.ofNat 8 (addr % 0x100)) else none

/-- A read at a bus address reaches this core only inside its window (R39, R40). -/
def State.issueRead (s : State) (addr width : Nat) : State :=
  match windowOffset addr with
  | some off => { s with pending := s.pending ++ [.access (.read off width)] }
  | none => s

/-- A write at a bus address reaches this core only inside its window (R39, R40). -/
def State.issueWrite (s : State) (addr width : Nat) (w : Word) : State :=
  match windowOffset addr with
  | some off => { s with pending := s.pending ++ [.access (.write off width w)] }
  | none => s

end Sys2Proof.Machine
end

