-- ==== Sys2Proof/Machine/Step.lean ====
section
/-! DEFINITION. One step takes one input (R20, R49): a bus transaction, whose CMD write runs one whole command, or
reset. -/

namespace Sys2Proof.Machine

/-- The step of the machine. -/
def step (s : State) : Host.Outcome State Fault Refusal := stepInput s

/-- `s` with the command word `w` standing as the next transaction: an aligned 32-bit write of CMD (R45). This is how a
command comes to run from reset: the host writes it (R21, R182; log 1). -/
def State.withFetchWord (s : State) (nbits w : Nat) : State :=
  { s with pending := .access (.write 0x00#8 32 (BitVec.ofNat 32 (w % 2 ^ nbits))) :: s.pending }

end Sys2Proof.Machine
end

