-- ==== Sys2Proof/Machine/Procedures.lean ====
section
/-! DEFINITION. The host procedures of 43_host_procedures.md, over the transaction syntax of R72. They add no hardware:
each is a function that issues bus transactions and reads the answers (log 17). -/

namespace Sys2Proof.Machine

/-- How a host procedure ends. -/
inductive HostResult (α : Type) where
  /-- With a value, and the core in state `s`. -/
  | done (value : α) (s : State)
  /-- `fail(ERR)`: a command reported the error `code`, and the host stops there (R140). -/
  | failed (code : BitVec 4) (s : State)
  /-- A transaction was answered with a bus error. -/
  | stopped (r : Fault)
  /-- A command had no meaning. -/
  | refused (r : Refusal)
deriving Repr

/-- A host procedure acting on one core. -/
abbrev HostProc (α : Type) := State → HostResult α

/-- The procedure that issues nothing. -/
def hostReturn {α : Type} (a : α) : HostProc α := fun s => .done a s

/-- One procedure after another; an error ends the whole (R140). -/
def andThen {α β : Type} (p : HostProc α) (q : α → HostProc β) : HostProc β := fun s =>
  match p s with
  | .done a s' => q a s'
  | .failed code s' => .failed code s'
  | .stopped r => .stopped r
  | .refused r => .refused r

/-- `WR off, w` (R72). -/
def hostWrite (off : BitVec 8) (w : Word) : HostProc Unit := fun s =>
  match busAccess (.write off 32 w) s with
  | .next s' => .done () s'
  | .fault r => .stopped r
  | .refused r => .refused r

/-- `RD off` (R72): the word read. -/
def hostRead (off : BitVec 8) : HostProc Word := fun s =>
  match busRead off 32 s with
  | .ok w => .done w (s.respond (.data w))
  | .error e => .stopped (.busError e)

/-- Bytes padded with zero bytes to `n` bytes (R72). -/
def zeroPadded (n : Nat) (b : List Byte) : List Byte := b ++ List.replicate (n - b.length) 0#8

/-- `word_j` of R72: bytes 4j..4j+3 in the lanes of R42. -/
def windowWord (b : List Byte) (j : Nat) : Word := ofBytes 32 ((b.drop (4 * j)).take 4)

/-- Words `0, 1, …` of a window written at `off`, `off + 4`, … -/
def hostWriteWords (off : Nat) : List Word → HostProc Unit
  | [] => hostReturn ()
  | w :: ws => andThen (hostWrite (BitVec.ofNat 8 off) w) fun _ => hostWriteWords (off + 4) ws

/-- Words read at `off`, `off + 4`, … -/
def hostReadWords (off : Nat) : Nat → HostProc (List Word)
  | 0 => hostReturn []
  | n + 1 =>
    andThen (hostRead (BitVec.ofNat 8 off)) fun w =>
      andThen (hostReadWords (off + 4) n) fun ws => hostReturn (w :: ws)

/-- The `n` words of bytes padded to a window of `4·n` bytes. -/
def windowWords (n : Nat) (b : List Byte) : List Word :=
  (List.range n).map (windowWord (zeroPadded (4 * n) b))

/-- `LOADDIN b` (R72). -/
def loadDin (b : List Byte) : HostProc Unit := hostWriteWords 0x010 (windowWords 4 b)

/-- `LOADCAND b` (R72). -/
def loadCand (b : List Byte) : HostProc Unit := hostWriteWords 0x040 (windowWords 4 b)

/-- `LOADKEY b` (R72). -/
def loadKeyWindow (b : List Byte) : HostProc Unit := hostWriteWords 0x020 (windowWords 8 b)

/-- `CMD c` (R72), for a command or pseudo-command (R71). -/
def hostCommand (c : AsmCommand) : HostProc Unit := hostWrite 0x00#8 (assemble c)

/-- STATUS.ERR of a STATUS word (R29). -/
def statusErr (w : Word) : BitVec 4 := w.extractLsb' 0 4

/-- STATUS.EQ of a STATUS word (R29). -/
def statusEq (w : Word) : Bool := w.getLsbD 4

/-- STATUS.TLEN of a STATUS word (R29). -/
def statusTlen (w : Word) : Nat := (w.extractLsb' 16 5).toNat

/-- `if ERR ≠ 0: fail(ERR)` (R140). -/
def checkErr : HostProc Unit :=
  andThen (hostRead 0x04#8) fun w s => if statusErr w = 0#4 then .done () s else .failed (statusErr w) s

/-- A command and the check of its error (R140, R164). -/
def checkedCommand (c : AsmCommand) : HostProc Unit := andThen (hostCommand c) fun _ => checkErr

/-- `TOUT[0..TLEN)` read by the host (R140). -/
def readTag : HostProc (List Byte) :=
  andThen (hostRead 0x04#8) fun st =>
    andThen (hostReadWords 0x050 4) fun ws =>
      hostReturn ((ws.flatMap (bytesOf 4)).take (statusTlen st))

/-- Consecutive pieces of 16 bytes, except the last (R140); the length of the data is fuel enough. -/
def chunksOf16 : Nat → List Byte → List (List Byte)
  | 0, _ => []
  | fuel + 1, data =>
    if data.length = 0 then [] else data.take 16 :: chunksOf16 fuel (data.drop 16)

/-- `chunks16(data)` (R140). -/
def chunks16 (data : List Byte) : List (List Byte) := chunksOf16 data.length data

/-- `LOADDIN c; CMD UPDATE len(c); if ERR ≠ 0: fail(ERR)` for every chunk (R140). -/
def hostUpdates : List (List Byte) → HostProc Unit
  | [] => hostReturn ()
  | c :: cs =>
    andThen (loadDin c) fun _ =>
      andThen (checkedCommand (.command (.update c.length))) fun _ => hostUpdates cs

/-- HOST_DIGEST (R140). -/
def hostDigest (data : List Byte) : HostProc (List Byte) :=
  andThen (hostUpdates (chunks16 data)) fun _ =>
    andThen (checkedCommand .digest) fun _ => readTag

/-- `LOADKEY k; CMD INIT len(k), var`, with the check R183 asks for. -/
def hostInit (k : List Byte) (var : Variant) : HostProc Unit :=
  andThen (loadKeyWindow k) fun _ => checkedCommand (.command (.init k.length var))

/-- PRF_KEY (R141). -/
def hostPrfKey (vk : List Byte) : HostProc (List Byte) :=
  if vk.length = 16 then hostReturn vk
  else andThen (hostInit (List.replicate 16 0#8) .cmac) fun _ => hostDigest vk

/-- PRF (R141). -/
def hostPrf (vk m : List Byte) : HostProc (List Byte) :=
  andThen (hostPrfKey vk) fun k2 => andThen (hostInit k2 .cmac) fun _ => hostDigest m

/-- A software `verify(tag, data?)` of any data and any candidate. A candidate of at most 16 bytes is UPDATE commands and
`VERIFY 0, clen` (R112, R140). A longer one has no command (R144): FINAL with the data, its error if it has one, else
TagMismatch. -/
def hostVerify (cand data : List Byte) : HostProc Unit :=
  if cand.length ≤ 16 then
    andThen (hostUpdates (chunks16 data)) fun _ =>
      andThen (loadCand cand) fun _ => checkedCommand (.check cand.length)
  else andThen (hostDigest data) fun _ s => .failed CmdError.tagMismatch.code s

/-- The variant of a context as the host knows it (R143). -/
inductive HostVariant where
  | cmac
  | cmac96
  | prf
deriving DecidableEq, Repr

/-- What ENGINE_EQUAL ends with: its answer and both cores, or the error, or a stop. -/
inductive EqualResult where
  | answer (equal : Bool) (a b : State)
  | failed (code : BitVec 4) (a b : State)
  | stopped
deriving DecidableEq, Repr

/-- `CMD FINAL 0; if ERR ≠ 0: fail(ERR); ta <- TOUT[0..TLEN)` (R143). -/
def finalTag : HostProc (List Byte) := andThen (checkedCommand .digest) fun _ => readTag

/-- `LOADDIN ta; LOADCAND tb; CMD CTEQ len(ta), len(tb); STATUS.EQ = 1` (R143). -/
def hostCompare (ta tb : List Byte) : HostProc Bool :=
  andThen (loadDin ta) fun _ =>
    andThen (loadCand tb) fun _ =>
      andThen (hostCommand (.command (.cteq ta.length tb.length))) fun _ =>
        andThen (hostRead 0x04#8) fun w => hostReturn (statusEq w)

/-- ENGINE_EQUAL (R143), for two cores whose variants the host knows. -/
def engineEqual (va vb : HostVariant) (a b : State) : EqualResult :=
  if va ≠ vb then .answer false a b
  else
    match finalTag a with
    | .done ta a' =>
      match finalTag b with
      | .done tb b' =>
        match hostCompare ta tb a' with
        | .done equal a'' => .answer equal a'' b'
        | .failed code a'' => .failed code a'' b'
        | .stopped _ => .stopped
        | .refused _ => .stopped
      | .failed code b' => .failed code a' b'
      | .stopped _ => .stopped
      | .refused _ => .stopped
    | .failed code a' => .failed code a' b
    | .stopped _ => .stopped
    | .refused _ => .stopped

end Sys2Proof.Machine
end

