-- ==== Sys2Proof/Machine/Reference.lean ====
section
/-! DEFINITION. What a tag is supposed to be: the CMAC of R105, the chain `cbc` of R102 and the PRF of R141, each as a
function of the key and the message alone. No command uses them: claims compare the engine with them. -/

namespace Sys2Proof.Machine

/-- Block `i` of a message, 16 bytes from byte `16·i`. -/
def messageBlock (m : List Byte) (i : Nat) : Block := blockOf ((m.drop (16 * i)).take 16)

/-- `for i in 1..n: C <- AES(k, C ⊕ m_i)` from `C = 0^128` (R105). -/
def cbcBlocks (k m : List Byte) (n : Nat) : Block :=
  (List.range n).foldl (fun c i => Config.aesEncrypt k (c ^^^ messageBlock m i)) 0#128

/-- `cbc(k, q)` for a `q` of whole blocks (R102). -/
def cbc (k q : List Byte) : Block := cbcBlocks k q (q.length / 16)

/-- `t = max(1, ceil(n / 16))`, the number of blocks of an n-byte message (R105). -/
def blockCount (n : Nat) : Nat := max 1 ((n + 15) / 16)

/-- The masked last block of R105, for the subkeys of the key `k`. -/
def maskedLast (k m : List Byte) : Block :=
  let l := Config.aesEncrypt k 0#128
  let mt := m.drop (16 * (blockCount m.length - 1))
  if 0 < m.length ∧ m.length % 16 = 0 then blockOf mt ^^^ dbl l else padded mt ^^^ dbl (dbl l)

/-- `CMAC(k, m)` (R105). -/
def cmac (k m : List Byte) : Block :=
  Config.aesEncrypt k (cbcBlocks k m (blockCount m.length - 1) ^^^ maskedLast k m)

/-- The key the PRF uses for a key of any length (R141). -/
def prfKeyOf (vk : List Byte) : List Byte :=
  if vk.length = 16 then vk else bytesOf 16 (cmac (List.replicate 16 0#8) vk)

/-- The PRF (R141, R142). -/
def prfOf (vk m : List Byte) : Block := cmac (prfKeyOf vk) m

end Sys2Proof.Machine
end

