-- ==== Sys2Proof/Safety.lean ====
section
/-! DEFINITION. The terms claims use: the invariants of R37, the accesses that are no bus error, a run that stays
safe, and what the host can observe (R38). -/

namespace Sys2Proof.Machine

/-- R37 (a): in UNKEYED nothing of a context is left. -/
def State.UnkeyedClean (s : State) : Prop :=
  s.mode = .unkeyed →
    s.klenReg = 0 ∧ s.buf = [] ∧ s.chain = 0#128 ∧ s.tag = 0#128 ∧ s.lreg = 0#128 ∧ s.k1reg = 0#128 ∧
      s.k2reg = 0#128 ∧ s.varReg = .cmac

/-- R37 (b): in a keyed mode the key has a legal length and the subkeys are those of the key. -/
def State.SubkeysOfKey (s : State) : Prop :=
  s.mode ≠ .unkeyed →
    validKeyLength s.klenReg = true ∧ s.lreg = Config.aesEncrypt s.key 0#128 ∧ s.k1reg = dbl s.lreg ∧
      s.k2reg = dbl s.k1reg

/-- R37 (d): after the finish step the buffer is consumed and the chain is the tag. -/
def State.FinalizedClean (s : State) : Prop :=
  s.mode = .finalized → s.buf = [] ∧ s.chain = s.tag

/-- R37 (e), with what R30, R35 and R101 add to it in ACTIVE: no tag yet, and no block chained while the buffer is
empty. -/
def State.BufferBounded (s : State) : Prop :=
  s.buf.length ≤ 16 ∧ (s.mode = .active → s.tag = 0#128 ∧ (s.buf = [] → s.chain = 0#128))

/-- The reporting state of R160 and R162: no reserved code, EQ only with success, an error leaves ERRS set. -/
def State.ReportSound (s : State) : Prop :=
  s.err.toNat ≤ 5 ∧ (s.eq = true → s.err = 0#4) ∧ (s.err ≠ 0#4 → s.errs = true)

/-- The key register past the stored key holds zeros (R85; spec/93 "the model keeps zeros"). -/
def State.KeyTailZero (s : State) : Prop := s.kreg = keepFirst 32 s.klenReg s.kreg

/-- The invariant of the core: R37 with the reporting state and the key register. -/
structure State.Inv (s : State) : Prop where
  unkeyed : s.UnkeyedClean
  subkeys : s.SubkeysOfKey
  finalized : s.FinalizedClean
  buffer : s.BufferBounded
  report : s.ReportSound
  keyTail : s.KeyTailZero

/-- An access that is no bus error: aligned, 32 bits wide, mapped, and of a direction its register has (R41, R43 to R45). -/
def accessLegal (a : Access) : Bool :=
  match a with
  | .read off width =>
    match selectPort off width with
    | .ok .cmd => false
    | .ok (.keyw _) => false
    | .ok _ => true
    | .error _ => false
  | .write off width _ =>
    match selectPort off width with
    | .ok .cmd => true
    | .ok (.din _) => true
    | .ok (.keyw _) => true
    | .ok (.cand _) => true
    | .ok _ => false
    | .error _ => false

/-- An input that cannot end in a bus error. -/
def inputLegal : Input → Bool
  | .access a => accessLegal a
  | .reset _ => true

/-- A host program, the inputs issued to the core, all of whose transactions are legal. -/
def State.ProgramLegal (s : State) : Prop := ∀ i ∈ s.pending, inputLegal i = true

/-- A safe run: no fault and no refusal in `n` steps. -/
def SafeRun (s : State) (n : Nat) : Prop :=
  ∃ s', Host.Core.run ⟨State, Fault, Refusal, step, State.reset⟩ n s = .next s'

/-- "The observable state of the core": DIN, CAND, TOUT, DOUT and the STATUS word (R38). -/
structure HostView where
  din : Block
  cand : Block
  tout : Block
  dout : Block
  status : Word
deriving DecidableEq, Repr

/-- What the host can observe of a state (R38). -/
def State.view (s : State) : HostView := ⟨s.din, s.cand, s.tout, s.dout, s.status⟩

/-- The engine's context: everything a command other than INIT, UPDATE, FINAL and VERIFY leaves alone. -/
structure Context where
  mode : Mode
  kreg : KeyBytes
  klenReg : Nat
  varReg : Variant
  lreg : Block
  k1reg : Block
  k2reg : Block
  buf : List Byte
  chain : Block
  tag : Block
deriving DecidableEq, Repr

/-- The context a state holds. -/
def State.context (s : State) : Context :=
  ⟨s.mode, s.kreg, s.klenReg, s.varReg, s.lreg, s.k1reg, s.k2reg, s.buf, s.chain, s.tag⟩

end Sys2Proof.Machine
end

