-- ==== Sys2Proof/Certificates/Slice0/Obligations.lean ====
section
/-! DEFINITION. The statements for the provers. `Sys2Proof.Expected` holds what the rules of spec/ say a command leaves,
written from the rules' text and not from the model's operations; each statement compares the model with it. -/

namespace Sys2Proof.Expected

open Sys2Proof.Machine

/-- One CMD write of the word `w`, as the next transaction the core takes (R45). -/
def cmdWrite (w : Word) (s : State) : Host.Outcome State Fault Refusal :=
  step { s with pending := .access (.write 0x00#8 32 w) :: s.pending }

/-- The reporting state a command with the code `code` and the comparison result `q` ends by writing (R162). -/
def reported (code : BitVec 4) (q : Bool) (s : State) : State :=
  { s with err := code, eq := q, errs := s.errs || decide (code ≠ 0#4) }

/-- OP, LEN, ALEN and VAR of a command word (R61). -/
def op (w : Word) : Nat := (w.extractLsb' 0 8).toNat
def len (w : Word) : Nat := (w.extractLsb' 8 5).toNat
def alen (w : Word) : Nat := (w.extractLsb' 16 6).toNat
def var (w : Word) : Nat := (w.extractLsb' 24 1).toNat

/-- The illegal encodings of R68: a nonzero reserved field, an unassigned OP, or a broken constraint of R67. -/
def IllegalWord (w : Word) : Prop :=
  (w.extractLsb' 13 3 ≠ 0#3 ∨ w.extractLsb' 22 2 ≠ 0#2 ∨ w.extractLsb' 25 7 ≠ 0#7) ∨
  (op w = 0x00 ∨ 0x07 ≤ op w) ∨
  (op w = 0x01 ∧ len w ≠ 0) ∨
  ((op w = 0x02 ∨ op w = 0x03) ∧ (16 < len w ∨ alen w ≠ 0 ∨ var w ≠ 0)) ∨
  ((op w = 0x04 ∨ op w = 0x05) ∧ (16 < len w ∨ 16 < alen w ∨ var w ≠ 0)) ∨
  (op w = 0x06 ∧ (len w ≠ 0 ∨ alen w ≠ 0 ∨ var w ≠ 0))

/-- An illegal word whose OP is `o` changes nothing but ERR = 5, EQ = 0 and ERRS = 1 (R68). -/
def IllegalFormsOf (o : Nat) (s : State) : Prop :=
  ∀ w, op w = o → IllegalWord w → cmdWrite w s = .next (reported 5#4 false { s with response := some .written })

/-- `AES(k, b)` with the stored key `k = KREG[0..KLENREG)` (R14, R31). -/
def aes (s : State) (b : Block) : Block := Config.aesEncrypt ((bytesOf 32 s.kreg).take s.klenReg) b

/-- A call at the AES port with the stored key (R106). -/
def callOf (s : State) (b : Block) : AesCall := ⟨(bytesOf 32 s.kreg).take s.klenReg, b⟩

/-- `S <- BUF ++ DIN[0..LEN)` (R100). -/
def staged (s : State) (n : Nat) : List Byte := s.buf ++ (bytesOf 16 s.din).take n

/-- The state after a chunk of `n` bytes is absorbed (R101): appended without encrypting if it fits in 16 bytes; else
`S[0..16)` is encrypted once and the rest is kept. -/
def absorbed (s : State) (n : Nat) : State :=
  if (staged s n).length ≤ 16 then { s with buf := staged s n }
  else
    { s with
      buf := (staged s n).drop 16
      chain := aes s (s.chain ^^^ blockOf ((staged s n).take 16))
      aesCalls := callOf s (s.chain ^^^ blockOf ((staged s n).take 16)) :: s.aesCalls }

/-- `last_block()` (R103). -/
def lastBlock (s : State) : Block :=
  if s.buf.length = 16 then blockOf s.buf ^^^ s.k1reg
  else blockOf (s.buf ++ [0x80#8] ++ List.replicate (15 - s.buf.length) 0#8) ^^^ s.k2reg

/-- `finish()` (R104). -/
def finished (s : State) : State :=
  { s with
    tag := aes s (s.chain ^^^ lastBlock s)
    chain := aes s (s.chain ^^^ lastBlock s)
    buf := []
    mode := .finalized
    aesCalls := callOf s (s.chain ^^^ lastBlock s) :: s.aesCalls }

/-- The byte length of the tag a context returns (R29, R130). -/
def tagLen (s : State) : Nat := if s.varReg = .cmac96 then 12 else 16

/-- The tag a context returns: the first 16 or 12 bytes of TAG (R130). -/
def tagOf (s : State) : List Byte := (bytesOf 16 s.tag).take (tagLen s)

/-- Whether the candidate `CAND[0..clen)` is the tag a finalized context returns (R112, R150). -/
def matchesTag (s : State) (clen : Nat) : Bool := decide ((bytesOf 16 s.cand).take clen = tagOf s)

/-- VERIFY's comparison in the finalized state `s`: EQ, and TagMismatch (code 3) on a difference (R112). -/
def compared (s : State) (clen : Nat) : State :=
  reported (if matchesTag s clen then 0#4 else 3#4) (matchesTag s clen) s

/-- The code a legal command reports, in the order of checks of R163. -/
def errorCode (i : Instr) (s : State) : BitVec 4 :=
  match i with
  | .init klen _ => if klen = 16 ∨ klen = 24 ∨ klen = 32 then 0#4 else 1#4
  | .update n => if s.mode = .unkeyed then 4#4 else if n = 0 then 0#4 else if s.mode = .finalized then 2#4 else 0#4
  | .final n => if s.mode = .unkeyed then 4#4 else if s.mode = .finalized ∧ 0 < n then 2#4 else 0#4
  | .verify n clen =>
    if s.mode = .unkeyed then 4#4
    else if s.mode = .finalized ∧ 0 < n then 2#4
    else if matchesTag (if s.mode = .finalized then s else finished (absorbed s n)) clen then 0#4 else 3#4
  | .cteq _ _ => 0#4
  | .double => 0#4

/-- The `eqres` a legal command ends with: set only by CTEQ and by a VERIFY that reaches its comparison (R162). -/
def eqResult (i : Instr) (s : State) : Bool :=
  match i with
  | .init _ _ => false
  | .update _ => false
  | .final _ => false
  | .verify n clen =>
    if s.mode = .unkeyed then false
    else if s.mode = .finalized ∧ 0 < n then false
    else matchesTag (if s.mode = .finalized then s else finished (absorbed s n)) clen
  | .cteq n clen => decide ((bytesOf 16 s.din).take n = (bytesOf 16 s.cand).take clen)
  | .double => false

/-- The AES port calls a legal command makes (R106). -/
def aesCallCount (i : Instr) (s : State) : Nat :=
  match i with
  | .init klen _ => if klen = 16 ∨ klen = 24 ∨ klen = 32 then 1 else 0
  | .update n => if s.mode = .active ∧ 16 < s.buf.length + n then 1 else 0
  | .final n => if s.mode = .active then (if 16 < s.buf.length + n then 2 else 1) else 0
  | .verify n _ => if s.mode = .active then (if 16 < s.buf.length + n then 2 else 1) else 0
  | .cteq _ _ => 0
  | .double => 0

/-- UPDATE commands in order, DIN rewritten before each: a chunk is a DIN value and a LEN (R102, R185). -/
def feed : List (Block × Nat) → State → Host.Outcome State Fault Refusal
  | [], s => .next s
  | c :: cs, s =>
    match exec (.update c.2) { s with din := c.1 } with
    | .next t => feed cs t
    | .fault r => .fault r
    | .refused r => .refused r

/-- The message the chunks carry, their concatenation (R102). -/
def message (cs : List (Block × Nat)) : List Byte := cs.flatMap fun c => (bytesOf 16 c.1).take c.2

/-- `bytes_to_word([b0, b1, b2, b3])` of word `j` of a 16-byte window (R42, R45). -/
def windowWordOf (v : Block) (j : Nat) : Word :=
  BitVec.ofNat 32
    ((byteAt 16 v (4 * j)).toNat * 2 ^ 24 + (byteAt 16 v (4 * j + 1)).toNat * 2 ^ 16 +
      (byteAt 16 v (4 * j + 2)).toNat * 2 ^ 8 + (byteAt 16 v (4 * j + 3)).toNat)

/-- Window bytes `v'` are `v` with word `j` replaced by the four lanes of `w`, and no other byte changed (R42, R45). -/
def IsWordWrite {m : Nat} (n : Nat) (v v' : BitVec m) (j : Nat) (w : Word) : Prop :=
  byteAt n v' (4 * j) = w.extractLsb' 24 8 ∧ byteAt n v' (4 * j + 1) = w.extractLsb' 16 8 ∧
  byteAt n v' (4 * j + 2) = w.extractLsb' 8 8 ∧ byteAt n v' (4 * j + 3) = w.extractLsb' 0 8 ∧
  ∀ i, i < n → ¬ (4 * j ≤ i ∧ i < 4 * j + 4) → byteAt n v' i = byteAt n v i

/-- The offsets a 32-bit read may name (R41, R44). -/
def readable (off : Nat) : Prop :=
  off = 0x004 ∨ ∃ j, j < 4 ∧ (off = 0x010 + 4 * j ∨ off = 0x040 + 4 * j ∨ off = 0x050 + 4 * j ∨ off = 0x060 + 4 * j)

/-- The offsets a 32-bit write may name (R41, R45). -/
def writable (off : Nat) : Prop :=
  off = 0x000 ∨ (∃ j, j < 4 ∧ (off = 0x010 + 4 * j ∨ off = 0x040 + 4 * j)) ∨ ∃ j, j < 8 ∧ off = 0x020 + 4 * j

/-- A run ended by a bus error, if it ended by one. -/
def busErrorOf : Host.Outcome State Fault Refusal → Prop
  | .fault (.busError _) => True
  | .next _ => False
  | .refused _ => False

end Sys2Proof.Expected

section

open Sys2Proof Sys2Proof.Machine Sys2Proof.Expected

/-! ## Encoding -/

/-- R63 and R61: decoding the word of a well-formed command gives the command back, every operand at every value. -/
def Obligations.DecodeOfEncode : Prop :=
  ∀ i : Instr, i.wellFormed = true → decode (encode i) = .ok i

/-- R60, R63: every word the decoder accepts is the word of a well-formed command. -/
def Obligations.EncodeOfDecode : Prop :=
  ∀ (w : Word) (i : Instr), decode w = .ok i → i.wellFormed = true ∧ encode i = w

/-- R66: the decoder reads a row's command exactly from the words the row's match, mask and constraint select, with the
operands in the fields of R61. -/
def Obligations.OpcodeMapSelectsCommand : Prop :=
  ∀ w : Word,
    (∀ klen v, decode w = .ok (.init klen v) ↔
      (w &&& 0xFEC0FFFF#32 = 0x00000001#32 ∧ klen = alen w ∧ v = (if var w = 0 then .cmac else .cmac96))) ∧
    (∀ n, decode w = .ok (.update n) ↔ (w &&& 0xFFFFE0FF#32 = 0x00000002#32 ∧ len w ≤ 16 ∧ n = len w)) ∧
    (∀ n, decode w = .ok (.final n) ↔ (w &&& 0xFFFFE0FF#32 = 0x00000003#32 ∧ len w ≤ 16 ∧ n = len w)) ∧
    (∀ n c, decode w = .ok (.verify n c) ↔
      (w &&& 0xFFC0E0FF#32 = 0x00000004#32 ∧ len w ≤ 16 ∧ alen w ≤ 16 ∧ n = len w ∧ c = alen w)) ∧
    (∀ n c, decode w = .ok (.cteq n c) ↔
      (w &&& 0xFFC0E0FF#32 = 0x00000005#32 ∧ len w ≤ 16 ∧ alen w ≤ 16 ∧ n = len w ∧ c = alen w)) ∧
    (decode w = .ok .double ↔ w &&& 0xFFFFFFFF#32 = 0x00000006#32)

/-- R68, R67, R69: the illegal words are exactly those of R68, word 0 among them, and executing one raises IllegalCommand
and changes no state but ERR, EQ and ERRS. -/
def Obligations.IllegalWordsOnlyReport : Prop :=
  (∀ w : Word, (∃ e, decode w = .error e) ↔ IllegalWord w) ∧
  IllegalWord 0x00000000#32 ∧
  ∀ (w : Word) (s : State), IllegalWord w →
    cmdWrite w s = .next (reported 5#4 false { s with response := some .written })

/-- R63: the encoding function, and its ten examples in both directions. -/
def Obligations.CommandWordsOfSpec : Prop :=
  (∀ o n a v : Nat, o < 256 → n < 32 → a < 64 → v < 2 →
    (enc o n a v).toNat = o + n * 2 ^ 8 + a * 2 ^ 16 + v * 2 ^ 24) ∧
  encode (.init 16 .cmac) = 0x00100001#32 ∧ decode 0x00100001#32 = .ok (.init 16 .cmac) ∧
  encode (.init 24 .cmac) = 0x00180001#32 ∧ decode 0x00180001#32 = .ok (.init 24 .cmac) ∧
  encode (.init 32 .cmac96) = 0x01200001#32 ∧ decode 0x01200001#32 = .ok (.init 32 .cmac96) ∧
  encode (.update 16) = 0x00001002#32 ∧ decode 0x00001002#32 = .ok (.update 16) ∧
  encode (.update 4) = 0x00000402#32 ∧ decode 0x00000402#32 = .ok (.update 4) ∧
  encode (.final 0) = 0x00000003#32 ∧ decode 0x00000003#32 = .ok (.final 0) ∧
  encode (.verify 0 16) = 0x00100004#32 ∧ decode 0x00100004#32 = .ok (.verify 0 16) ∧
  encode (.verify 0 12) = 0x000C0004#32 ∧ decode 0x000C0004#32 = .ok (.verify 0 12) ∧
  encode (.cteq 16 16) = 0x00101005#32 ∧ decode 0x00101005#32 = .ok (.cteq 16 16) ∧
  encode .double = 0x00000006#32 ∧ decode 0x00000006#32 = .ok .double

/-- R71: the pseudo-commands assemble to the words of their expansions, and so decode to them. -/
def Obligations.PseudoCommandsExpand : Prop :=
  (assemble .digest = encode (.final 0) ∧ (∀ clen, assemble (.check clen) = encode (.verify 0 clen)) ∧
    assemble .init128 = encode (.init 16 .cmac) ∧ ∀ klen, assemble (.init96 klen) = encode (.init klen .cmac96)) ∧
  decode (assemble .digest) = .ok (.final 0) ∧ decode (assemble .init128) = .ok (.init 16 .cmac) ∧
  (∀ clen, clen ≤ 16 → decode (assemble (.check clen)) = .ok (.verify 0 clen)) ∧
  ∀ klen, klen < 64 → decode (assemble (.init96 klen)) = .ok (.init klen .cmac96)

/-! ## The step -/

/-- A step whose next input is a CMD write of a word that decodes to `i` is `exec i`, in the state in which the write is
taken from the inputs and answered (R45, R60; the inputs and the answer are the model's own, log 1 and 2). -/
def Obligations.StepRunsDecodedCommand : Prop :=
  ∀ (s : State) (rest : List Input) (w : Word) (i : Instr),
    s.pending = .access (.write 0x00#8 32 w) :: rest → decode w = .ok i →
    step s = exec i { s with pending := rest, response := some .written }

/-- With nothing issued to it the core does nothing (R182). That a step of the model then answers the same state is the
model's choice (log 1). -/
def Obligations.IdleCoreDoesNothing : Prop :=
  ∀ s : State, s.pending = [] → step s = .next s

/-- A step takes the oldest input and leaves the later ones in their order, as R49 and R168 order the events. That what
the host has issued stands in a list of the state is the model's choice (log 1), and so is that an assertion of reset
leaves the later inputs in it (log 20). -/
def Obligations.InputsTakenInOrder : Prop :=
  ∀ s t : State, step s = .next t → t.pending = s.pending.tail

/-- R180: an assertion of reset leaves every state element at its reset value, whatever the state was and whatever
transaction it cut off; STATUS and TOUT then read zero; and the state the machine starts in is one. -/
def Obligations.ResetValuesOfEveryElement : Prop :=
  (∀ (s : State) (cut : Option Access) (rest : List Input), s.pending = .reset cut :: rest →
    ∃ t, step s = .next t ∧ t.din = 0#128 ∧ t.cand = 0#128 ∧ t.dout = 0#128 ∧ t.keyw = 0#256 ∧ t.mode = .unkeyed ∧
      t.kreg = 0#256 ∧ t.klenReg = 0 ∧ t.varReg = .cmac ∧ t.lreg = 0#128 ∧ t.k1reg = 0#128 ∧ t.k2reg = 0#128 ∧
      t.buf = [] ∧ t.chain = 0#128 ∧ t.tag = 0#128 ∧ t.err = 0#4 ∧ t.eq = false ∧ t.errs = false ∧
      t.status = 0#32 ∧ t.tout = 0#128 ∧ t.context = State.reset.context) ∧
  State.reset.status = 0#32 ∧ State.reset.tout = 0#128 ∧ State.reset.din = 0#128 ∧ State.reset.keyw = 0#256 ∧
  State.reset.cand = 0#128 ∧ State.reset.dout = 0#128

/-- R181: a transaction cut off by reset, a CMD write included, has no effect: the state is the one reset leaves without
it, up to the response, which is the platform's (log 8). -/
def Obligations.CutOffTransactionHasNoEffect : Prop :=
  ∀ (s s' : State) (a : Access) (rest : List Input),
    s.pending = .reset (some a) :: rest → s'.pending = .reset none :: rest →
    ∃ t, step s' = .next t ∧ t.response = none ∧
      step s = .next { t with response := some (Config.resetAbortResponse a) }

/-! ## The bus -/

/-- R44 with R41, R42, R43: a legal read answers the word of the window's bytes, or STATUS, and changes no state of the
core; every other read is a bus error. -/
def Obligations.MemReadAnswersMappedWords : Prop :=
  ∀ (s : State) (rest : List Input) (off : BitVec 8) (width : Nat), s.pending = .access (.read off width) :: rest →
    (width = 32 → off.toNat = 0x004 →
      step s = .next { s with pending := rest, response := some (.data s.status) }) ∧
    (∀ j, j < 4 → width = 32 → off.toNat = 0x010 + 4 * j →
      step s = .next { s with pending := rest, response := some (.data (windowWordOf s.din j)) }) ∧
    (∀ j, j < 4 → width = 32 → off.toNat = 0x040 + 4 * j →
      step s = .next { s with pending := rest, response := some (.data (windowWordOf s.cand j)) }) ∧
    (∀ j, j < 4 → width = 32 → off.toNat = 0x050 + 4 * j →
      step s = .next { s with pending := rest, response := some (.data (windowWordOf s.tout j)) }) ∧
    (∀ j, j < 4 → width = 32 → off.toNat = 0x060 + 4 * j →
      step s = .next { s with pending := rest, response := some (.data (windowWordOf s.dout j)) }) ∧
    (¬ (width = 32 ∧ readable off.toNat) → busErrorOf (step s))

/-- R45 with R41, R42, R43: a legal write of a window changes the four bytes it maps and nothing else; a write of CMD
executes the command; every other write is a bus error. -/
def Obligations.MemWriteChangesMappedBytes : Prop :=
  ∀ (s : State) (rest : List Input) (off : BitVec 8) (width : Nat) (w : Word),
    s.pending = .access (.write off width w) :: rest →
    (width = 32 → off.toNat = 0x000 →
      (∀ i, decode w = .ok i → step s = exec i { s with pending := rest, response := some .written }) ∧
      ∀ e, decode w = .error e →
        step s = .next (reported 5#4 false { s with pending := rest, response := some .written })) ∧
    (∀ j, j < 4 → width = 32 → off.toNat = 0x010 + 4 * j →
      ∃ v, IsWordWrite 16 s.din v j w ∧
        step s = .next { s with pending := rest, response := some .written, din := v }) ∧
    (∀ j, j < 8 → width = 32 → off.toNat = 0x020 + 4 * j →
      ∃ v, IsWordWrite 32 s.keyw v j w ∧
        step s = .next { s with pending := rest, response := some .written, keyw := v }) ∧
    (∀ j, j < 4 → width = 32 → off.toNat = 0x040 + 4 * j →
      ∃ v, IsWordWrite 16 s.cand v j w ∧
        step s = .next { s with pending := rest, response := some .written, cand := v }) ∧
    (¬ (width = 32 ∧ writable off.toNat) → busErrorOf (step s))

/-- R43: an access whose offset is not a multiple of 4, or whose width is not 32 bits, is a bus error, read or write. -/
def Obligations.OnlyAlignedWordsExist : Prop :=
  ∀ (s : State) (rest : List Input) (off : BitVec 8) (width : Nat) (w : Word),
    off.toNat % 4 ≠ 0 ∨ width ≠ 32 →
    (s.pending = .access (.read off width) :: rest → busErrorOf (step s)) ∧
    (s.pending = .access (.write off width w) :: rest → busErrorOf (step s))

/-- R42, R45, R49 and R22: a word written to DIN or CAND is the word the next read of it returns, and every other word of
the window, and the other window, reads as before. -/
def Obligations.WriteThenReadReturnsWord : Prop :=
  ∀ (s : State) (j : Nat) (w : Word), j < 4 →
    (∃ t, busAccess (.write (BitVec.ofNat 8 (0x010 + 4 * j)) 32 w) s = .next t ∧
      busRead (BitVec.ofNat 8 (0x010 + 4 * j)) 32 t = .ok w ∧
      ∀ (off : BitVec 8) (width : Nat), off.toNat ≠ 0x010 + 4 * j → busRead off width t = busRead off width s) ∧
    ∃ t, busAccess (.write (BitVec.ofNat 8 (0x040 + 4 * j)) 32 w) s = .next t ∧
      busRead (BitVec.ofNat 8 (0x040 + 4 * j)) 32 t = .ok w ∧
      ∀ (off : BitVec 8) (width : Nat), off.toNat ≠ 0x040 + 4 * j → busRead off width t = busRead off width s

/-- R47: an access that is no CMD write is idempotent and has no effect beyond the bytes it names: a read none at all, a
write the four bytes of its word; and a CMD write is not idempotent in general, for example UPDATE. -/
def Obligations.OnlyCmdWritesAreNotIdempotent : Prop :=
  (∀ (a : Access) (s t : State), busAccess a s = .next t → (∀ w, a ≠ .write 0x00#8 32 w) →
    busAccess a t = .next t ∧
    ((∃ off width, a = .read off width ∧ t = { s with response := t.response }) ∨
    (∃ j w, j < 4 ∧ a = .write (BitVec.ofNat 8 (0x010 + 4 * j)) 32 w ∧ IsWordWrite 16 s.din t.din j w ∧
      t = { s with din := t.din, response := t.response }) ∨
    (∃ j w, j < 8 ∧ a = .write (BitVec.ofNat 8 (0x020 + 4 * j)) 32 w ∧ IsWordWrite 32 s.keyw t.keyw j w ∧
      t = { s with keyw := t.keyw, response := t.response }) ∨
    ∃ j w, j < 4 ∧ a = .write (BitVec.ofNat 8 (0x040 + 4 * j)) 32 w ∧ IsWordWrite 16 s.cand t.cand j w ∧
      t = { s with cand := t.cand, response := t.response })) ∧
  (∀ (off : BitVec 8) (width : Nat) (s t : State), busAccess (.read off width) s = .next t →
    t = { s with response := t.response }) ∧
  ∃ s t u, busAccess (.write 0x00#8 32 0x00000102#32) s = .next t ∧
    busAccess (.write 0x00#8 32 0x00000102#32) t = .next u ∧ u.buf ≠ t.buf

/-- R40: a bus address reaches the core exactly inside the 0x100 bytes at CMAC_BASE, at its offset from there: an access
there becomes the core's newest input, any other leaves the core alone. The list of inputs is the model's choice (log 1),
and so are bus addresses without a bound (log 5). -/
def Obligations.WindowDecodesAtBase : Prop :=
  Config.cmacBase % 0x100 = 0 ∧
  ∀ addr : Nat,
    (∀ off, windowOffset addr = some off ↔
      Config.cmacBase ≤ addr ∧ addr < Config.cmacBase + 0x100 ∧ off.toNat = addr - Config.cmacBase) ∧
    (∀ (s : State) (width : Nat) (w : Word), Config.cmacBase ≤ addr → addr < Config.cmacBase + 0x100 →
      ∃ off : BitVec 8, off.toNat = addr - Config.cmacBase ∧
        s.issueRead addr width = { s with pending := s.pending ++ [.access (.read off width)] } ∧
        s.issueWrite addr width w = { s with pending := s.pending ++ [.access (.write off width w)] }) ∧
    (∀ (s : State) (width : Nat) (w : Word), ¬ (Config.cmacBase ≤ addr ∧ addr < Config.cmacBase + 0x100) →
      s.issueRead addr width = s ∧ s.issueWrite addr width w = s)

/-- R46: a host program all of whose transactions are legal never ends in a bus error, at any length of run. That a run
goes on past its last input, in steps that change nothing, is the model's choice (log 1). -/
def Obligations.LegalProgramsNeverFault : Prop :=
  ∀ s : State, s.ProgramLegal → ∀ n, SafeRun s n

/-- The step lemma behind it (R41, R43 to R46): from every state whose pending transactions are all legal a step answers a
next state, and its pending transactions are all legal again. The list, and that reset leaves the later inputs in it, are
the model's choices (logs 1 and 20). -/
def Obligations.StepKeepsProgramLegal : Prop :=
  ∀ s : State, s.ProgramLegal → ∃ t, step s = .next t ∧ t.ProgramLegal

/-- R38: two states give the host the same words at every read exactly when they agree on DIN, CAND, TOUT, DOUT and the
STATUS word. -/
def Obligations.ObservableStateIsExact : Prop :=
  ∀ s t : State, (∀ off width, busRead off width s = busRead off width t) ↔ s.view = t.view

/-- R173: KREG, KEYW, the subkeys, the contents of BUF and CHAIN cannot be read: states that differ only in them, and in
TAG where no tag is shown, answer every read alike. -/
def Obligations.SecretsCannotBeRead : Prop :=
  ∀ s t : State, s.din = t.din → s.cand = t.cand → s.dout = t.dout → s.mode = t.mode → s.varReg = t.varReg →
    s.klenReg = t.klenReg → s.buf.length = t.buf.length → s.err = t.err → s.eq = t.eq → s.errs = t.errs →
    (s.mode = .finalized → tagOf s = tagOf t) →
    ∀ off width, busRead off width s = busRead off width t

/-! ## The views -/

/-- R29: the STATUS word, field by field, for a buffer and a key length that fit their fields; reading it has no side
effect, and it cannot be written. Its value after reset is the spec's own derivation from R30 to R36. -/
def Obligations.StatusWordFields : Prop :=
  (∀ s : State, s.buf.length ≤ 16 → s.klenReg ≤ 32 →
    s.status.extractLsb' 0 4 = s.err ∧
    (s.status.getLsbD 4 = s.eq) ∧
    (s.status.getLsbD 5 = true ↔ s.mode ≠ .unkeyed) ∧
    (s.status.getLsbD 6 = true ↔ s.mode = .finalized) ∧
    (s.status.getLsbD 7 = true ↔ s.varReg = .cmac96) ∧
    (s.status.extractLsb' 8 5).toNat = s.buf.length ∧
    s.status.extractLsb' 13 3 = 0#3 ∧
    (s.status.extractLsb' 16 5).toNat = (if s.mode = .finalized then tagLen s else 0) ∧
    s.status.extractLsb' 21 3 = 0#3 ∧
    (s.status.extractLsb' 24 6).toNat = s.klenReg ∧
    s.status.getLsbD 30 = false ∧
    s.status.getLsbD 31 = s.errs) ∧
  (∀ s : State, busAccess (.read 0x04#8 32) s = .next { s with response := some (.data s.status) }) ∧
  (∀ (s : State) (w : Word), busErrorOf (busAccess (.write 0x04#8 32 w) s)) ∧
  State.reset.status = 0x00000000#32

/-- R130: TOUT is TAG cut to TLEN bytes and padded with zeros, all zero unless FINALIZED; STATUS.TLEN reads TLEN. -/
def Obligations.ToutIsTruncatedTag : Prop :=
  ∀ s : State,
    (∀ i, i < 16 → byteAt 16 s.tout i = if s.mode = .finalized ∧ i < tagLen s then byteAt 16 s.tag i else 0#8) ∧
    (s.mode ≠ .finalized → s.tout = 0#128) ∧ (s.mode = .finalized → s.varReg = .cmac → s.tout = s.tag) ∧
    (s.status.extractLsb' 16 5).toNat = (if s.mode = .finalized then tagLen s else 0)

/-! ## The doubler and the comparator -/

/-- R80: the doubler on the 128-bit integer of a block, and the byte-wise form that R80 derives from it. -/
def Obligations.DoublerShiftsAndReduces : Prop :=
  ∀ x : Block,
    (dbl x).toNat = (if 2 ^ 127 ≤ x.toNat then (x.toNat * 2 % 2 ^ 128) ^^^ 0x87 else x.toNat * 2 % 2 ^ 128) ∧
    (∀ i, i < 15 → byteAt 16 (dbl x) i = (byteAt 16 x i <<< 1) ||| (byteAt 16 x (i + 1) >>> 7)) ∧
    byteAt 16 (dbl x) 15 =
      (byteAt 16 x 15 <<< 1) ^^^ (if 0x80 ≤ (byteAt 16 x 0).toNat then 0x87#8 else 0x00#8)

/-- Doubling is multiplication by the polynomial x modulo x^128 + x^7 + x^2 + x + 1 over GF(2); and the consequences the
spec derives from R80. The sentence is R81's "realizes multiplication by the polynomial x in GF(2^128)"; that the
coefficient of x^j is bit j is the spec's general-knowledge convention (log 19). -/
def Obligations.DoublerMultipliesByX : Prop :=
  (∀ x : Block, ∃ q : Polynomial (ZMod 2),
    Polynomial.X * (∑ j ∈ Finset.range 128, if x.getLsbD j then Polynomial.X ^ j else 0) =
      q * (Polynomial.X ^ 128 + Polynomial.X ^ 7 + Polynomial.X ^ 2 + Polynomial.X + 1) +
        ∑ j ∈ Finset.range 128, if (dbl x).getLsbD j then Polynomial.X ^ j else 0) ∧
  dbl 0#128 = 0#128 ∧
  (∀ a b : Block, dbl (a ^^^ b) = dbl a ^^^ dbl b) ∧
  Function.Bijective dbl ∧
  ∀ x : Block,
    (dbl x).getLsbD 0 = x.getLsbD 127 ∧
    (dbl x).getLsbD 7 = (x.getLsbD 6 ^^ x.getLsbD 127) ∧
    (dbl x).getLsbD 2 = (x.getLsbD 1 ^^ x.getLsbD 127) ∧
    (dbl x).getLsbD 1 = (x.getLsbD 0 ^^ x.getLsbD 127)

/-- R150: the comparator answers 1 exactly when the lengths are equal and every byte pair is; and for operands of equal
length its answer is that of the accumulator over every pair. The time it takes is outside the model (log 6). -/
def Obligations.ComparatorDecidesEquality : Prop :=
  (∀ a b : List Byte, ctEqual a b = true ↔ a.length = b.length ∧ ∀ i, i < a.length → a[i]? = b[i]?) ∧
  (∀ a b : List Byte, a.length = b.length →
    (ctEqual a b = true ↔
      (List.range a.length).foldl (fun acc i => acc ||| (a.getD i 0#8 ^^^ b.getD i 0#8)) 0#8 = 0#8)) ∧
  ctEqual [] [] = true

/-! ## The commands: completion, result and frame -/

/-- R85 with R83: INIT with a legal key length installs the key, the subkeys and a fresh context; with another length it
reports InvalidKeyLength and writes nothing else; its illegal forms report IllegalCommand. In every MODE. With the STATUS
word of R85's example. -/
def Obligations.InitInstallsContext : Prop :=
  ∀ (klen : Nat) (v : Variant) (s : State),
    (klen = 16 ∨ klen = 24 ∨ klen = 32 →
      exec (.init klen v) s =
        .next (reported 0#4 false
          { s with
            kreg := ofBytes 256 ((bytesOf 32 s.keyw).take klen ++ List.replicate (32 - klen) 0#8)
            klenReg := klen
            varReg := v
            lreg := Config.aesEncrypt ((bytesOf 32 s.keyw).take klen) 0#128
            k1reg := dbl (Config.aesEncrypt ((bytesOf 32 s.keyw).take klen) 0#128)
            k2reg := dbl (dbl (Config.aesEncrypt ((bytesOf 32 s.keyw).take klen) 0#128))
            buf := []
            chain := 0#128
            tag := 0#128
            mode := .active
            aesCalls := ⟨(bytesOf 32 s.keyw).take klen, 0#128⟩ :: s.aesCalls })) ∧
    (klen ≠ 16 → klen ≠ 24 → klen ≠ 32 → exec (.init klen v) s = .next (reported 1#4 false s)) ∧
    (s.errs = false → ∃ t, exec (.init 16 .cmac) s = .next t ∧ t.mode = .active ∧ t.klenReg = 16 ∧
      t.status = 0x10000020#32) ∧
    IllegalFormsOf 0x01 s

/-- R86: DOUBLE writes the doubled DIN to DOUT and the report, and nothing else, in every MODE; its illegal forms report
IllegalCommand. With R86's corner cases and example. -/
def Obligations.DoubleWritesDout : Prop :=
  (∀ s : State, exec .double s = .next (reported 0#4 false { s with dout := dbl s.din }) ∧ IllegalFormsOf 0x06 s) ∧
  dbl 0x00000000000000000000000000000000#128 = 0x00000000000000000000000000000000#128 ∧
  dbl 0x80000000000000000000000000000000#128 = 0x00000000000000000000000000000087#128 ∧
  dbl 0xffffffffffffffffffffffffffffffff#128 = 0xffffffffffffffffffffffffffffff79#128 ∧
  dbl 0x7df76b0c1ab899b33e42f047b91b546f#128 = 0xfbeed618357133667c85e08f7236a8de#128

/-- R110 with R101: UPDATE of 0..16 bytes in every MODE, for a buffer of at most 16 bytes; its illegal forms report
IllegalCommand. With R110's example: after INIT 16, 0, UPDATE 16 leaves BUF = DIN, CHAIN as it was, and that STATUS. -/
def Obligations.UpdateAbsorbsChunk : Prop :=
  ∀ (n : Nat) (s : State), n ≤ 16 → s.buf.length ≤ 16 →
    (s.mode = .unkeyed → exec (.update n) s = .next (reported 4#4 false s)) ∧
    (s.mode ≠ .unkeyed → n = 0 → exec (.update n) s = .next (reported 0#4 false s)) ∧
    (s.mode = .finalized → 1 ≤ n → exec (.update n) s = .next (reported 2#4 false s)) ∧
    (s.mode = .active → 1 ≤ n → exec (.update n) s = .next (reported 0#4 false (absorbed s n)) ∧
      1 ≤ (absorbed s n).buf.length ∧ (absorbed s n).buf.length ≤ 16) ∧
    (s.mode = .active → s.buf = [] → s.klenReg = 16 → s.varReg = .cmac → s.errs = false →
      ∃ t, exec (.update 16) s = .next t ∧ t.buf = bytesOf 16 s.din ∧ t.chain = s.chain ∧
        t.status = 0x10001020#32) ∧
    IllegalFormsOf 0x02 s

/-- R111 with R103 and R104: FINAL with 0..16 bytes in every MODE, for a buffer of at most 16 bytes; its illegal forms
report IllegalCommand. With the STATUS word of R111's example; the tag there is a value of the AES parameter. -/
def Obligations.FinalProducesTag : Prop :=
  ∀ (n : Nat) (s : State), n ≤ 16 → s.buf.length ≤ 16 →
    (s.mode = .unkeyed → exec (.final n) s = .next (reported 4#4 false s)) ∧
    (s.mode = .finalized → n = 0 → exec (.final n) s = .next (reported 0#4 false s)) ∧
    (s.mode = .finalized → 1 ≤ n → exec (.final n) s = .next (reported 2#4 false s)) ∧
    (s.mode = .active → exec (.final n) s = .next (reported 0#4 false (finished (absorbed s n)))) ∧
    (s.mode = .active → s.klenReg = 16 → s.varReg = .cmac → s.errs = false →
      ∃ t, exec (.final 0) s = .next t ∧ t.status = 0x10100060#32) ∧
    IllegalFormsOf 0x03 s

/-- R112: VERIFY with 0..16 data bytes and a candidate of 0..16 bytes in every MODE, for a buffer of at most 16 bytes: it
finalizes first, compares with the tag FINAL returns, and on a difference reports TagMismatch and stays finalized; its
illegal forms report IllegalCommand. With R112's example, where CAND holds the tag VERIFY computes. -/
def Obligations.VerifyComparesTag : Prop :=
  ∀ (n clen : Nat) (s : State), n ≤ 16 → clen ≤ 16 → s.buf.length ≤ 16 →
    (s.mode = .unkeyed → exec (.verify n clen) s = .next (reported 4#4 false s)) ∧
    (s.mode = .finalized → 1 ≤ n → exec (.verify n clen) s = .next (reported 2#4 false s)) ∧
    (s.mode = .finalized → n = 0 → exec (.verify n clen) s = .next (compared s clen)) ∧
    (s.mode = .active → exec (.verify n clen) s = .next (compared (finished (absorbed s n)) clen)) ∧
    (s.mode = .active → s.klenReg = 16 → s.varReg = .cmac → s.errs = false → s.cand = (finished s).tag →
      ∃ t, exec (.verify 0 16) s = .next t ∧ t.err = 0#4 ∧ t.status = 0x10100070#32) ∧
    IllegalFormsOf 0x04 s

/-- R151: CTEQ of 0..16 and 0..16 bytes sets EQ to whether the operands are equal, reports success, and writes nothing
else, in every MODE; its illegal forms report IllegalCommand. -/
def Obligations.CteqReportsEquality : Prop :=
  ∀ (n clen : Nat) (s : State), n ≤ 16 → clen ≤ 16 →
    exec (.cteq n clen) s =
      .next (reported 0#4 (decide ((bytesOf 16 s.din).take n = (bytesOf 16 s.cand).take clen)) s) ∧
    IllegalFormsOf 0x05 s

/-- Frame of all six commands and of illegal words (R23, R24, R25, R27, R185): DIN, KEYW and CAND are never written, DOUT
only by DOUBLE, and what the host has still to issue is left alone. -/
def Obligations.CommandsKeepWindows : Prop :=
  ∀ (w : Word) (s t : State), cmdWrite w s = .next t →
    t.din = s.din ∧ t.keyw = s.keyw ∧ t.cand = s.cand ∧ t.pending = s.pending ∧
    (t.dout ≠ s.dout → decode w = .ok .double)

/-- Frame of CTEQ, DOUBLE and illegal words (R86, R151, R68): the engine's context and the AES port are left alone. -/
def Obligations.KeylessCommandsKeepContext : Prop :=
  ∀ (w : Word) (s t : State), cmdWrite w s = .next t →
    (decode w = .ok .double ∨ (∃ n c, decode w = .ok (.cteq n c)) ∨ ∃ e, decode w = .error e) →
    t.context = s.context ∧ t.aesCalls = s.aesCalls

/-- R31, R32, R33 and R84: KREG, KLENREG, VARREG and the subkeys change only at reset and at an INIT that succeeds. -/
def Obligations.KeyMaterialWrittenByInitOnly : Prop :=
  ∀ s t : State, step s = .next t →
    (t.kreg = s.kreg ∧ t.klenReg = s.klenReg ∧ t.varReg = s.varReg ∧ t.lreg = s.lreg ∧ t.k1reg = s.k1reg ∧
      t.k2reg = s.k2reg) ∨
    (∃ cut rest, s.pending = .reset cut :: rest) ∨
    ∃ w rest klen v, s.pending = .access (.write 0x00#8 32 w) :: rest ∧ decode w = .ok (.init klen v) ∧
      (klen = 16 ∨ klen = 24 ∨ klen = 32) ∧ t.err = 0#4

/-- The transitions of MODE. A successful INIT leads to ACTIVE from any mode, a successful FINAL or VERIFY from ACTIVE to
FINALIZED, reset to UNKEYED from any mode, and over every step there is no other (R30). A VERIFY that ends with TagMismatch
leads from ACTIVE to FINALIZED too: that is R112's sentence, which the spec marks as derived, and not R30's. -/
def Obligations.ModeTransitions : Prop :=
  (∀ (klen : Nat) (v : Variant) (s : State), klen = 16 ∨ klen = 24 ∨ klen = 32 →
    ∃ t, exec (.init klen v) s = .next t ∧ t.err = 0#4 ∧ t.mode = .active) ∧
  (∀ (n c : Nat) (s : State), s.mode = .active →
    (∃ t, exec (.final n) s = .next t ∧ t.mode = .finalized) ∧
    ∃ t, exec (.verify n c) s = .next t ∧ t.mode = .finalized) ∧
  (∀ (s : State) (cut : Option Access) (rest : List Input), s.pending = .reset cut :: rest →
    ∃ t, step s = .next t ∧ t.mode = .unkeyed) ∧
  State.reset.mode = .unkeyed ∧
  ∀ s t : State, step s = .next t →
    t.mode = s.mode ∨
    (t.mode = .unkeyed ∧ ∃ cut rest, s.pending = .reset cut :: rest) ∨
    (t.mode = .active ∧ t.err = 0#4 ∧ ∃ w rest klen v, s.pending = .access (.write 0x00#8 32 w) :: rest ∧
      decode w = .ok (.init klen v)) ∨
    (s.mode = .active ∧ t.mode = .finalized ∧ ∃ w rest, s.pending = .access (.write 0x00#8 32 w) :: rest ∧
      ((∃ n, decode w = .ok (.final n)) ∨ ∃ n c, decode w = .ok (.verify n c)))

/-! ## Errors and reporting -/

/-- An error other than TagMismatch writes no state but ERR, EQ and ERRS (R161). TagMismatch is raised by VERIFY only, and
leaves what FINAL with the same data leaves, but for the report: that is an inference which the spec marks as derived, from
the source's order "computes Finalize(data), compares", in R161 and in R112. -/
def Obligations.ErrorsLeaveNoPartialState : Prop :=
  ∀ (w : Word) (s t : State), cmdWrite w s = .next t → t.err ≠ 0#4 →
    (t.err ≠ 3#4 → t = { s with err := t.err, eq := t.eq, errs := t.errs, response := t.response }) ∧
    (t.err = 3#4 → ∃ n c u, decode w = .ok (.verify n c) ∧ exec (.final n) s = .next u ∧ u.mode = .finalized ∧
      t = { u with err := 3#4, eq := false, errs := true, response := t.response })

/-- R162: every command word, legal or illegal, completes and writes the report: ERR a code of R160, 5 for an illegal
word; EQ the result of the comparison a CTEQ or VERIFY reached, else 0; ERRS 1 on a nonzero code, else as it was. -/
def Obligations.EveryCommandReports : Prop :=
  (∀ (w : Word) (s : State), ∃ t, cmdWrite w s = .next t ∧ t.err.toNat ≤ 5 ∧
    t.errs = (s.errs || decide (t.err ≠ 0#4)) ∧
    (IllegalWord w → t.err = 5#4 ∧ t.eq = false) ∧
    (t.eq = true → t.err = 0#4 ∧ ((∃ n c, decode w = .ok (.cteq n c)) ∨ ∃ n c, decode w = .ok (.verify n c)))) ∧
  ∀ (i : Instr) (s : State), i.wellFormed = true → s.buf.length ≤ 16 →
    ∃ t, exec i s = .next t ∧ t.err = errorCode i s ∧ t.eq = eqResult i s ∧
      t.errs = (s.errs || decide (errorCode i s ≠ 0#4))

/-- R163: the one code a command reports, by the order of checks: IllegalCommand first, then each command's own. -/
def Obligations.OneCodeByOrderOfChecks : Prop :=
  (∀ (w : Word) (s : State), IllegalWord w → ∃ t, cmdWrite w s = .next t ∧ t.err = 5#4) ∧
  ∀ (i : Instr) (s : State), i.wellFormed = true → s.buf.length ≤ 16 →
    ∃ t, exec i s = .next t ∧ t.err = errorCode i s

/-- R106: the number of AES port calls of every command word, and the key at each call. -/
def Obligations.AesCallsPerCommand : Prop :=
  ∀ (w : Word) (s : State), s.buf.length ≤ 16 →
    ∃ t calls, cmdWrite w s = .next t ∧ t.aesCalls = calls ++ s.aesCalls ∧
      (∀ i, decode w = .ok i → calls.length = aesCallCount i s) ∧
      ((∃ e, decode w = .error e) → calls = []) ∧
      ∀ c ∈ calls, c.key = (bytesOf 32 t.kreg).take t.klenReg

/-! ## Invariants -/

/-- The invariant holds at reset (R37, R180). -/
def Obligations.InvariantAtReset : Prop := State.reset.Inv

/-- R37: every step keeps the invariant, from every state that has it. Its clauses on the report and on the tail of KREG
are R162 and R85; that KREG is kept zero there is spec/93's treatment (log 10). -/
def Obligations.StepKeepsInvariant : Prop :=
  ∀ s t : State, s.Inv → step s = .next t → t.Inv

/-! ## The engine against CMAC -/

/-- R102: after INIT and chunks of 0..16 bytes with the concatenation p, BUF is the last 1..16 bytes of p and CHAIN is
`cbc` of the rest; with p empty, BUF is empty and CHAIN zero. -/
def Obligations.AbsorbDependsOnMessageOnly : Prop :=
  ∀ (klen : Nat) (v : Variant) (s : State) (cs : List (Block × Nat)),
    (klen = 16 ∨ klen = 24 ∨ klen = 32) → (∀ c ∈ cs, c.2 ≤ 16) →
    ∃ s0 t, exec (.init klen v) s = .next s0 ∧ feed cs s0 = .next t ∧ t.mode = .active ∧ t.err = 0#4 ∧
      (message cs = [] → t.buf = [] ∧ t.chain = 0#128) ∧
      (message cs ≠ [] →
        t.buf.length = ((message cs).length - 1) % 16 + 1 ∧
        t.buf = (message cs).drop ((message cs).length - t.buf.length) ∧
        t.chain = cbc ((bytesOf 32 s.keyw).take klen) ((message cs).take ((message cs).length - t.buf.length)))

/-- R102 and R140: two splits of one message into chunks of 0..16 bytes leave the same context after INIT. -/
def Obligations.AnySplitGivesSameContext : Prop :=
  ∀ (klen : Nat) (v : Variant) (s : State) (cs cs' : List (Block × Nat)),
    (klen = 16 ∨ klen = 24 ∨ klen = 32) → (∀ c ∈ cs, c.2 ≤ 16) → (∀ c ∈ cs', c.2 ≤ 16) → message cs = message cs' →
    ∃ s0 t t', exec (.init klen v) s = .next s0 ∧ feed cs s0 = .next t ∧ feed cs' s0 = .next t' ∧
      t.context = t'.context

/-- R105: INIT, any UPDATE commands, and a FINAL or VERIFY whose own chunk ends the message write CMAC(k, m) to TAG. -/
def Obligations.EngineComputesCmac : Prop :=
  ∀ (klen : Nat) (v : Variant) (s : State) (cs : List (Block × Nat)) (last : Block × Nat),
    (klen = 16 ∨ klen = 24 ∨ klen = 32) → (∀ c ∈ cs, c.2 ≤ 16) → last.2 ≤ 16 →
    ∃ s0 t, exec (.init klen v) s = .next s0 ∧ feed cs s0 = .next t ∧
      (∃ u, exec (.final last.2) { t with din := last.1 } = .next u ∧ u.err = 0#4 ∧ u.mode = .finalized ∧
        u.tag = cmac ((bytesOf 32 s.keyw).take klen) (message cs ++ (bytesOf 16 last.1).take last.2)) ∧
      ∀ clen, clen ≤ 16 → ∃ u, exec (.verify last.2 clen) { t with din := last.1 } = .next u ∧ u.mode = .finalized ∧
        u.tag = cmac ((bytesOf 32 s.keyw).take klen) (message cs ++ (bytesOf 16 last.1).take last.2)

/-- R133: in the 96-bit variant TOUT shows the first 12 bytes of the untruncated CMAC of the message, then zeros. -/
def Obligations.TruncatedTagIsPrefix : Prop :=
  ∀ (klen : Nat) (s : State) (cs : List (Block × Nat)) (last : Block × Nat),
    (klen = 16 ∨ klen = 24 ∨ klen = 32) → (∀ c ∈ cs, c.2 ≤ 16) → last.2 ≤ 16 →
    ∃ s0 t u, exec (.init klen .cmac96) s = .next s0 ∧ feed cs s0 = .next t ∧
      exec (.final last.2) { t with din := last.1 } = .next u ∧ u.err = 0#4 ∧
      bytesOf 16 u.tout =
        (bytesOf 16 (cmac ((bytesOf 32 s.keyw).take klen) (message cs ++ (bytesOf 16 last.1).take last.2))).take 12 ++
          List.replicate 4 0#8

/-- R131: VARREG changes nothing in INIT, UPDATE, FINAL, CTEQ and DOUBLE but itself, and in VERIFY nothing but the
comparison's report; and in both variants TAG holds the full result of R104, and CHAIN takes it. -/
def Obligations.VariantOnlyAtOutput : Prop :=
  (∀ (i : Instr) (s : State) (v : Variant), (∀ klen u, i ≠ .init klen u) →
    ∃ t t', exec i s = .next t ∧ exec i { s with varReg := v } = .next t' ∧
      t' = { t with varReg := v, err := t'.err, eq := t'.eq, errs := t'.errs } ∧
      ((∀ n c, i ≠ .verify n c) → t' = { t with varReg := v })) ∧
  (∀ (klen : Nat) (s : State) (v v' : Variant), klen = 16 ∨ klen = 24 ∨ klen = 32 →
    ∃ t t', exec (.init klen v) s = .next t ∧ exec (.init klen v') s = .next t' ∧ t' = { t with varReg := v' }) ∧
  ∀ (n : Nat) (s : State), n ≤ 16 → s.buf.length ≤ 16 → s.mode = .active →
    ∃ t, exec (.final n) s = .next t ∧ t.chain = t.tag ∧
      t.tag = aes s ((absorbed s n).chain ^^^ lastBlock (absorbed s n))

/-- R113: after a FINAL that succeeded, FINAL 0 changes nothing, UPDATE and FINAL with data fail with AlreadyFinalized, and
VERIFY succeeds exactly when the candidate is the tag. -/
def Obligations.FinalizedContextConsequences : Prop :=
  ∀ (n : Nat) (s t : State), s.buf.length ≤ 16 → n ≤ 16 → exec (.final n) s = .next t → t.err = 0#4 →
    exec (.final 0) t = .next t ∧
    (∀ m, 1 ≤ m → m ≤ 16 →
      exec (.update m) t = .next (reported 2#4 false t) ∧ exec (.final m) t = .next (reported 2#4 false t)) ∧
    ∀ clen, clen ≤ 16 →
      ∃ u, exec (.verify 0 clen) t = .next u ∧ u.tag = t.tag ∧
        (u.err = 0#4 ↔ (bytesOf 16 t.cand).take clen = tagOf t)

/-! ## Host procedures -/

/-- R140: HOST_DIGEST in a fresh keyed context returns the CMAC of the data under the stored key, at the length of the
variant, for data of any length. -/
def Obligations.HostDigestIsCmac : Prop :=
  ∀ (s : State) (data : List Byte), s.Inv → s.mode = .active → s.buf = [] →
    ∃ t, hostDigest data s = .done ((bytesOf 16 (cmac s.key data)).take (tagLen s)) t ∧ t.mode = .finalized ∧
      t.tag = cmac s.key data

/-- R140: HOST_DIGEST stops at the first error. In FINALIZED data fails with AlreadyFinalized and no data returns the tag
that is there; in UNKEYED every call fails with NotKeyed; the context stays as it was. -/
def Obligations.HostDigestStopsAtFirstError : Prop :=
  ∀ (s : State) (data : List Byte),
    (s.mode = .finalized → data ≠ [] → ∃ t, hostDigest data s = .failed 2#4 t ∧ t.context = s.context) ∧
    (s.mode = .finalized → data = [] → ∃ t, hostDigest data s = .done (tagOf s) t ∧ t.context = s.context) ∧
    (s.mode = .unkeyed → ∃ t, hostDigest data s = .failed 4#4 t ∧ t.context = s.context)

/-- R142 and R141: the PRF procedure, from every state of the core, returns CMAC under the 16-byte key itself, and for a
key of any other length the two-step computation. -/
def Obligations.HostPrfIsTwoStepCmac : Prop :=
  ∀ (s : State) (vk m : List Byte),
    ∃ t, hostPrf vk m s =
      .done (bytesOf 16 (cmac (if vk.length = 16 then vk else bytesOf 16 (cmac (List.replicate 16 0#8) vk)) m)) t

/-- R144 and R112: a software verify in a fresh keyed context succeeds exactly when the candidate is the tag of the data,
and otherwise fails with TagMismatch, for candidates of any length. -/
def Obligations.HostVerifyDecidesTag : Prop :=
  ∀ (s : State) (cand data : List Byte), s.Inv → s.mode = .active → s.buf = [] →
    (cand = (bytesOf 16 (cmac s.key data)).take (tagLen s) → ∃ t, hostVerify cand data s = .done () t) ∧
    (cand ≠ (bytesOf 16 (cmac s.key data)).take (tagLen s) → ∃ t, hostVerify cand data s = .failed 3#4 t)

/-- R144: an error of the data's UPDATE or of FINAL is the result of a software verify, whatever the candidate and its
length: NotKeyed in UNKEYED, AlreadyFinalized in FINALIZED with data; and in FINALIZED without data the candidate decides
against the tag that is there. In each case the context stays as it was. -/
def Obligations.HostVerifyReportsEngineErrors : Prop :=
  ∀ (s : State) (cand data : List Byte),
    (s.mode = .unkeyed → ∃ t, hostVerify cand data s = .failed 4#4 t ∧ t.context = s.context) ∧
    (s.mode = .finalized → data ≠ [] → ∃ t, hostVerify cand data s = .failed 2#4 t ∧ t.context = s.context) ∧
    (s.mode = .finalized → data = [] → cand = tagOf s →
      ∃ t, hostVerify cand data s = .done () t ∧ t.context = s.context) ∧
    (s.mode = .finalized → data = [] → cand ≠ tagOf s →
      ∃ t, hostVerify cand data s = .failed 3#4 t ∧ t.context = s.context)

/-- R143: ENGINE_EQUAL of two keyed contexts finalizes both and compares the tags FINAL 0 returns, at the variant's length;
contexts of different variants are never equal; an UNKEYED context fails with NotKeyed. -/
def Obligations.EngineEqualComparesTags : Prop :=
  ∀ (x y : HostVariant) (a b : State), a.Inv → b.Inv →
    (x ≠ y → engineEqual x y a b = .answer false a b) ∧
    (x = y → a.mode ≠ .unkeyed → b.mode ≠ .unkeyed →
      ∃ a' b', engineEqual x y a b =
        .answer (decide (tagOf (if a.mode = .active then finished a else a) =
          tagOf (if b.mode = .active then finished b else b))) a' b' ∧
        a'.mode = .finalized ∧ b'.mode = .finalized) ∧
    (x = y → a.mode = .unkeyed → ∃ a', engineEqual x y a b = .failed 4#4 a' b) ∧
    (x = y → a.mode ≠ .unkeyed → b.mode = .unkeyed → ∃ a' b', engineEqual x y a b = .failed 4#4 a' b')

end
end

