-- ==== Sys2Proof/Laws/Bits.lean ====
section
/-! SUPPORT. The byte order inside a value (R9, R42): what `byteAt`, `bytesOf`, `ofBytes`, `keepFirst`, `wordAt` and
`setWordAt` give, bit by bit and byte by byte. -/

namespace Sys2Proof.Machine

variable {w : Nat}

theorem byteAt_getLsbD (n : Nat) (v : BitVec w) (i b : Nat) :
    (byteAt n v i).getLsbD b = (decide (b < 8) && v.getLsbD (8 * (n - 1 - i) + b)) := by
  simp [byteAt, BitVec.getLsbD_extractLsb']

theorem byteAt_getElem (n : Nat) (v : BitVec w) (i b : Nat) (hb : b < 8) :
    (byteAt n v i)[b] = v.getLsbD (8 * (n - 1 - i) + b) := by
  simp [byteAt]

@[simp] theorem bytesOf_length (n : Nat) (v : BitVec w) : (bytesOf n v).length = n := by
  simp [bytesOf]

@[simp] theorem bytesOf_getElem (n : Nat) (v : BitVec w) (i : Nat) (h : i < (bytesOf n v).length) :
    (bytesOf n v)[i] = byteAt n v i := by
  simp [bytesOf]

/-- A value is determined by its bytes. -/
theorem eq_of_byteAt_eq {n : Nat} (hw : w = 8 * n) {u v : BitVec w}
    (h : ∀ i, i < n → byteAt n u i = byteAt n v i) : u = v := by
  apply BitVec.eq_of_getLsbD_eq
  intro k hk
  have hi : n - 1 - k / 8 < n := by omega
  have hb : byteAt n u (n - 1 - k / 8) = byteAt n v (n - 1 - k / 8) := h _ hi
  have := congrArg (fun x => BitVec.getLsbD x (k % 8)) hb
  simp only [byteAt_getLsbD] at this
  have hk8 : k % 8 < 8 := Nat.mod_lt _ (by decide)
  have hpos : 8 * (n - 1 - (n - 1 - k / 8)) + k % 8 = k := by omega
  simpa [hk8, hpos] using this

theorem bytesOf_injective {n : Nat} (hw : w = 8 * n) {u v : BitVec w} (h : bytesOf n u = bytesOf n v) : u = v := by
  apply eq_of_byteAt_eq hw
  intro i hi
  have := congrArg (fun l => l[i]?) h
  simpa [bytesOf, hi] using this

/-- `v[0..m) ++ zeros(n − m)`, byte by byte. -/
theorem byteAt_keepFirst {n m i : Nat} (hw : w = 8 * n) (hm : m ≤ n) (hi : i < n) (v : BitVec w) :
    byteAt n (keepFirst n m v) i = if i < m then byteAt n v i else 0#8 := by
  apply BitVec.eq_of_getLsbD_eq
  intro b hb
  have hlow : (8 * (n - 1 - i) + b < 8 * (n - m)) ↔ ¬ i < m := by omega
  have hin : 8 * (n - 1 - i) + b < w := by omega
  by_cases h : i < m
  · have h' : ¬ (8 * (n - 1 - i) + b < 8 * (n - m)) := by omega
    have e : 8 * (n - m) + (8 * (n - 1 - i) + b - 8 * (n - m)) = 8 * (n - 1 - i) + b := by omega
    simp [keepFirst, byteAt_getElem, hb, h, h', hin, e]
  · have h' : 8 * (n - 1 - i) + b < 8 * (n - m) := by omega
    simp [keepFirst, byteAt_getElem, hb, h, h']

theorem bytesOf_keepFirst {n m : Nat} (hw : w = 8 * n) (hm : m ≤ n) (v : BitVec w) :
    bytesOf n (keepFirst n m v) = (bytesOf n v).take m ++ List.replicate (n - m) 0#8 := by
  apply List.ext_getElem
  · simp; omega
  · intro i h1 h2
    have hi : i < n := by simpa using h1
    rw [bytesOf_getElem, byteAt_keepFirst hw hm hi]
    by_cases h : i < m
    · rw [List.getElem_append_left (by simp; omega)]
      simp [h]
    · rw [List.getElem_append_right (by simp; omega)]
      simp [h]

theorem take_bytesOf_keepFirst {n m : Nat} (hw : w = 8 * n) (hm : m ≤ n) (v : BitVec w) :
    (bytesOf n (keepFirst n m v)).take m = (bytesOf n v).take m := by
  rw [bytesOf_keepFirst hw hm, List.take_append_of_le_length (by simp; omega)]
  simp

theorem keepFirst_idem {n m : Nat} (hw : w = 8 * n) (hm : m ≤ n) (v : BitVec w) :
    keepFirst n m (keepFirst n m v) = keepFirst n m v := by
  apply eq_of_byteAt_eq hw
  intro i hi
  simp only [byteAt_keepFirst hw hm hi]
  split <;> rfl

@[simp] theorem keepFirst_zero (n m : Nat) : keepFirst n m (0#w) = 0#w := by
  simp [keepFirst]

/-- Keeping no byte gives zeros. -/
theorem keepFirst_none {n : Nat} (hw : w = 8 * n) (v : BitVec w) : keepFirst n 0 v = 0#w := by
  apply eq_of_byteAt_eq hw
  intro i hi
  rw [byteAt_keepFirst hw (by omega) hi]
  simp [byteAt]

/-- Keeping every byte changes nothing. -/
@[simp] theorem keepFirst_all (n : Nat) (v : BitVec w) : keepFirst n n v = v := by
  simp [keepFirst]

/-- A window word holds its four bytes in the big-endian lanes of R42. -/
theorem wordAt_lane {n j k : Nat} (hj : 4 * j + 3 < n) (hk : k < 4) (v : BitVec w) :
    (wordAt n v j).extractLsb' (8 * (3 - k)) 8 = byteAt n v (4 * j + k) := by
  apply BitVec.eq_of_getLsbD_eq
  intro b hb
  have e : 8 * (n - 4 - 4 * j) + (8 * (3 - k) + b) = 8 * (n - 1 - (4 * j + k)) + b := by omega
  have hlt : 8 * (3 - k) + b < 32 := by omega
  simp [wordAt, byteAt_getElem, hb, hlt, e]

theorem ofBytes_concat (l : List Byte) (b : Byte) :
    ofBytes w (l ++ [b]) = (ofBytes w l <<< 8) ||| b.setWidth w := by
  simp [ofBytes]

/-- Bit `k` of a value is a bit of the byte that holds it, counted from the last byte. -/
theorem ofBytes_getLsbD (l : List Byte) (k : Nat) (hk : k < w) :
    (ofBytes w l).getLsbD k =
      (if h : k / 8 < l.length then (l[l.length - 1 - k / 8]'(by omega)).getLsbD (k % 8) else false) := by
  induction l using List.reverseRecOn generalizing k with
  | nil => simp [ofBytes]
  | append_singleton l b ih =>
    rw [ofBytes_concat]
    simp only [BitVec.getLsbD_or, BitVec.getLsbD_shiftLeft, BitVec.getLsbD_setWidth, hk, decide_true, Bool.true_and,
      List.length_append, List.length_cons, List.length_nil]
    by_cases h8 : k < 8
    · have h0 : k / 8 = 0 := by omega
      have hm : k % 8 = k := by omega
      simp [h8, h0, hm]
    · have hb : b.getLsbD k = false := BitVec.getLsbD_of_ge _ _ (by omega)
      have hdiv : k / 8 = (k - 8) / 8 + 1 := by omega
      have hmod : k % 8 = (k - 8) % 8 := by omega
      simp only [h8, decide_false, Bool.not_false, Bool.true_and, hb, Bool.or_false]
      rw [ih (k - 8) (by omega)]
      by_cases hl : (k - 8) / 8 < l.length
      · have hl' : k / 8 < l.length + (0 + 1) := by omega
        simp only [hl, hl', dite_true, hmod]
        rw [List.getElem_append_left (by omega)]
        congr 2
        omega
      · have hl' : ¬ k / 8 < l.length + (0 + 1) := by omega
        simp [hl, hl']

/-- Byte `i` of the value of `n` bytes is the byte `i` (R9, R45). -/
theorem byteAt_ofBytes {n i : Nat} (hw : w = 8 * n) (l : List Byte) (hl : l.length = n) (hi : i < n) :
    byteAt n (ofBytes w l) i = l[i]'(by omega) := by
  apply BitVec.eq_of_getLsbD_eq
  intro b hb
  have hk : 8 * (n - 1 - i) + b < w := by omega
  have hd : (8 * (n - 1 - i) + b) / 8 = n - 1 - i := by omega
  have hm : (8 * (n - 1 - i) + b) % 8 = b := by omega
  rw [byteAt_getLsbD, ofBytes_getLsbD _ _ hk]
  simp only [hb, decide_true, Bool.true_and, hd, hm]
  have hlt : n - 1 - i < l.length := by omega
  simp only [hlt, dite_true]
  congr 2
  omega

theorem bytesOf_ofBytes {n : Nat} (hw : w = 8 * n) (l : List Byte) (hl : l.length = n) :
    bytesOf n (ofBytes w l) = l := by
  apply List.ext_getElem
  · simp [hl]
  · intro i h1 h2
    have hi : i < n := by simpa using h1
    rw [bytesOf_getElem, byteAt_ofBytes hw l hl hi]

theorem ofBytes_bytesOf {n : Nat} (hw : w = 8 * n) (v : BitVec w) : ofBytes w (bytesOf n v) = v := by
  apply bytesOf_injective hw
  rw [bytesOf_ofBytes hw _ (bytesOf_length n v)]

/-- A window after a word write, bit by bit. -/
theorem setWordAt_getLsbD {n : Nat} (hw : w = 8 * n) (v : BitVec w) (j : Nat) (x : Word) (k : Nat) (hk : k < w) :
    (setWordAt n v j x).getLsbD k =
      if 8 * (n - 4 - 4 * j) ≤ k ∧ k < 8 * (n - 4 - 4 * j) + 32 then x.getLsbD (k - 8 * (n - 4 - 4 * j))
      else v.getLsbD k := by
  have hall : ∀ i, (0xFFFFFFFF#32).getLsbD i = decide (i < 32) := by
    intro i
    rw [show (0xFFFFFFFF#32) = BitVec.allOnes 32 from by decide]
    exact BitVec.getLsbD_allOnes
  simp only [setWordAt, BitVec.getLsbD_or, BitVec.getLsbD_and, BitVec.getLsbD_not, BitVec.getLsbD_shiftLeft,
    BitVec.getLsbD_setWidth, hall, hk, decide_true, Bool.true_and]
  by_cases h1 : k < 8 * (n - 4 - 4 * j)
  · have h2 : ¬ 8 * (n - 4 - 4 * j) ≤ k := by omega
    simp [h1, h2]
  · by_cases h3 : k - 8 * (n - 4 - 4 * j) < 32
    · have h4 : 8 * (n - 4 - 4 * j) ≤ k ∧ k < 8 * (n - 4 - 4 * j) + 32 := by omega
      have h5 : k - 8 * (n - 4 - 4 * j) < w := by omega
      simp [h1, h3, h4, h5]
    · have h4 : ¬ (8 * (n - 4 - 4 * j) ≤ k ∧ k < 8 * (n - 4 - 4 * j) + 32) := by omega
      have h6 : x.getLsbD (k - 8 * (n - 4 - 4 * j)) = false := BitVec.getLsbD_of_ge _ _ (by omega)
      simp [h1, h3, h4, h6]

/-- A word write changes its four bytes and no other (R45). -/
theorem byteAt_setWordAt {n j i : Nat} (hw : w = 8 * n) (hj : 4 * j + 3 < n) (hi : i < n) (v : BitVec w) (x : Word) :
    byteAt n (setWordAt n v j x) i =
      if 4 * j ≤ i ∧ i < 4 * j + 4 then x.extractLsb' (8 * (3 - (i - 4 * j))) 8 else byteAt n v i := by
  apply BitVec.eq_of_getLsbD_eq
  intro b hb
  have hk : 8 * (n - 1 - i) + b < w := by omega
  rw [byteAt_getLsbD, setWordAt_getLsbD hw _ _ _ _ hk]
  by_cases h : 4 * j ≤ i ∧ i < 4 * j + 4
  · have h' : 8 * (n - 4 - 4 * j) ≤ 8 * (n - 1 - i) + b ∧ 8 * (n - 1 - i) + b < 8 * (n - 4 - 4 * j) + 32 := by omega
    have e : 8 * (n - 1 - i) + b - 8 * (n - 4 - 4 * j) = 8 * (3 - (i - 4 * j)) + b := by omega
    simp [h, h', hb, e]
  · have h' : ¬ (8 * (n - 4 - 4 * j) ≤ 8 * (n - 1 - i) + b ∧ 8 * (n - 1 - i) + b < 8 * (n - 4 - 4 * j) + 32) := by omega
    simp [h, h', hb, byteAt_getElem]

/-- Writing the same word twice is writing it once. -/
theorem setWordAt_twice {n : Nat} (hw : w = 8 * n) (v : BitVec w) (j : Nat) (x : Word) :
    setWordAt n (setWordAt n v j x) j x = setWordAt n v j x := by
  apply BitVec.eq_of_getLsbD_eq
  intro k hk
  rw [setWordAt_getLsbD hw _ _ _ _ hk, setWordAt_getLsbD hw _ _ _ _ hk]
  split <;> rfl

end Sys2Proof.Machine
end

