-- ==== Sys2Proof/Laws/Decode.lean ====
section
/-! SUPPORT. The fields of a command word (R61) as arithmetic: what `enc` puts where, and that a word with zero reserved
fields is `enc` of its fields (R63). -/

namespace Sys2Proof

/-- A field as a quotient and a remainder (R10). -/
theorem wordField_eq (w : Word) (lo n : Nat) : wordField w lo n = w.toNat / 2 ^ lo % 2 ^ n := by
  simp [wordField, BitVec.extractLsb'_toNat, Nat.shiftRight_eq_div_pow]

theorem enc_toNat {op len alen var : Nat} (h0 : op < 256) (h1 : len < 32) (h2 : alen < 64) (h3 : var < 2) :
    (enc op len alen var).toNat = op + len * 2 ^ 8 + alen * 2 ^ 16 + var * 2 ^ 24 := by
  rw [enc, BitVec.toNat_ofNat]
  omega

theorem wordField_enc_op {op len alen var : Nat} (h0 : op < 256) (h1 : len < 32) (h2 : alen < 64) (h3 : var < 2) :
    wordField (enc op len alen var) 0 8 = op := by
  rw [wordField_eq, enc_toNat h0 h1 h2 h3]
  omega

theorem wordField_enc_len {op len alen var : Nat} (h0 : op < 256) (h1 : len < 32) (h2 : alen < 64) (h3 : var < 2) :
    wordField (enc op len alen var) 8 5 = len := by
  rw [wordField_eq, enc_toNat h0 h1 h2 h3]
  omega

theorem wordField_enc_alen {op len alen var : Nat} (h0 : op < 256) (h1 : len < 32) (h2 : alen < 64) (h3 : var < 2) :
    wordField (enc op len alen var) 16 6 = alen := by
  rw [wordField_eq, enc_toNat h0 h1 h2 h3]
  omega

theorem wordField_enc_var {op len alen var : Nat} (h0 : op < 256) (h1 : len < 32) (h2 : alen < 64) (h3 : var < 2) :
    wordField (enc op len alen var) 24 1 = var := by
  rw [wordField_eq, enc_toNat h0 h1 h2 h3]
  omega

/-- The reserved fields as arithmetic (R61). -/
theorem reservedZero_iff (w : Word) :
    reservedZero w = true ↔ w.toNat / 2 ^ 13 % 2 ^ 3 = 0 ∧ w.toNat / 2 ^ 22 % 2 ^ 2 = 0 ∧ w.toNat / 2 ^ 25 % 2 ^ 7 = 0 := by
  simp [reservedZero, wordField_eq, and_assoc]

theorem reservedZero_enc {op len alen var : Nat} (h0 : op < 256) (h1 : len < 32) (h2 : alen < 64) (h3 : var < 2) :
    reservedZero (enc op len alen var) = true := by
  rw [reservedZero_iff, enc_toNat h0 h1 h2 h3]
  omega

/-- The bounds of the four fields (R61). -/
theorem wordField_bounds (w : Word) :
    wordField w 0 8 < 256 ∧ wordField w 8 5 < 32 ∧ wordField w 16 6 < 64 ∧ wordField w 24 1 < 2 := by
  simp only [wordField_eq]
  omega

/-- A word with zero reserved fields is `enc` of its fields (R63). -/
theorem eq_enc_of_reservedZero {w : Word} (h : reservedZero w = true) :
    w = enc (wordField w 0 8) (wordField w 8 5) (wordField w 16 6) (wordField w 24 1) := by
  obtain ⟨b0, b1, b2, b3⟩ := wordField_bounds w
  obtain ⟨r0, r1, r2⟩ := (reservedZero_iff w).1 h
  apply BitVec.eq_of_toNat_eq
  rw [enc_toNat b0 b1 b2 b3]
  simp only [wordField_eq]
  have := w.isLt
  omega

@[simp] theorem variantOf_bit (v : Variant) : variantOf v.bit.toNat = v := by cases v <;> rfl

theorem variantOf_bit_toNat {n : Nat} (h : n < 2) : (variantOf n).bit.toNat = n := by
  rcases Nat.lt_succ_iff_lt_or_eq.1 h with h | h
  · have : n = 0 := by omega
    subst this
    rfl
  · subst h
    rfl

theorem variant_bit_lt (v : Variant) : v.bit.toNat < 2 := by cases v <;> decide

/-- `constrained` succeeds exactly when its check does. -/
theorem constrained_eq_ok {ok : Bool} {i j : Instr} : constrained ok i = .ok j ↔ ok = true ∧ i = j := by
  cases ok <;> simp [constrained]

/-- Everything the decoder accepts, in terms of the fields (R60, R67). -/
theorem decode_ok_iff (w : Word) (i : Instr) :
    decode w = .ok i ↔
      reservedZero w = true ∧
      ((wordField w 0 8 = 1 ∧ wordField w 8 5 = 0 ∧ i = .init (wordField w 16 6) (variantOf (wordField w 24 1))) ∨
       (wordField w 0 8 = 2 ∧ wordField w 8 5 ≤ 16 ∧ wordField w 16 6 = 0 ∧ wordField w 24 1 = 0 ∧
         i = .update (wordField w 8 5)) ∨
       (wordField w 0 8 = 3 ∧ wordField w 8 5 ≤ 16 ∧ wordField w 16 6 = 0 ∧ wordField w 24 1 = 0 ∧
         i = .final (wordField w 8 5)) ∨
       (wordField w 0 8 = 4 ∧ wordField w 8 5 ≤ 16 ∧ wordField w 16 6 ≤ 16 ∧ wordField w 24 1 = 0 ∧
         i = .verify (wordField w 8 5) (wordField w 16 6)) ∨
       (wordField w 0 8 = 5 ∧ wordField w 8 5 ≤ 16 ∧ wordField w 16 6 ≤ 16 ∧ wordField w 24 1 = 0 ∧
         i = .cteq (wordField w 8 5) (wordField w 16 6)) ∨
       (wordField w 0 8 = 6 ∧ wordField w 8 5 = 0 ∧ wordField w 16 6 = 0 ∧ wordField w 24 1 = 0 ∧ i = .double)) := by
  unfold decode
  by_cases hr : reservedZero w = true
  · simp only [hr, if_true, true_and]
    generalize wordField w 0 8 = op
    split
    all_goals first
      | (rename_i h1 h2 h3 h4 h5 h6
         constructor
         · intro h
           cases h
         · rintro (⟨h, _⟩ | ⟨h, _⟩ | ⟨h, _⟩ | ⟨h, _⟩ | ⟨h, _⟩ | ⟨h, _⟩) <;> first | exact absurd h h1 | exact absurd h h2 | exact absurd h h3 | exact absurd h h4 | exact absurd h h5 | exact absurd h h6)
      | (rw [constrained_eq_ok]
         simp [and_assoc, eq_comm (a := i)])
  · simp [hr]

/-- A word decodes to a command or is illegal. -/
theorem decode_total (w : Word) : (∃ i, decode w = .ok i) ∨ ∃ e, decode w = .error e := by
  cases decode w with
  | ok i => exact .inl ⟨i, rfl⟩
  | error e => exact .inr ⟨e, rfl⟩

/-! ## The masks of R66 -/

/-- A masked word, bit by bit. -/
theorem and_eq_iff_bits (w m p : Word) :
    w &&& m = p ↔ ∀ i, i < 32 → (w.getLsbD i && m.getLsbD i) = p.getLsbD i := by
  constructor
  · rintro rfl i _
    simp
  · intro h
    apply BitVec.eq_of_getLsbD_eq
    intro i hi
    rw [BitVec.getLsbD_and]
    exact h i hi

/-- A field of a word, bit by bit. -/
theorem field_eq_iff_bits (w : Word) (lo n : Nat) (v : BitVec n) :
    w.extractLsb' lo n = v ↔ ∀ i, i < n → w.getLsbD (lo + i) = v.getLsbD i := by
  constructor
  · rintro rfl i hi
    simp [hi]
  · intro h
    apply BitVec.eq_of_getLsbD_eq
    intro i hi
    rw [BitVec.getLsbD_extractLsb', h i hi]
    simp [hi]

/-- INIT's mask (R66) fixes the reserved fields, OP and LEN. -/
theorem mask_init (w : Word) :
    w &&& 0xFEC0FFFF#32 = 0x00000001#32 ↔
      (w.extractLsb' 13 3 = 0#3 ∧ w.extractLsb' 22 2 = 0#2 ∧ w.extractLsb' 25 7 = 0#7) ∧
        w.extractLsb' 0 8 = 1#8 ∧ w.extractLsb' 8 5 = 0#5 := by
  rw [and_eq_iff_bits]
  simp only [field_eq_iff_bits, Nat.forall_lt_succ_right, Nat.not_lt_zero, false_implies, implies_true, true_and]
  simp
  tauto

/-- The mask of UPDATE and FINAL (R66) fixes the reserved fields, OP, ALEN and VAR. -/
theorem mask_update_final (w : Word) (o : BitVec 8) :
    w &&& 0xFFFFE0FF#32 = o.setWidth 32 ↔
      (w.extractLsb' 13 3 = 0#3 ∧ w.extractLsb' 22 2 = 0#2 ∧ w.extractLsb' 25 7 = 0#7) ∧
        w.extractLsb' 0 8 = o ∧ w.extractLsb' 16 6 = 0#6 ∧ w.extractLsb' 24 1 = 0#1 := by
  rw [and_eq_iff_bits]
  simp only [field_eq_iff_bits, Nat.forall_lt_succ_right, Nat.not_lt_zero, false_implies, implies_true, true_and]
  simp
  tauto

/-- The mask of VERIFY and CTEQ (R66) fixes the reserved fields, OP and VAR. -/
theorem mask_verify_cteq (w : Word) (o : BitVec 8) :
    w &&& 0xFFC0E0FF#32 = o.setWidth 32 ↔
      (w.extractLsb' 13 3 = 0#3 ∧ w.extractLsb' 22 2 = 0#2 ∧ w.extractLsb' 25 7 = 0#7) ∧
        w.extractLsb' 0 8 = o ∧ w.extractLsb' 24 1 = 0#1 := by
  rw [and_eq_iff_bits]
  simp only [field_eq_iff_bits, Nat.forall_lt_succ_right, Nat.not_lt_zero, false_implies, implies_true, true_and]
  simp
  tauto

end Sys2Proof
end

