-- ==== Sys2Proof/Laws/State.lean ====
section
/-! SUPPORT. One lemma for each field and each state-changing operation, true by rfl, so that no later proof unfolds a
record update. -/

namespace Sys2Proof.Machine

/-! ## report: the report of a command's outcome (R162) -/

@[simp] theorem report_din (s : State) (q : Bool) (e : Option CmdError) : (report s q e).din = s.din := rfl
@[simp] theorem report_keyw (s : State) (q : Bool) (e : Option CmdError) : (report s q e).keyw = s.keyw := rfl
@[simp] theorem report_cand (s : State) (q : Bool) (e : Option CmdError) : (report s q e).cand = s.cand := rfl
@[simp] theorem report_dout (s : State) (q : Bool) (e : Option CmdError) : (report s q e).dout = s.dout := rfl
@[simp] theorem report_mode (s : State) (q : Bool) (e : Option CmdError) : (report s q e).mode = s.mode := rfl
@[simp] theorem report_kreg (s : State) (q : Bool) (e : Option CmdError) : (report s q e).kreg = s.kreg := rfl
@[simp] theorem report_klenReg (s : State) (q : Bool) (e : Option CmdError) : (report s q e).klenReg = s.klenReg := rfl
@[simp] theorem report_varReg (s : State) (q : Bool) (e : Option CmdError) : (report s q e).varReg = s.varReg := rfl
@[simp] theorem report_lreg (s : State) (q : Bool) (e : Option CmdError) : (report s q e).lreg = s.lreg := rfl
@[simp] theorem report_k1reg (s : State) (q : Bool) (e : Option CmdError) : (report s q e).k1reg = s.k1reg := rfl
@[simp] theorem report_k2reg (s : State) (q : Bool) (e : Option CmdError) : (report s q e).k2reg = s.k2reg := rfl
@[simp] theorem report_buf (s : State) (q : Bool) (e : Option CmdError) : (report s q e).buf = s.buf := rfl
@[simp] theorem report_chain (s : State) (q : Bool) (e : Option CmdError) : (report s q e).chain = s.chain := rfl
@[simp] theorem report_tag (s : State) (q : Bool) (e : Option CmdError) : (report s q e).tag = s.tag := rfl
@[simp] theorem report_err (s : State) (q : Bool) (e : Option CmdError) : (report s q e).err = codeOf e := rfl
@[simp] theorem report_eq (s : State) (q : Bool) (e : Option CmdError) : (report s q e).eq = q := rfl
@[simp] theorem report_errs (s : State) (q : Bool) (e : Option CmdError) : (report s q e).errs = (s.errs || e.isSome) := rfl
@[simp] theorem report_pending (s : State) (q : Bool) (e : Option CmdError) : (report s q e).pending = s.pending := rfl
@[simp] theorem report_response (s : State) (q : Bool) (e : Option CmdError) : (report s q e).response = s.response := rfl
@[simp] theorem report_aesCalls (s : State) (q : Bool) (e : Option CmdError) : (report s q e).aesCalls = s.aesCalls := rfl

/-! ## respond: the bus response (log 2) -/

@[simp] theorem respond_din (s : State) (r : Response) : (s.respond r).din = s.din := rfl
@[simp] theorem respond_keyw (s : State) (r : Response) : (s.respond r).keyw = s.keyw := rfl
@[simp] theorem respond_cand (s : State) (r : Response) : (s.respond r).cand = s.cand := rfl
@[simp] theorem respond_dout (s : State) (r : Response) : (s.respond r).dout = s.dout := rfl
@[simp] theorem respond_mode (s : State) (r : Response) : (s.respond r).mode = s.mode := rfl
@[simp] theorem respond_kreg (s : State) (r : Response) : (s.respond r).kreg = s.kreg := rfl
@[simp] theorem respond_klenReg (s : State) (r : Response) : (s.respond r).klenReg = s.klenReg := rfl
@[simp] theorem respond_varReg (s : State) (r : Response) : (s.respond r).varReg = s.varReg := rfl
@[simp] theorem respond_lreg (s : State) (r : Response) : (s.respond r).lreg = s.lreg := rfl
@[simp] theorem respond_k1reg (s : State) (r : Response) : (s.respond r).k1reg = s.k1reg := rfl
@[simp] theorem respond_k2reg (s : State) (r : Response) : (s.respond r).k2reg = s.k2reg := rfl
@[simp] theorem respond_buf (s : State) (r : Response) : (s.respond r).buf = s.buf := rfl
@[simp] theorem respond_chain (s : State) (r : Response) : (s.respond r).chain = s.chain := rfl
@[simp] theorem respond_tag (s : State) (r : Response) : (s.respond r).tag = s.tag := rfl
@[simp] theorem respond_err (s : State) (r : Response) : (s.respond r).err = s.err := rfl
@[simp] theorem respond_eq (s : State) (r : Response) : (s.respond r).eq = s.eq := rfl
@[simp] theorem respond_errs (s : State) (r : Response) : (s.respond r).errs = s.errs := rfl
@[simp] theorem respond_pending (s : State) (r : Response) : (s.respond r).pending = s.pending := rfl
@[simp] theorem respond_response (s : State) (r : Response) : (s.respond r).response = some r := rfl
@[simp] theorem respond_aesCalls (s : State) (r : Response) : (s.respond r).aesCalls = s.aesCalls := rfl

/-! ## callAes: a call at the AES port (log 3) -/

@[simp] theorem callAes_din (s : State) (b : Block) : (s.callAes b).din = s.din := rfl
@[simp] theorem callAes_keyw (s : State) (b : Block) : (s.callAes b).keyw = s.keyw := rfl
@[simp] theorem callAes_cand (s : State) (b : Block) : (s.callAes b).cand = s.cand := rfl
@[simp] theorem callAes_dout (s : State) (b : Block) : (s.callAes b).dout = s.dout := rfl
@[simp] theorem callAes_mode (s : State) (b : Block) : (s.callAes b).mode = s.mode := rfl
@[simp] theorem callAes_kreg (s : State) (b : Block) : (s.callAes b).kreg = s.kreg := rfl
@[simp] theorem callAes_klenReg (s : State) (b : Block) : (s.callAes b).klenReg = s.klenReg := rfl
@[simp] theorem callAes_varReg (s : State) (b : Block) : (s.callAes b).varReg = s.varReg := rfl
@[simp] theorem callAes_lreg (s : State) (b : Block) : (s.callAes b).lreg = s.lreg := rfl
@[simp] theorem callAes_k1reg (s : State) (b : Block) : (s.callAes b).k1reg = s.k1reg := rfl
@[simp] theorem callAes_k2reg (s : State) (b : Block) : (s.callAes b).k2reg = s.k2reg := rfl
@[simp] theorem callAes_buf (s : State) (b : Block) : (s.callAes b).buf = s.buf := rfl
@[simp] theorem callAes_chain (s : State) (b : Block) : (s.callAes b).chain = s.chain := rfl
@[simp] theorem callAes_tag (s : State) (b : Block) : (s.callAes b).tag = s.tag := rfl
@[simp] theorem callAes_err (s : State) (b : Block) : (s.callAes b).err = s.err := rfl
@[simp] theorem callAes_eq (s : State) (b : Block) : (s.callAes b).eq = s.eq := rfl
@[simp] theorem callAes_errs (s : State) (b : Block) : (s.callAes b).errs = s.errs := rfl
@[simp] theorem callAes_pending (s : State) (b : Block) : (s.callAes b).pending = s.pending := rfl
@[simp] theorem callAes_response (s : State) (b : Block) : (s.callAes b).response = s.response := rfl
@[simp] theorem callAes_aesCalls (s : State) (b : Block) : (s.callAes b).aesCalls = ⟨s.key, b⟩ :: s.aesCalls := rfl

/-! ## cbcStep: the CBC step (R19) -/

@[simp] theorem cbcStep_din (s : State) (m : Block) : (s.cbcStep m).din = s.din := rfl
@[simp] theorem cbcStep_keyw (s : State) (m : Block) : (s.cbcStep m).keyw = s.keyw := rfl
@[simp] theorem cbcStep_cand (s : State) (m : Block) : (s.cbcStep m).cand = s.cand := rfl
@[simp] theorem cbcStep_dout (s : State) (m : Block) : (s.cbcStep m).dout = s.dout := rfl
@[simp] theorem cbcStep_mode (s : State) (m : Block) : (s.cbcStep m).mode = s.mode := rfl
@[simp] theorem cbcStep_kreg (s : State) (m : Block) : (s.cbcStep m).kreg = s.kreg := rfl
@[simp] theorem cbcStep_klenReg (s : State) (m : Block) : (s.cbcStep m).klenReg = s.klenReg := rfl
@[simp] theorem cbcStep_varReg (s : State) (m : Block) : (s.cbcStep m).varReg = s.varReg := rfl
@[simp] theorem cbcStep_lreg (s : State) (m : Block) : (s.cbcStep m).lreg = s.lreg := rfl
@[simp] theorem cbcStep_k1reg (s : State) (m : Block) : (s.cbcStep m).k1reg = s.k1reg := rfl
@[simp] theorem cbcStep_k2reg (s : State) (m : Block) : (s.cbcStep m).k2reg = s.k2reg := rfl
@[simp] theorem cbcStep_buf (s : State) (m : Block) : (s.cbcStep m).buf = s.buf := rfl
@[simp] theorem cbcStep_chain (s : State) (m : Block) : (s.cbcStep m).chain = Config.aesEncrypt s.key (s.chain ^^^ m) := rfl
@[simp] theorem cbcStep_tag (s : State) (m : Block) : (s.cbcStep m).tag = s.tag := rfl
@[simp] theorem cbcStep_err (s : State) (m : Block) : (s.cbcStep m).err = s.err := rfl
@[simp] theorem cbcStep_eq (s : State) (m : Block) : (s.cbcStep m).eq = s.eq := rfl
@[simp] theorem cbcStep_errs (s : State) (m : Block) : (s.cbcStep m).errs = s.errs := rfl
@[simp] theorem cbcStep_pending (s : State) (m : Block) : (s.cbcStep m).pending = s.pending := rfl
@[simp] theorem cbcStep_response (s : State) (m : Block) : (s.cbcStep m).response = s.response := rfl
@[simp] theorem cbcStep_aesCalls (s : State) (m : Block) : (s.cbcStep m).aesCalls = ⟨s.key, s.chain ^^^ m⟩ :: s.aesCalls := rfl

/-! ## loadKey: INIT's copying of the key (R85) -/

@[simp] theorem loadKey_din (s : State) (klen : Nat) (var : Variant) : (s.loadKey klen var).din = s.din := rfl
@[simp] theorem loadKey_keyw (s : State) (klen : Nat) (var : Variant) : (s.loadKey klen var).keyw = s.keyw := rfl
@[simp] theorem loadKey_cand (s : State) (klen : Nat) (var : Variant) : (s.loadKey klen var).cand = s.cand := rfl
@[simp] theorem loadKey_dout (s : State) (klen : Nat) (var : Variant) : (s.loadKey klen var).dout = s.dout := rfl
@[simp] theorem loadKey_mode (s : State) (klen : Nat) (var : Variant) : (s.loadKey klen var).mode = s.mode := rfl
@[simp] theorem loadKey_kreg (s : State) (klen : Nat) (var : Variant) : (s.loadKey klen var).kreg = keepFirst 32 klen s.keyw := rfl
@[simp] theorem loadKey_klenReg (s : State) (klen : Nat) (var : Variant) : (s.loadKey klen var).klenReg = klen := rfl
@[simp] theorem loadKey_varReg (s : State) (klen : Nat) (var : Variant) : (s.loadKey klen var).varReg = var := rfl
@[simp] theorem loadKey_lreg (s : State) (klen : Nat) (var : Variant) : (s.loadKey klen var).lreg = s.lreg := rfl
@[simp] theorem loadKey_k1reg (s : State) (klen : Nat) (var : Variant) : (s.loadKey klen var).k1reg = s.k1reg := rfl
@[simp] theorem loadKey_k2reg (s : State) (klen : Nat) (var : Variant) : (s.loadKey klen var).k2reg = s.k2reg := rfl
@[simp] theorem loadKey_buf (s : State) (klen : Nat) (var : Variant) : (s.loadKey klen var).buf = s.buf := rfl
@[simp] theorem loadKey_chain (s : State) (klen : Nat) (var : Variant) : (s.loadKey klen var).chain = s.chain := rfl
@[simp] theorem loadKey_tag (s : State) (klen : Nat) (var : Variant) : (s.loadKey klen var).tag = s.tag := rfl
@[simp] theorem loadKey_err (s : State) (klen : Nat) (var : Variant) : (s.loadKey klen var).err = s.err := rfl
@[simp] theorem loadKey_eq (s : State) (klen : Nat) (var : Variant) : (s.loadKey klen var).eq = s.eq := rfl
@[simp] theorem loadKey_errs (s : State) (klen : Nat) (var : Variant) : (s.loadKey klen var).errs = s.errs := rfl
@[simp] theorem loadKey_pending (s : State) (klen : Nat) (var : Variant) : (s.loadKey klen var).pending = s.pending := rfl
@[simp] theorem loadKey_response (s : State) (klen : Nat) (var : Variant) : (s.loadKey klen var).response = s.response := rfl
@[simp] theorem loadKey_aesCalls (s : State) (klen : Nat) (var : Variant) : (s.loadKey klen var).aesCalls = s.aesCalls := rfl

/-! ## generateSubkeys: subkey generation (R83) -/

@[simp] theorem generateSubkeys_din (s : State) : (s.generateSubkeys).din = s.din := rfl
@[simp] theorem generateSubkeys_keyw (s : State) : (s.generateSubkeys).keyw = s.keyw := rfl
@[simp] theorem generateSubkeys_cand (s : State) : (s.generateSubkeys).cand = s.cand := rfl
@[simp] theorem generateSubkeys_dout (s : State) : (s.generateSubkeys).dout = s.dout := rfl
@[simp] theorem generateSubkeys_mode (s : State) : (s.generateSubkeys).mode = s.mode := rfl
@[simp] theorem generateSubkeys_kreg (s : State) : (s.generateSubkeys).kreg = s.kreg := rfl
@[simp] theorem generateSubkeys_klenReg (s : State) : (s.generateSubkeys).klenReg = s.klenReg := rfl
@[simp] theorem generateSubkeys_varReg (s : State) : (s.generateSubkeys).varReg = s.varReg := rfl
@[simp] theorem generateSubkeys_lreg (s : State) : (s.generateSubkeys).lreg = Config.aesEncrypt s.key 0#128 := rfl
@[simp] theorem generateSubkeys_k1reg (s : State) : (s.generateSubkeys).k1reg = dbl (Config.aesEncrypt s.key 0#128) := rfl
@[simp] theorem generateSubkeys_k2reg (s : State) : (s.generateSubkeys).k2reg = dbl (dbl (Config.aesEncrypt s.key 0#128)) := rfl
@[simp] theorem generateSubkeys_buf (s : State) : (s.generateSubkeys).buf = s.buf := rfl
@[simp] theorem generateSubkeys_chain (s : State) : (s.generateSubkeys).chain = s.chain := rfl
@[simp] theorem generateSubkeys_tag (s : State) : (s.generateSubkeys).tag = s.tag := rfl
@[simp] theorem generateSubkeys_err (s : State) : (s.generateSubkeys).err = s.err := rfl
@[simp] theorem generateSubkeys_eq (s : State) : (s.generateSubkeys).eq = s.eq := rfl
@[simp] theorem generateSubkeys_errs (s : State) : (s.generateSubkeys).errs = s.errs := rfl
@[simp] theorem generateSubkeys_pending (s : State) : (s.generateSubkeys).pending = s.pending := rfl
@[simp] theorem generateSubkeys_response (s : State) : (s.generateSubkeys).response = s.response := rfl
@[simp] theorem generateSubkeys_aesCalls (s : State) : (s.generateSubkeys).aesCalls = ⟨s.key, 0#128⟩ :: s.aesCalls := rfl

/-! ## startContext: INIT's fresh context (R85) -/

@[simp] theorem startContext_din (s : State) : (s.startContext).din = s.din := rfl
@[simp] theorem startContext_keyw (s : State) : (s.startContext).keyw = s.keyw := rfl
@[simp] theorem startContext_cand (s : State) : (s.startContext).cand = s.cand := rfl
@[simp] theorem startContext_dout (s : State) : (s.startContext).dout = s.dout := rfl
@[simp] theorem startContext_mode (s : State) : (s.startContext).mode = .active := rfl
@[simp] theorem startContext_kreg (s : State) : (s.startContext).kreg = s.kreg := rfl
@[simp] theorem startContext_klenReg (s : State) : (s.startContext).klenReg = s.klenReg := rfl
@[simp] theorem startContext_varReg (s : State) : (s.startContext).varReg = s.varReg := rfl
@[simp] theorem startContext_lreg (s : State) : (s.startContext).lreg = s.lreg := rfl
@[simp] theorem startContext_k1reg (s : State) : (s.startContext).k1reg = s.k1reg := rfl
@[simp] theorem startContext_k2reg (s : State) : (s.startContext).k2reg = s.k2reg := rfl
@[simp] theorem startContext_buf (s : State) : (s.startContext).buf = [] := rfl
@[simp] theorem startContext_chain (s : State) : (s.startContext).chain = 0#128 := rfl
@[simp] theorem startContext_tag (s : State) : (s.startContext).tag = 0#128 := rfl
@[simp] theorem startContext_err (s : State) : (s.startContext).err = s.err := rfl
@[simp] theorem startContext_eq (s : State) : (s.startContext).eq = s.eq := rfl
@[simp] theorem startContext_errs (s : State) : (s.startContext).errs = s.errs := rfl
@[simp] theorem startContext_pending (s : State) : (s.startContext).pending = s.pending := rfl
@[simp] theorem startContext_response (s : State) : (s.startContext).response = s.response := rfl
@[simp] theorem startContext_aesCalls (s : State) : (s.startContext).aesCalls = s.aesCalls := rfl

/-! ## finish: the finish step (R104) -/

@[simp] theorem finish_din (s : State) : (finish s).din = s.din := rfl
@[simp] theorem finish_keyw (s : State) : (finish s).keyw = s.keyw := rfl
@[simp] theorem finish_cand (s : State) : (finish s).cand = s.cand := rfl
@[simp] theorem finish_dout (s : State) : (finish s).dout = s.dout := rfl
@[simp] theorem finish_mode (s : State) : (finish s).mode = .finalized := rfl
@[simp] theorem finish_kreg (s : State) : (finish s).kreg = s.kreg := rfl
@[simp] theorem finish_klenReg (s : State) : (finish s).klenReg = s.klenReg := rfl
@[simp] theorem finish_varReg (s : State) : (finish s).varReg = s.varReg := rfl
@[simp] theorem finish_lreg (s : State) : (finish s).lreg = s.lreg := rfl
@[simp] theorem finish_k1reg (s : State) : (finish s).k1reg = s.k1reg := rfl
@[simp] theorem finish_k2reg (s : State) : (finish s).k2reg = s.k2reg := rfl
@[simp] theorem finish_buf (s : State) : (finish s).buf = [] := rfl
@[simp] theorem finish_chain (s : State) : (finish s).chain = Config.aesEncrypt s.key (s.chain ^^^ s.lastBlock) := rfl
@[simp] theorem finish_tag (s : State) : (finish s).tag = Config.aesEncrypt s.key (s.chain ^^^ s.lastBlock) := rfl
@[simp] theorem finish_err (s : State) : (finish s).err = s.err := rfl
@[simp] theorem finish_eq (s : State) : (finish s).eq = s.eq := rfl
@[simp] theorem finish_errs (s : State) : (finish s).errs = s.errs := rfl
@[simp] theorem finish_pending (s : State) : (finish s).pending = s.pending := rfl
@[simp] theorem finish_response (s : State) : (finish s).response = s.response := rfl
@[simp] theorem finish_aesCalls (s : State) : (finish s).aesCalls = ⟨s.key, s.chain ^^^ s.lastBlock⟩ :: s.aesCalls := rfl

/-! ## What the derived views depend on -/

@[simp] theorem report_key (s : State) (q : Bool) (e : Option CmdError) : (report s q e).key = s.key := rfl

@[simp] theorem respond_key (s : State) (r : Response) : (s.respond r).key = s.key := rfl

@[simp] theorem callAes_key (s : State) (b : Block) : (s.callAes b).key = s.key := rfl

@[simp] theorem cbcStep_key (s : State) (m : Block) : (s.cbcStep m).key = s.key := rfl

@[simp] theorem generateSubkeys_key (s : State) : (s.generateSubkeys).key = s.key := rfl

@[simp] theorem startContext_key (s : State) : (s.startContext).key = s.key := rfl

@[simp] theorem finish_key (s : State) : (finish s).key = s.key := rfl

@[simp] theorem report_tlen (s : State) (q : Bool) (e : Option CmdError) : (report s q e).tlen = s.tlen := rfl

@[simp] theorem report_tout (s : State) (q : Bool) (e : Option CmdError) : (report s q e).tout = s.tout := rfl

@[simp] theorem respond_tlen (s : State) (r : Response) : (s.respond r).tlen = s.tlen := rfl

@[simp] theorem respond_tout (s : State) (r : Response) : (s.respond r).tout = s.tout := rfl

@[simp] theorem callAes_tlen (s : State) (b : Block) : (s.callAes b).tlen = s.tlen := rfl

@[simp] theorem callAes_tout (s : State) (b : Block) : (s.callAes b).tout = s.tout := rfl

@[simp] theorem cbcStep_tlen (s : State) (m : Block) : (s.cbcStep m).tlen = s.tlen := rfl

@[simp] theorem cbcStep_tout (s : State) (m : Block) : (s.cbcStep m).tout = s.tout := rfl

@[simp] theorem generateSubkeys_tlen (s : State) : (s.generateSubkeys).tlen = s.tlen := rfl

@[simp] theorem generateSubkeys_tout (s : State) : (s.generateSubkeys).tout = s.tout := rfl

/-! ## The bodies run in terms of the stored key -/

theorem aes_eq (s : State) (b : Block) : s.aes b = Config.aesEncrypt s.key b := rfl

/-- The context is exactly its ten fields. -/
theorem context_eq_iff (s t : State) :
    s.context = t.context ↔ s.mode = t.mode ∧ s.kreg = t.kreg ∧ s.klenReg = t.klenReg ∧ s.varReg = t.varReg ∧
      s.lreg = t.lreg ∧ s.k1reg = t.k1reg ∧ s.k2reg = t.k2reg ∧ s.buf = t.buf ∧ s.chain = t.chain ∧ s.tag = t.tag := by
  simp [State.context]

/-- Two states with the same context, windows, report and interfaces are equal. -/
theorem State.ext_fields {s t : State} (hw : s.din = t.din ∧ s.keyw = t.keyw ∧ s.cand = t.cand ∧ s.dout = t.dout)
    (hc : s.context = t.context) (hr : s.err = t.err ∧ s.eq = t.eq ∧ s.errs = t.errs)
    (hi : s.pending = t.pending ∧ s.response = t.response ∧ s.aesCalls = t.aesCalls) : s = t := by
  rw [context_eq_iff] at hc
  cases s
  cases t
  simp_all

end Sys2Proof.Machine
end

