-- ==== Sys2Proof/Laws/Ops.lean ====
section
/-! SUPPORT. One lemma for each shared operation of Machine/Ops.lean, saying what it can do: the doubler, INIT's body, the
absorb step, the last block, the bodies of UPDATE and FINAL, the comparator. -/

namespace Sys2Proof.Machine

/-! ## The doubler -/

/-- Bit `i` of a doubled block (R80): the bit below it, and RB's bits when the top bit was set. -/
theorem dbl_getLsbD (x : Block) (i : Nat) (hi : i < 128) :
    (dbl x).getLsbD i =
      ((decide (0 < i) && x.getLsbD (i - 1)) ^^ (x.getLsbD 127 && (0x87#128).getLsbD i)) := by
  unfold dbl
  have hs : (x <<< 1).getLsbD i = (decide (0 < i) && x.getLsbD (i - 1)) := by
    rw [BitVec.getLsbD_shiftLeft]
    by_cases h0 : i = 0
    · simp [h0]
    · have h1 : ¬ i < 1 := by omega
      have h2 : 0 < i := by omega
      simp [hi, h1, h2]
  by_cases h : x.getLsbD 127 = true
  · simp [h, hs]
  · simp only [h, Bool.false_eq_true, if_false, hs]
    simp

/-! ## INIT -/

theorem validKeyLength_iff (n : Nat) : validKeyLength n = true ↔ n = 16 ∨ n = 24 ∨ n = 32 := by
  simp [validKeyLength, or_assoc]

theorem validKeyLength_le {n : Nat} (h : validKeyLength n = true) : n ≤ 32 := by
  rcases (validKeyLength_iff n).1 h with h | h | h <;> omega

/-- After INIT has copied the key, `k` is `KEYW[0..klen)` (R85). -/
theorem loadKey_key {klen : Nat} (h : klen ≤ 32) (var : Variant) (s : State) :
    (s.loadKey klen var).key = (bytesOf 32 s.keyw).take klen := by
  simp only [State.key, loadKey_kreg, loadKey_klenReg]
  exact take_bytesOf_keepFirst rfl h s.keyw

/-- INIT's body succeeds exactly on the legal key lengths (R85). -/
theorem initBody_cases (klen : Nat) (var : Variant) (s : State) :
    (validKeyLength klen = true ∧
        initBody klen var s = .ok ((s.loadKey klen var).generateSubkeys.startContext)) ∨
      (validKeyLength klen = false ∧ initBody klen var s = .error .invalidKeyLength) := by
  by_cases h : validKeyLength klen = true
  · exact .inl ⟨h, by simp [initBody, h]⟩
  · exact .inr ⟨by simpa using h, by simp [initBody, h]⟩

/-! ## The absorb step -/

/-- What `absorbLoop` may change: BUF, CHAIN and the calls at the AES port. -/
theorem absorbLoop_frame (fuel : Nat) (staged : List Byte) (s : State) :
    absorbLoop fuel staged s =
      { s with
        buf := (absorbLoop fuel staged s).buf
        chain := (absorbLoop fuel staged s).chain
        aesCalls := (absorbLoop fuel staged s).aesCalls } := by
  induction fuel generalizing staged s with
  | zero => rfl
  | succ fuel ih =>
    by_cases h : 16 < staged.length
    · simp only [absorbLoop, h, if_true]
      rw [ih]
      rfl
    · simp only [absorbLoop, h, if_false]

/-- What `absorb` may change: BUF, CHAIN and the calls at the AES port (R100). -/
theorem absorb_frame (d : List Byte) (s : State) :
    absorb d s =
      { s with
        buf := (absorb d s).buf
        chain := (absorb d s).chain
        aesCalls := (absorb d s).aesCalls } :=
  absorbLoop_frame _ _ s

@[simp] theorem absorb_mode (d : List Byte) (s : State) : (absorb d s).mode = s.mode := by rw [absorb_frame]

@[simp] theorem absorb_din (d : List Byte) (s : State) : (absorb d s).din = s.din := by rw [absorb_frame]

@[simp] theorem absorb_keyw (d : List Byte) (s : State) : (absorb d s).keyw = s.keyw := by rw [absorb_frame]

@[simp] theorem absorb_cand (d : List Byte) (s : State) : (absorb d s).cand = s.cand := by rw [absorb_frame]

@[simp] theorem absorb_dout (d : List Byte) (s : State) : (absorb d s).dout = s.dout := by rw [absorb_frame]

@[simp] theorem absorb_err (d : List Byte) (s : State) : (absorb d s).err = s.err := by rw [absorb_frame]

@[simp] theorem absorb_eq (d : List Byte) (s : State) : (absorb d s).eq = s.eq := by rw [absorb_frame]

@[simp] theorem absorb_errs (d : List Byte) (s : State) : (absorb d s).errs = s.errs := by rw [absorb_frame]

@[simp] theorem absorb_pending (d : List Byte) (s : State) : (absorb d s).pending = s.pending := by rw [absorb_frame]

@[simp] theorem absorb_response (d : List Byte) (s : State) : (absorb d s).response = s.response := by rw [absorb_frame]

@[simp] theorem absorb_tag (d : List Byte) (s : State) : (absorb d s).tag = s.tag := by rw [absorb_frame]

@[simp] theorem absorb_lreg (d : List Byte) (s : State) : (absorb d s).lreg = s.lreg := by rw [absorb_frame]

@[simp] theorem absorb_k1reg (d : List Byte) (s : State) : (absorb d s).k1reg = s.k1reg := by rw [absorb_frame]

@[simp] theorem absorb_k2reg (d : List Byte) (s : State) : (absorb d s).k2reg = s.k2reg := by rw [absorb_frame]

@[simp] theorem absorb_klenReg (d : List Byte) (s : State) : (absorb d s).klenReg = s.klenReg := by rw [absorb_frame]

@[simp] theorem absorb_kreg (d : List Byte) (s : State) : (absorb d s).kreg = s.kreg := by rw [absorb_frame]

@[simp] theorem absorb_varReg (d : List Byte) (s : State) : (absorb d s).varReg = s.varReg := by rw [absorb_frame]

@[simp] theorem absorb_key (d : List Byte) (s : State) : (absorb d s).key = s.key := by
  simp [State.key]

/-- A chunk that fits is appended and nothing is encrypted (R101). -/
theorem absorb_short {d : List Byte} {s : State} (h : (s.buf ++ d).length ≤ 16) :
    absorb d s = { s with buf := s.buf ++ d } := by
  unfold absorb
  have h' : ¬ 16 < (s.buf ++ d).length := by omega
  cases hf : (s.buf ++ d).length with
  | zero => rfl
  | succ n =>
    rw [absorbLoop]
    simp only [h', if_false]

/-- A chunk that does not fit makes one CBC step over the first 16 staged bytes; the rest is kept (R101). -/
theorem absorb_long {d : List Byte} {s : State} (h : 16 < (s.buf ++ d).length) (h' : (s.buf ++ d).length ≤ 32) :
    absorb d s =
      { s.cbcStep (blockOf ((s.buf ++ d).take 16)) with buf := (s.buf ++ d).drop 16 } := by
  unfold absorb
  obtain ⟨n, hn⟩ : ∃ n, (s.buf ++ d).length = n + 2 := ⟨(s.buf ++ d).length - 2, by omega⟩
  rw [hn, absorbLoop]
  have hd : ¬ 16 < ((s.buf ++ d).drop 16).length := by rw [List.length_drop]; omega
  simp only [h, if_true]
  rw [absorbLoop]
  simp only [hd, if_false]

theorem absorbLoop_buf_length (fuel : Nat) (staged : List Byte) (s : State) (h : staged.length ≤ fuel + 16) :
    (absorbLoop fuel staged s).buf.length ≤ 16 ∧ (staged ≠ [] → (absorbLoop fuel staged s).buf ≠ []) := by
  induction fuel generalizing staged s with
  | zero => exact ⟨by simpa [absorbLoop] using h, by simp [absorbLoop]⟩
  | succ fuel ih =>
    by_cases hl : 16 < staged.length
    · have hd : (staged.drop 16).length ≤ fuel + 16 := by rw [List.length_drop]; omega
      have hne : staged.drop 16 ≠ [] := by
        intro hnil
        have := congrArg List.length hnil
        rw [List.length_drop, List.length_nil] at this
        omega
      simp only [absorbLoop, hl, if_true]
      exact ⟨(ih _ _ hd).1, fun _ => (ih _ _ hd).2 hne⟩
    · simp only [absorbLoop, hl, if_false]
      exact ⟨by omega, id⟩

/-- After an absorb the buffer holds 1..16 bytes, or none when nothing was staged (R100). -/
theorem absorb_buf_length (d : List Byte) (s : State) :
    (absorb d s).buf.length ≤ 16 ∧ (s.buf ++ d ≠ [] → (absorb d s).buf ≠ []) :=
  absorbLoop_buf_length _ _ _ (by omega)

/-! ## The bus response stands aside: no command reads it -/

@[simp] theorem respond_lastBlock (s : State) (r : Response) : (s.respond r).lastBlock = s.lastBlock := rfl

@[simp] theorem respond_dinSlice (s : State) (r : Response) (n : Nat) : (s.respond r).dinSlice n = s.dinSlice n := rfl

@[simp] theorem respond_candSlice (s : State) (r : Response) (n : Nat) : (s.respond r).candSlice n = s.candSlice n := rfl

@[simp] theorem respond_tagBytes (s : State) (r : Response) : (s.respond r).tagBytes = s.tagBytes := rfl

theorem report_respond (s : State) (r : Response) (q : Bool) (e : Option CmdError) :
    report (s.respond r) q e = (report s q e).respond r := rfl

theorem finish_respond (s : State) (r : Response) : finish (s.respond r) = (finish s).respond r := rfl

theorem absorbLoop_respond (fuel : Nat) (staged : List Byte) (s : State) (r : Response) :
    absorbLoop fuel staged (s.respond r) = (absorbLoop fuel staged s).respond r := by
  induction fuel generalizing staged s with
  | zero => rfl
  | succ fuel ih =>
    by_cases h : 16 < staged.length
    · simp only [absorbLoop, h, if_true]
      exact ih (staged.drop 16) (s.cbcStep (blockOf (staged.take 16)))
    · simp only [absorbLoop, h, if_false]
      rfl

theorem absorb_respond (d : List Byte) (s : State) (r : Response) :
    absorb d (s.respond r) = (absorb d s).respond r := absorbLoop_respond _ _ s r

/-! ## UPDATE and FINAL -/

/-- Everything UPDATE's body can answer (R110, R163). -/
theorem updateBody_cases (len : Nat) (s : State) :
    (s.mode = .unkeyed ∧ updateBody len s = .error .notKeyed) ∨
      (s.mode ≠ .unkeyed ∧ len = 0 ∧ updateBody len s = .ok s) ∨
      (s.mode = .active ∧ len ≠ 0 ∧ updateBody len s = .ok (absorb (s.dinSlice len) s)) ∨
      (s.mode = .finalized ∧ len ≠ 0 ∧ updateBody len s = .error .alreadyFinalized) := by
  by_cases h : len = 0 <;> cases hm : s.mode <;> simp [updateBody, hm, h]

/-- Everything FINAL's body can answer (R111, R163). -/
theorem finalBody_cases (len : Nat) (s : State) :
    (s.mode = .unkeyed ∧ finalBody len s = .error .notKeyed) ∨
      (s.mode = .finalized ∧ len = 0 ∧ finalBody len s = .ok s) ∨
      (s.mode = .finalized ∧ len ≠ 0 ∧ finalBody len s = .error .alreadyFinalized) ∨
      (s.mode = .active ∧ len = 0 ∧ finalBody len s = .ok (finish s)) ∨
      (s.mode = .active ∧ len ≠ 0 ∧ finalBody len s = .ok (finish (absorb (s.dinSlice len) s))) := by
  by_cases h : len = 0 <;> cases hm : s.mode <;> simp [finalBody, hm, h, Nat.pos_iff_ne_zero]

/-- In FINALIZED or after a success of FINAL's body the mode is FINALIZED (R111). -/
theorem finalBody_ok_mode {len : Nat} {s s' : State} (h : finalBody len s = .ok s') : s'.mode = .finalized := by
  rcases finalBody_cases len s with ⟨_, e⟩ | ⟨hm, _, e⟩ | ⟨_, _, e⟩ | ⟨_, _, e⟩ | ⟨_, _, e⟩ <;> rw [e] at h <;>
    simp only [Except.ok.injEq, reduceCtorEq] at h <;> subst h
  · exact hm
  · rfl
  · rfl

theorem finalBody_respond (len : Nat) (s : State) (r : Response) :
    finalBody len (s.respond r) = (finalBody len s).map fun s' => s'.respond r := by
  by_cases h : len = 0 <;> cases hm : s.mode <;>
    simp [finalBody, hm, h, Nat.pos_iff_ne_zero, finish_respond, absorb_respond, Except.map]

theorem updateBody_respond (len : Nat) (s : State) (r : Response) :
    updateBody len (s.respond r) = (updateBody len s).map fun s' => s'.respond r := by
  by_cases h : len = 0 <;> cases hm : s.mode <;> simp [updateBody, hm, h, absorb_respond, Except.map]

/-- What a success of FINAL's body leaves alone: everything but MODE, BUF, CHAIN, TAG and the AES port (R111). -/
theorem finalBody_frame {len : Nat} {s s' : State} (h : finalBody len s = .ok s') :
    s' = { s with mode := s'.mode, buf := s'.buf, chain := s'.chain, tag := s'.tag, aesCalls := s'.aesCalls } := by
  rcases finalBody_cases len s with ⟨_, e⟩ | ⟨hm, _, e⟩ | ⟨_, _, e⟩ | ⟨_, _, e⟩ | ⟨_, _, e⟩ <;> rw [e] at h <;>
    simp only [Except.ok.injEq, reduceCtorEq] at h <;> subst h
  · rfl
  · rfl
  · rw [absorb_frame]
    rfl

/-- What a success of UPDATE's body leaves alone: everything but BUF, CHAIN and the AES port (R110). -/
theorem updateBody_frame {len : Nat} {s s' : State} (h : updateBody len s = .ok s') :
    s' = { s with buf := s'.buf, chain := s'.chain, aesCalls := s'.aesCalls } := by
  rcases updateBody_cases len s with ⟨_, e⟩ | ⟨_, _, e⟩ | ⟨_, _, e⟩ | ⟨_, _, e⟩ <;> rw [e] at h <;>
    simp only [Except.ok.injEq, reduceCtorEq] at h <;> subst h
  · rfl
  · exact absorb_frame _ _

/-! ## The comparator -/

theorem foldl_or_eq_zero_iff (l : List Byte) (a : Byte) :
    l.foldl (· ||| ·) a = 0#8 ↔ a = 0#8 ∧ ∀ x ∈ l, x = 0#8 := by
  induction l generalizing a with
  | nil => simp
  | cons b l ih =>
    rw [List.foldl_cons, ih]
    have : a ||| b = 0#8 ↔ a = 0#8 ∧ b = 0#8 := BitVec.or_eq_zero_iff
    simp [this, and_assoc]

/-- The accumulated difference of two sequences of one length is 0 exactly when they are equal (R150). -/
theorem diffBits_eq_zero_iff {a b : List Byte} (h : a.length = b.length) : diffBits a b = 0#8 ↔ a = b := by
  unfold diffBits
  rw [foldl_or_eq_zero_iff]
  induction a generalizing b with
  | nil =>
    cases b with
    | nil => simp
    | cons y b => simp at h
  | cons x a ih =>
    cases b with
    | nil => simp at h
    | cons y b =>
      have h' : a.length = b.length := by simpa using h
      have := ih h'
      simp only [true_and] at this
      simp [this]

end Sys2Proof.Machine
end

