-- ==== Sys2Proof/Laws/PerInstr.lean ====
section
/-! SUPPORT. One family of statements for all commands, proved constructor by constructor: the word of a well-formed
command selects the row of the opcode map that stands for it (R66). -/

namespace Sys2Proof.Laws.EncodesItsRow

/-- The word of a well-formed command has the row's fixed bits, and the row's OP in bits [7:0]. -/
def Statement (i : Instr) : Prop :=
  i.wellFormed = true →
    wordField (encode i) 0 8 = (opcodeRow i).opcode ∧ (opcodeRow i).selects (encode i) = true

theorem init (klen : Nat) (var : Variant) : Statement (.init klen var) := by
  intro h
  have hk : klen < 64 := by simpa [Instr.wellFormed, Nat.lt_succ_iff] using h
  refine ⟨wordField_enc_op (by simp [Instr.opcode]) (by decide) hk (variant_bit_lt var), ?_⟩
  have key : ∀ k : Fin 64, ∀ b : Fin 2, (opcodeRow (.init 0 .cmac)).selects (enc 0x01 0 k b) = true := by decide
  exact key ⟨klen, hk⟩ ⟨var.bit.toNat, variant_bit_lt var⟩

theorem update (len : Nat) : Statement (.update len) := by
  intro h
  have hl : len < 17 := by simpa [Instr.wellFormed, Nat.lt_succ_iff] using h
  refine ⟨wordField_enc_op (by simp [Instr.opcode]) (by omega) (by decide) (by decide), ?_⟩
  have key : ∀ k : Fin 17, (opcodeRow (.update 0)).selects (enc 0x02 k 0 0) = true := by decide
  exact key ⟨len, hl⟩

theorem final (len : Nat) : Statement (.final len) := by
  intro h
  have hl : len < 17 := by simpa [Instr.wellFormed, Nat.lt_succ_iff] using h
  refine ⟨wordField_enc_op (by simp [Instr.opcode]) (by omega) (by decide) (by decide), ?_⟩
  have key : ∀ k : Fin 17, (opcodeRow (.final 0)).selects (enc 0x03 k 0 0) = true := by decide
  exact key ⟨len, hl⟩

theorem verify (len clen : Nat) : Statement (.verify len clen) := by
  intro h
  obtain ⟨hl, hc⟩ : len < 17 ∧ clen < 17 := by simpa [Instr.wellFormed, Nat.lt_succ_iff] using h
  refine ⟨wordField_enc_op (by simp [Instr.opcode]) (by omega) (by omega) (by decide), ?_⟩
  have key : ∀ k c : Fin 17, (opcodeRow (.verify 0 0)).selects (enc 0x04 k c 0) = true := by decide
  exact key ⟨len, hl⟩ ⟨clen, hc⟩

theorem cteq (len clen : Nat) : Statement (.cteq len clen) := by
  intro h
  obtain ⟨hl, hc⟩ : len < 17 ∧ clen < 17 := by simpa [Instr.wellFormed, Nat.lt_succ_iff] using h
  refine ⟨wordField_enc_op (by simp [Instr.opcode]) (by omega) (by omega) (by decide), ?_⟩
  have key : ∀ k c : Fin 17, (opcodeRow (.cteq 0 0)).selects (enc 0x05 k c 0) = true := by decide
  exact key ⟨len, hl⟩ ⟨clen, hc⟩

theorem double : Statement .double := by
  intro _
  exact ⟨wordField_enc_op (by simp [Instr.opcode]) (by decide) (by decide) (by decide), by decide⟩

end Sys2Proof.Laws.EncodesItsRow
end

