-- ==== Sys2Proof/Laws/Step.lean ====
section
/-! SUPPORT. What the commands, the bus and the step can do, said once: every command answers a next state (`exec_eq`), a
transaction is one of a few cases (`busAccess_cases`), a step is one input (`step_cases`). -/

namespace Sys2Proof.Machine

/-! ## Commands -/

/-- The state a command leaves: every command completes with a next state (R20, R165). -/
def execState (i : Instr) (s : State) : State :=
  match i with
  | .init klen var => conclude s (initBody klen var s)
  | .update len => conclude s (updateBody len s)
  | .final len => conclude s (finalBody len s)
  | .verify len clen =>
    match finalBody len s with
    | .ok s' => compareTag clen s'
    | .error e => conclude s (.error e)
  | .cteq len clen => report s (ctEqual (s.dinSlice len) (s.candSlice clen)) none
  | .double => report { s with dout := dbl s.din } false none

theorem exec_eq (i : Instr) (s : State) : exec i s = .next (execState i s) := by
  cases i with
  | init klen var => rfl
  | update len => rfl
  | final len => rfl
  | verify len clen =>
    simp only [exec, execVerify, execState]
    cases finalBody len s <;> rfl
  | cteq len clen => rfl
  | double => rfl

theorem exec_next_iff {i : Instr} {s t : State} : exec i s = .next t ↔ t = execState i s := by
  rw [exec_eq]
  simp [eq_comm]

@[simp] theorem conclude_ok (s s' : State) : conclude s (.ok s') = report s' false none := rfl

@[simp] theorem conclude_error (s : State) (e : CmdError) : conclude s (.error e) = report s false (some e) := rfl

@[simp] theorem illegalCommand_eq (s : State) : illegalCommand s = report s false (some .illegalCommand) := rfl

/-- Every code of an error is nonzero and at most 5 (R160). -/
theorem code_bounds (e : CmdError) : e.code ≠ 0#4 ∧ e.code.toNat ≤ 5 := by cases e <;> decide

theorem codeOf_eq_zero_iff (e : Option CmdError) : codeOf e = 0#4 ↔ e = none := by
  cases e with
  | none => simp [codeOf]
  | some e => simp [codeOf, (code_bounds e).1]

theorem codeOf_le (e : Option CmdError) : (codeOf e).toNat ≤ 5 := by
  cases e with
  | none => decide
  | some e => exact (code_bounds e).2

/-- Everything a command can do (R14, R161, R162): INIT's new context, an error that only reports, an absorbed chunk or
none, a final state of FINAL, the same compared by VERIFY, a comparison, or a doubled block. -/
theorem execState_cases (i : Instr) (s : State) :
    (∃ klen var, i = .init klen var ∧ validKeyLength klen = true ∧
      execState i s = report ((s.loadKey klen var).generateSubkeys.startContext) false none) ∨
    (∃ e, e ≠ .tagMismatch ∧ e ≠ .illegalCommand ∧ execState i s = report s false (some e)) ∨
    (∃ len, i = .update len ∧ len ≠ 0 ∧ s.mode = .active ∧
      execState i s = report (absorb (s.dinSlice len) s) false none) ∨
    (i = .update 0 ∧ s.mode ≠ .unkeyed ∧ execState i s = report s false none) ∨
    (∃ len s', i = .final len ∧ finalBody len s = .ok s' ∧ execState i s = report s' false none) ∨
    (∃ len clen s', i = .verify len clen ∧ finalBody len s = .ok s' ∧ execState i s = compareTag clen s') ∨
    (∃ len clen, i = .cteq len clen ∧
      execState i s = report s (ctEqual (s.dinSlice len) (s.candSlice clen)) none) ∨
    (i = .double ∧ execState i s = report { s with dout := dbl s.din } false none) := by
  have hfinal : ∀ len e, finalBody len s = .error e → e ≠ .tagMismatch ∧ e ≠ .illegalCommand := by
    intro len e h
    rcases finalBody_cases len s with ⟨_, h'⟩ | ⟨_, _, h'⟩ | ⟨_, _, h'⟩ | ⟨_, _, h'⟩ | ⟨_, _, h'⟩ <;> rw [h'] at h <;>
      cases h <;> simp
  cases i with
  | init klen var =>
    rcases initBody_cases klen var s with ⟨h, e⟩ | ⟨_, e⟩
    · exact .inl ⟨klen, var, rfl, h, by simp [execState, e]⟩
    · exact .inr (.inl ⟨.invalidKeyLength, by simp, by simp, by simp [execState, e]⟩)
  | update len =>
    rcases updateBody_cases len s with ⟨_, e⟩ | ⟨hm, rfl, e⟩ | ⟨hm, h, e⟩ | ⟨_, _, e⟩
    · exact .inr (.inl ⟨.notKeyed, by simp, by simp, by simp [execState, e]⟩)
    · exact .inr (.inr (.inr (.inl ⟨rfl, hm, by simp [execState, e]⟩)))
    · exact .inr (.inr (.inl ⟨len, rfl, h, hm, by simp [execState, e]⟩))
    · exact .inr (.inl ⟨.alreadyFinalized, by simp, by simp, by simp [execState, e]⟩)
  | final len =>
    cases h : finalBody len s with
    | ok s' => exact .inr (.inr (.inr (.inr (.inl ⟨len, s', rfl, h, by simp [execState, h]⟩))))
    | error e => exact .inr (.inl ⟨e, (hfinal len e h).1, (hfinal len e h).2, by simp [execState, h]⟩)
  | verify len clen =>
    cases h : finalBody len s with
    | ok s' => exact .inr (.inr (.inr (.inr (.inr (.inl ⟨len, clen, s', rfl, h, by simp [execState, h]⟩)))))
    | error e => exact .inr (.inl ⟨e, (hfinal len e h).1, (hfinal len e h).2, by simp [execState, h]⟩)
  | cteq len clen => exact .inr (.inr (.inr (.inr (.inr (.inr (.inl ⟨len, clen, rfl, rfl⟩))))))
  | double => exact .inr (.inr (.inr (.inr (.inr (.inr (.inr ⟨rfl, rfl⟩))))))

/-- No command reads the bus response, and every command leaves it alone. -/
theorem execState_respond (i : Instr) (s : State) (r : Response) :
    execState i (s.respond r) = (execState i s).respond r := by
  cases i with
  | init klen var =>
    by_cases h : validKeyLength klen = true
    · simp only [execState, initBody, h, if_true]
      rfl
    · simp only [execState, initBody, h]
      rfl
  | update len =>
    simp only [execState, updateBody_respond]
    cases updateBody len s <;> rfl
  | final len =>
    simp only [execState, finalBody_respond]
    cases finalBody len s <;> rfl
  | verify len clen =>
    simp only [execState, finalBody_respond]
    cases finalBody len s <;> rfl
  | cteq len clen => rfl
  | double => rfl

/-- The state a CMD write leaves: the command's, or the report of an illegal word (R60, R162). -/
def commandState (w : Word) (s : State) : State :=
  match decode w with
  | .ok i => execState i s
  | .error _ => illegalCommand s

theorem runCommand_eq (w : Word) (s : State) : runCommand w s = .next (commandState w s) := by
  unfold runCommand commandState
  cases decode w with
  | ok i => exact exec_eq i s
  | error e => rfl

/-! ## The bus -/

/-- A read answers the word and changes nothing else, or is a bus error (R44, R46). -/
theorem busAccess_read (off : BitVec 8) (width : Nat) (s : State) :
    (∃ w, busRead off width s = .ok w ∧ busAccess (.read off width) s = .next (s.respond (.data w))) ∨
      (∃ e, busRead off width s = .error e ∧ busAccess (.read off width) s = .fault (.busError e)) := by
  cases h : busRead off width s with
  | ok w => exact .inl ⟨w, rfl, by simp [busAccess, h]⟩
  | error e => exact .inr ⟨e, rfl, by simp [busAccess, h]⟩

/-- A write runs a command, writes one window word, or is a bus error (R45, R46). -/
theorem busAccess_write (off : BitVec 8) (width : Nat) (w : Word) (s : State) :
    (selectPort off width = .ok .cmd ∧
        busAccess (.write off width w) s = .next (commandState w (s.respond .written))) ∨
      (∃ j, selectPort off width = .ok (.din j) ∧
        busAccess (.write off width w) s = .next { s.respond .written with din := setWordAt 16 s.din j w }) ∨
      (∃ j, selectPort off width = .ok (.keyw j) ∧
        busAccess (.write off width w) s = .next { s.respond .written with keyw := setWordAt 32 s.keyw j w }) ∨
      (∃ j, selectPort off width = .ok (.cand j) ∧
        busAccess (.write off width w) s = .next { s.respond .written with cand := setWordAt 16 s.cand j w }) ∨
      (∃ e, busAccess (.write off width w) s = .fault (.busError e)) := by
  cases h : selectPort off width with
  | error e => exact .inr (.inr (.inr (.inr ⟨e, by simp [busAccess, h]⟩)))
  | ok p =>
    cases p with
    | cmd => exact .inl ⟨rfl, by simp only [busAccess, h, writePort, runCommand_eq]⟩
    | din j => exact .inr (.inl ⟨j, rfl, by simp only [busAccess, h, writePort]; rfl⟩)
    | keyw j => exact .inr (.inr (.inl ⟨j, rfl, by simp only [busAccess, h, writePort]; rfl⟩))
    | cand j => exact .inr (.inr (.inr (.inl ⟨j, rfl, by simp only [busAccess, h, writePort]; rfl⟩)))
    | status => exact .inr (.inr (.inr (.inr ⟨.notWritable, by simp only [busAccess, h, writePort]⟩)))
    | tout j => exact .inr (.inr (.inr (.inr ⟨.notWritable, by simp only [busAccess, h, writePort]⟩)))
    | dout j => exact .inr (.inr (.inr (.inr ⟨.notWritable, by simp only [busAccess, h, writePort]⟩)))

/-- A transaction answers a next state exactly when it is legal (R43 to R46). -/
theorem busAccess_next_iff (a : Access) (s : State) : (∃ t, busAccess a s = .next t) ↔ accessLegal a = true := by
  cases a with
  | read off width =>
    cases h : selectPort off width with
    | error e => simp [busAccess, busRead, accessLegal, h]
    | ok p => cases p <;> simp [busAccess, busRead, readPort, accessLegal, h]
  | write off width w =>
    cases h : selectPort off width with
    | error e => simp [busAccess, accessLegal, h]
    | ok p => cases p <;> simp [busAccess, writePort, accessLegal, h, runCommand_eq]

/-- A transaction never answers a refusal: it answers a next state or a bus error (R46). -/
theorem busAccess_cases (a : Access) (s : State) :
    (∃ t, busAccess a s = .next t) ∨ (∃ e, busAccess a s = .fault (.busError e)) := by
  cases a with
  | read off width =>
    rcases busAccess_read off width s with ⟨w, _, h⟩ | ⟨e, _, h⟩
    · exact .inl ⟨_, h⟩
    · exact .inr ⟨_, h⟩
  | write off width w =>
    rcases busAccess_write off width w s with ⟨_, h⟩ | ⟨_, _, h⟩ | ⟨_, _, h⟩ | ⟨_, _, h⟩ | ⟨e, h⟩
    · exact .inl ⟨_, h⟩
    · exact .inl ⟨_, h⟩
    · exact .inl ⟨_, h⟩
    · exact .inl ⟨_, h⟩
    · exact .inr ⟨_, h⟩

/-! ## The map -/

theorem portAt_window {base size j : Nat} {mk : Nat → Port} (hj : j < size) (off : Nat) (ho : off = base + 4 * j)
    (h : (base = 0x010 ∧ size = 4 ∧ mk = .din) ∨ (base = 0x020 ∧ size = 8 ∧ mk = .keyw) ∨
      (base = 0x040 ∧ size = 4 ∧ mk = .cand) ∨ (base = 0x050 ∧ size = 4 ∧ mk = .tout) ∨
      (base = 0x060 ∧ size = 4 ∧ mk = .dout)) : portAt off = some (mk j) := by
  subst ho
  rcases h with ⟨rfl, rfl, rfl⟩ | ⟨rfl, rfl, rfl⟩ | ⟨rfl, rfl, rfl⟩ | ⟨rfl, rfl, rfl⟩ | ⟨rfl, rfl, rfl⟩ <;>
    · have e : ∀ b : Nat, (b + 4 * j - b) / 4 = j := by omega
      unfold portAt
      split_ifs <;> first | omega | (rw [e])

/-- The port of a word of a window (R41). -/
theorem selectPort_window {base size j : Nat} {mk : Nat → Port} (hj : j < size)
    (h : (base = 0x010 ∧ size = 4 ∧ mk = .din) ∨ (base = 0x020 ∧ size = 8 ∧ mk = .keyw) ∨
      (base = 0x040 ∧ size = 4 ∧ mk = .cand) ∨ (base = 0x050 ∧ size = 4 ∧ mk = .tout) ∨
      (base = 0x060 ∧ size = 4 ∧ mk = .dout)) : selectPort (BitVec.ofNat 8 (base + 4 * j)) 32 = .ok (mk j) := by
  have hlt : base + 4 * j < 256 := by
    rcases h with ⟨rfl, rfl, _⟩ | ⟨rfl, rfl, _⟩ | ⟨rfl, rfl, _⟩ | ⟨rfl, rfl, _⟩ | ⟨rfl, rfl, _⟩ <;> omega
  have hn : (BitVec.ofNat 8 (base + 4 * j)).toNat = base + 4 * j := by
    rw [BitVec.toNat_ofNat]
    omega
  have hm : (base + 4 * j) % 4 = 0 := by
    rcases h with ⟨rfl, _, _⟩ | ⟨rfl, _, _⟩ | ⟨rfl, _, _⟩ | ⟨rfl, _, _⟩ | ⟨rfl, _, _⟩ <;> omega
  simp [selectPort, hn, hm, portAt_window hj _ rfl h]

/-- Only offset 0 is CMD (R41). -/
theorem selectPort_cmd_iff (off : BitVec 8) (width : Nat) :
    selectPort off width = .ok .cmd ↔ off = 0x00#8 ∧ width = 32 := by
  constructor
  · intro h
    unfold selectPort at h
    split_ifs at h with h1 h2
    simp only [ne_eq, Decidable.not_not] at h2
    refine ⟨?_, h2⟩
    by_cases h0 : off.toNat = 0
    · exact BitVec.eq_of_toNat_eq h0
    · unfold portAt at h
      simp only [h0, if_false] at h
      split_ifs at h <;> simp at h
  · rintro ⟨rfl, rfl⟩
    rfl

/-- Every mapped access is 32 bits wide (R43). -/
theorem selectPort_width {off : BitVec 8} {width : Nat} {p : Port} (h : selectPort off width = .ok p) : width = 32 := by
  unfold selectPort at h
  split_ifs at h with h1 h2
  simpa using h2

/-- A mapped word of a writable window is at that window's offset, four bytes a word (R41). -/
theorem selectPort_window_offset {off : BitVec 8} {width base size j : Nat} {mk : Nat → Port}
    (h : selectPort off width = .ok (mk j))
    (hw : (base = 0x010 ∧ size = 4 ∧ mk = .din) ∨ (base = 0x020 ∧ size = 8 ∧ mk = .keyw) ∨
      (base = 0x040 ∧ size = 4 ∧ mk = .cand)) : width = 32 ∧ j < size ∧ off.toNat = base + 4 * j := by
  have h32 := selectPort_width h
  subst h32
  have hal : off.toNat % 4 = 0 := by
    by_contra ha
    unfold selectPort at h
    rw [if_pos ha] at h
    cases h
  have hp : portAt off.toNat = some (mk j) := by
    unfold selectPort at h
    rw [if_neg (by omega), if_neg (by simp)] at h
    split at h
    · next p hp => cases h; exact hp
    · cases h
  clear h
  refine ⟨rfl, ?_⟩
  generalize off.toNat = o at *
  unfold portAt at hp
  rcases hw with ⟨rfl, rfl, rfl⟩ | ⟨rfl, rfl, rfl⟩ | ⟨rfl, rfl, rfl⟩ <;>
  · repeat' split at hp
    all_goals first
      | (simp only [Option.some.injEq, Port.din.injEq, Port.keyw.injEq, Port.cand.injEq] at hp; omega)
      | cases hp

/-! ## The step -/

/-- Everything a step can do (R20, R49, R181): nothing, a reset, or one transaction. -/
theorem step_cases (s : State) :
    (s.pending = [] ∧ step s = .next s) ∨
      (∃ cut rest, s.pending = .reset cut :: rest ∧ step s = .next (takeReset cut rest)) ∨
      (∃ a rest, s.pending = .access a :: rest ∧ step s = busAccess a { s with pending := rest }) := by
  unfold step stepInput
  cases h : s.pending with
  | nil => exact .inl ⟨rfl, rfl⟩
  | cons i rest =>
    cases i with
    | access a => exact .inr (.inr ⟨a, rest, rfl, rfl⟩)
    | reset cut => exact .inr (.inl ⟨cut, rest, rfl, rfl⟩)

/-- A CMD write at the head of the inputs (R45). -/
theorem step_cmd {s : State} {w : Word} {rest : List Input}
    (h : s.pending = .access (.write 0x00#8 32 w) :: rest) :
    step s = runCommand w ({ s with pending := rest }.respond .written) := by
  unfold step stepInput
  rw [h]
  rfl

/-- The state in which the head of the inputs has been taken and answered. -/
def State.taking (s : State) (rest : List Input) (r : Response) : State := { s with pending := rest }.respond r

/-- Everything a step that answers a next state can do: nothing, a reset, a read, a command, or a window write. -/
theorem step_next_cases {s t : State} (h : step s = .next t) :
    (s.pending = [] ∧ t = s) ∨
    (∃ cut rest, s.pending = .reset cut :: rest ∧ t = takeReset cut rest) ∨
    (∃ off width rest w, s.pending = .access (.read off width) :: rest ∧ t = s.taking rest (.data w)) ∨
    (∃ rest w, s.pending = .access (.write 0x00#8 32 w) :: rest ∧ t = commandState w (s.taking rest .written)) ∨
    (∃ off rest w j, s.pending = .access (.write off 32 w) :: rest ∧
      (t = { s.taking rest .written with din := setWordAt 16 s.din j w } ∨
        t = { s.taking rest .written with keyw := setWordAt 32 s.keyw j w } ∨
        t = { s.taking rest .written with cand := setWordAt 16 s.cand j w })) := by
  rcases step_cases s with ⟨hp, hs⟩ | ⟨cut, rest, hp, hs⟩ | ⟨a, rest, hp, hs⟩ <;> rw [hs] at h
  · cases h
    exact .inl ⟨hp, rfl⟩
  · cases h
    exact .inr (.inl ⟨cut, rest, hp, rfl⟩)
  · cases a with
    | read off width =>
      rcases busAccess_read off width { s with pending := rest } with ⟨w, _, hb⟩ | ⟨e, _, hb⟩ <;> rw [hb] at h <;>
        cases h
      exact .inr (.inr (.inl ⟨off, width, rest, w, hp, rfl⟩))
    | write off width w =>
      rcases busAccess_write off width w { s with pending := rest } with
        ⟨hc, hb⟩ | ⟨j, hc, hb⟩ | ⟨j, hc, hb⟩ | ⟨j, hc, hb⟩ | ⟨e, hb⟩ <;> rw [hb] at h <;> cases h
      · obtain ⟨rfl, rfl⟩ := (selectPort_cmd_iff off width).1 hc
        exact .inr (.inr (.inr (.inl ⟨rest, w, hp, rfl⟩)))
      · obtain rfl := selectPort_width hc
        exact .inr (.inr (.inr (.inr ⟨off, rest, w, j, hp, .inl rfl⟩)))
      · obtain rfl := selectPort_width hc
        exact .inr (.inr (.inr (.inr ⟨off, rest, w, j, hp, .inr (.inl rfl)⟩)))
      · obtain rfl := selectPort_width hc
        exact .inr (.inr (.inr (.inr ⟨off, rest, w, j, hp, .inr (.inr rfl)⟩)))

end Sys2Proof.Machine
end

