-- ==== Sys2Proof/Laws/Procedures.lean ====
section
/-! SUPPORT. What each host operation of R72 and R140 does to a core: loading a window, writing a command, reading STATUS
and the tag. -/

namespace Sys2Proof.Machine

@[simp] theorem hostReturn_eq {α : Type} (a : α) (s : State) : hostReturn a s = .done a s := rfl

/-- A procedure that ends with a value goes on. -/
theorem andThen_done {α β : Type} {p : HostProc α} {q : α → HostProc β} {s s' : State} {a : α}
    (h : p s = .done a s') : andThen p q s = q a s' := by
  unfold andThen
  rw [h]

/-- A failed procedure ends the whole (R140). -/
theorem andThen_failed {α β : Type} {p : HostProc α} {q : α → HostProc β} {s s' : State} {c : BitVec 4}
    (h : p s = .failed c s') : andThen p q s = .failed c s' := by
  unfold andThen
  rw [h]

theorem andThen_assoc {α β γ : Type} (p : HostProc α) (q : α → HostProc β) (r : β → HostProc γ) (s : State) :
    andThen (andThen p q) r s = andThen p (fun a => andThen (q a) r) s := by
  unfold andThen
  cases p s <;> rfl

/-! ## Windows -/

theorem zeroPadded_length {n : Nat} {b : List Byte} (h : b.length ≤ n) : (zeroPadded n b).length = n := by
  simp [zeroPadded]
  omega

theorem zeroPadded_take {n : Nat} (b : List Byte) : (zeroPadded n b).take b.length = b := by
  simp [zeroPadded]

/-- Byte `k` of word `j` of a byte sequence (R72). -/
theorem windowWord_lane {l : List Byte} {j k : Nat} (hj : 4 * j + 3 < l.length) (hk : k < 4) :
    (windowWord l j).extractLsb' (8 * (3 - k)) 8 = l[4 * j + k]'(by omega) := by
  have hlen : ((l.drop (4 * j)).take 4).length = 4 := by
    rw [List.length_take, List.length_drop]
    omega
  have h := byteAt_ofBytes (w := 32) (n := 4) (i := k) rfl _ hlen hk
  have e : 4 - 1 - k = 3 - k := by omega
  rw [byteAt, e] at h
  rw [windowWord, h]
  simp

/-- Four word writes set the whole of a 16-byte window (R45, R72). -/
theorem setWordAt_all16 {l : List Byte} (hl : l.length = 16) (v : Block) :
    setWordAt 16 (setWordAt 16 (setWordAt 16 (setWordAt 16 v 0 (windowWord l 0)) 1 (windowWord l 1)) 2
      (windowWord l 2)) 3 (windowWord l 3) = blockOf l := by
  apply eq_of_byteAt_eq (n := 16) rfl
  intro i hi
  rw [blockOf, byteAt_ofBytes rfl l hl hi]
  have lane : ∀ j k, j < 4 → k < 4 → 4 * j + k = i →
      (windowWord l j).extractLsb' (8 * (3 - k)) 8 = l[i]'(by omega) := by
    intro j k hj hk e
    subst e
    exact windowWord_lane (by omega) hk
  rw [byteAt_setWordAt rfl (by omega) hi]
  split
  · exact lane 3 (i - 12) (by omega) (by omega) (by omega)
  rw [byteAt_setWordAt rfl (by omega) hi]
  split
  · exact lane 2 (i - 8) (by omega) (by omega) (by omega)
  rw [byteAt_setWordAt rfl (by omega) hi]
  split
  · exact lane 1 (i - 4) (by omega) (by omega) (by omega)
  rw [byteAt_setWordAt rfl (by omega) hi]
  split
  · exact lane 0 (i - 0) (by omega) (by omega) (by omega)
  · omega

/-- Eight word writes set the whole of the 32-byte window (R45, R72). -/
theorem setWordAt_all32 {l : List Byte} (hl : l.length = 32) (v : KeyBytes) :
    setWordAt 32 (setWordAt 32 (setWordAt 32 (setWordAt 32 (setWordAt 32 (setWordAt 32 (setWordAt 32 (setWordAt 32 v
      0 (windowWord l 0)) 1 (windowWord l 1)) 2 (windowWord l 2)) 3 (windowWord l 3)) 4 (windowWord l 4)) 5
      (windowWord l 5)) 6 (windowWord l 6)) 7 (windowWord l 7) = ofBytes 256 l := by
  apply eq_of_byteAt_eq (n := 32) rfl
  intro i hi
  rw [byteAt_ofBytes rfl l hl hi]
  have lane : ∀ j k, j < 8 → k < 4 → 4 * j + k = i →
      (windowWord l j).extractLsb' (8 * (3 - k)) 8 = l[i]'(by omega) := by
    intro j k hj hk e
    subst e
    exact windowWord_lane (by omega) hk
  rw [byteAt_setWordAt rfl (by omega) hi]
  split
  · exact lane 7 (i - 28) (by omega) (by omega) (by omega)
  rw [byteAt_setWordAt rfl (by omega) hi]
  split
  · exact lane 6 (i - 24) (by omega) (by omega) (by omega)
  rw [byteAt_setWordAt rfl (by omega) hi]
  split
  · exact lane 5 (i - 20) (by omega) (by omega) (by omega)
  rw [byteAt_setWordAt rfl (by omega) hi]
  split
  · exact lane 4 (i - 16) (by omega) (by omega) (by omega)
  rw [byteAt_setWordAt rfl (by omega) hi]
  split
  · exact lane 3 (i - 12) (by omega) (by omega) (by omega)
  rw [byteAt_setWordAt rfl (by omega) hi]
  split
  · exact lane 2 (i - 8) (by omega) (by omega) (by omega)
  rw [byteAt_setWordAt rfl (by omega) hi]
  split
  · exact lane 1 (i - 4) (by omega) (by omega) (by omega)
  rw [byteAt_setWordAt rfl (by omega) hi]
  split
  · exact lane 0 (i - 0) (by omega) (by omega) (by omega)
  · omega

theorem hostWrite_din {j : Nat} (hj : j < 4) (w : Word) (s : State) :
    hostWrite (BitVec.ofNat 8 (0x010 + 4 * j)) w s =
      .done () { s with din := setWordAt 16 s.din j w, response := some .written } := by
  have h : selectPort (BitVec.ofNat 8 (0x010 + 4 * j)) 32 = .ok (.din j) := selectPort_window hj (.inl ⟨rfl, rfl, rfl⟩)
  simp only [hostWrite, busAccess, h, writePort]
  rfl

theorem hostWrite_keyw {j : Nat} (hj : j < 8) (w : Word) (s : State) :
    hostWrite (BitVec.ofNat 8 (0x020 + 4 * j)) w s =
      .done () { s with keyw := setWordAt 32 s.keyw j w, response := some .written } := by
  have h : selectPort (BitVec.ofNat 8 (0x020 + 4 * j)) 32 = .ok (.keyw j) := selectPort_window hj (.inr (.inl ⟨rfl, rfl, rfl⟩))
  simp only [hostWrite, busAccess, h, writePort]
  rfl

theorem hostWrite_cand {j : Nat} (hj : j < 4) (w : Word) (s : State) :
    hostWrite (BitVec.ofNat 8 (0x040 + 4 * j)) w s =
      .done () { s with cand := setWordAt 16 s.cand j w, response := some .written } := by
  have h : selectPort (BitVec.ofNat 8 (0x040 + 4 * j)) 32 = .ok (.cand j) := selectPort_window hj (.inr (.inr (.inl ⟨rfl, rfl, rfl⟩)))
  simp only [hostWrite, busAccess, h, writePort]
  rfl

/-- The words of a window, in order (R72). -/
theorem windowWords_four (b : List Byte) :
    windowWords 4 b =
      [windowWord (zeroPadded 16 b) 0, windowWord (zeroPadded 16 b) 1, windowWord (zeroPadded 16 b) 2,
        windowWord (zeroPadded 16 b) 3] := rfl

theorem windowWords_eight (b : List Byte) :
    windowWords 8 b =
      [windowWord (zeroPadded 32 b) 0, windowWord (zeroPadded 32 b) 1, windowWord (zeroPadded 32 b) 2,
        windowWord (zeroPadded 32 b) 3, windowWord (zeroPadded 32 b) 4, windowWord (zeroPadded 32 b) 5,
        windowWord (zeroPadded 32 b) 6, windowWord (zeroPadded 32 b) 7] := rfl

/-- `LOADDIN b` (R72). -/
theorem loadDin_eq {b : List Byte} (h : b.length ≤ 16) (s : State) :
    loadDin b s = .done () { s with din := blockOf (zeroPadded 16 b), response := some .written } := by
  rw [← setWordAt_all16 (zeroPadded_length h) s.din, loadDin, windowWords_four]
  simp only [hostWriteWords]
  rw [andThen_done (hostWrite_din (j := 0) (by omega) _ _), andThen_done (hostWrite_din (j := 1) (by omega) _ _),
    andThen_done (hostWrite_din (j := 2) (by omega) _ _), andThen_done (hostWrite_din (j := 3) (by omega) _ _)]
  rw [hostReturn_eq]

/-- `LOADCAND b` (R72). -/
theorem loadCand_eq {b : List Byte} (h : b.length ≤ 16) (s : State) :
    loadCand b s = .done () { s with cand := blockOf (zeroPadded 16 b), response := some .written } := by
  rw [← setWordAt_all16 (zeroPadded_length h) s.cand, loadCand, windowWords_four]
  simp only [hostWriteWords]
  rw [andThen_done (hostWrite_cand (j := 0) (by omega) _ _), andThen_done (hostWrite_cand (j := 1) (by omega) _ _),
    andThen_done (hostWrite_cand (j := 2) (by omega) _ _), andThen_done (hostWrite_cand (j := 3) (by omega) _ _)]
  rw [hostReturn_eq]

/-- `LOADKEY b` (R72). -/
theorem loadKeyWindow_eq {b : List Byte} (h : b.length ≤ 32) (s : State) :
    loadKeyWindow b s = .done () { s with keyw := ofBytes 256 (zeroPadded 32 b), response := some .written } := by
  rw [← setWordAt_all32 (zeroPadded_length h) s.keyw, loadKeyWindow, windowWords_eight]
  simp only [hostWriteWords]
  rw [andThen_done (hostWrite_keyw (j := 0) (by omega) _ _), andThen_done (hostWrite_keyw (j := 1) (by omega) _ _),
    andThen_done (hostWrite_keyw (j := 2) (by omega) _ _), andThen_done (hostWrite_keyw (j := 3) (by omega) _ _),
    andThen_done (hostWrite_keyw (j := 4) (by omega) _ _), andThen_done (hostWrite_keyw (j := 5) (by omega) _ _),
    andThen_done (hostWrite_keyw (j := 6) (by omega) _ _), andThen_done (hostWrite_keyw (j := 7) (by omega) _ _)]
  rw [hostReturn_eq]

/-- The bytes a loaded window gives a command are the bytes loaded (R54, R72). -/
theorem take_bytesOf_blockOf_zeroPadded {b : List Byte} (h : b.length ≤ 16) :
    (bytesOf 16 (blockOf (zeroPadded 16 b))).take b.length = b := by
  rw [blockOf, bytesOf_ofBytes rfl _ (zeroPadded_length h), zeroPadded_take]

theorem take_bytesOf_ofBytes_zeroPadded {b : List Byte} (h : b.length ≤ 32) :
    (bytesOf 32 (ofBytes 256 (zeroPadded 32 b))).take b.length = b := by
  rw [bytesOf_ofBytes rfl _ (zeroPadded_length h), zeroPadded_take]

/-! ## Commands and reads -/

/-- `CMD c` runs the command of its word (R60, R72). -/
theorem hostCommand_eq (c : AsmCommand) (s : State) :
    hostCommand c s = .done () (commandState (assemble c) (s.respond .written)) := by
  unfold hostCommand hostWrite
  have h : busAccess (.write 0x00#8 32 (assemble c)) s = runCommand (assemble c) (s.respond .written) := rfl
  rw [h, runCommand_eq]

/-- Reading STATUS (R29, R44). -/
theorem hostRead_status (s : State) : hostRead 0x04#8 s = .done s.status (s.respond (.data s.status)) := rfl

/-- The STATUS word is a function of the fields R29 assembles it from. -/
theorem status_of_fields {s : State} (e : BitVec 4) (q : Bool) (m : Mode) (v : Variant) (n k : Nat) (x : Bool)
    (h1 : s.err = e) (h2 : s.eq = q) (h3 : s.mode = m) (h4 : s.varReg = v) (h5 : s.buf.length = n)
    (h6 : s.klenReg = k) (h7 : s.errs = x) :
    s.status =
      { State.reset with
        err := e, eq := q, mode := m, varReg := v, buf := List.replicate n 0#8, klenReg := k, errs := x }.status := by
  subst h1 h2 h3 h4 h5 h6 h7
  simp only [State.status, State.tlen, List.length_replicate]

/-- The ERR field of the STATUS word is ERR (R29). -/
theorem statusErr_status (s : State) : statusErr s.status = s.err := by
  unfold statusErr
  apply BitVec.eq_of_getLsbD_eq
  intro i hi
  interval_cases i <;> simp [State.status, placeAt]

/-- `if ERR ≠ 0: fail(ERR)` (R140). -/
theorem checkErr_eq (s : State) :
    checkErr s =
      if s.err = 0#4 then .done () (s.respond (.data s.status)) else .failed s.err (s.respond (.data s.status)) := by
  unfold checkErr
  rw [andThen_done (hostRead_status s), statusErr_status]

/-- The TLEN field of the STATUS word is TLEN (R29). -/
theorem statusTlen_status (s : State) : statusTlen s.status = s.tlen := by
  have h : s.status.extractLsb' 16 5 = BitVec.ofNat 5 s.tlen := by
    apply BitVec.eq_of_getLsbD_eq
    intro i hi
    interval_cases i <;> simp [State.status, placeAt]
  rw [statusTlen, h]
  unfold State.tlen tagLength
  cases s.mode <;> cases s.varReg <;> rfl

/-- The EQ field of the STATUS word is EQ (R29). -/
theorem statusEq_status (s : State) : statusEq s.status = s.eq := by
  simp [statusEq, State.status, placeAt, bitOf]

theorem hostRead_tout {j : Nat} (hj : j < 4) (s : State) :
    hostRead (BitVec.ofNat 8 (0x050 + 4 * j)) s =
      .done (wordAt 16 s.tout j) (s.respond (.data (wordAt 16 s.tout j))) := by
  have h : selectPort (BitVec.ofNat 8 (0x050 + 4 * j)) 32 = .ok (.tout j) :=
    selectPort_window hj (.inr (.inr (.inr (.inl ⟨rfl, rfl, rfl⟩))))
  simp only [hostRead, busRead, h, readPort]

/-- The four words of a window are its sixteen bytes (R42). -/
theorem bytes_of_words (v : Block) :
    [wordAt 16 v 0, wordAt 16 v 1, wordAt 16 v 2, wordAt 16 v 3].flatMap (bytesOf 4) = bytesOf 16 v := by
  have word : ∀ j, j < 4 → bytesOf 4 (wordAt 16 v j) =
      [byteAt 16 v (4 * j), byteAt 16 v (4 * j + 1), byteAt 16 v (4 * j + 2), byteAt 16 v (4 * j + 3)] := by
    intro j hj
    have e : bytesOf 4 (wordAt 16 v j) =
        [(wordAt 16 v j).extractLsb' (8 * (3 - 0)) 8, (wordAt 16 v j).extractLsb' (8 * (3 - 1)) 8,
          (wordAt 16 v j).extractLsb' (8 * (3 - 2)) 8, (wordAt 16 v j).extractLsb' (8 * (3 - 3)) 8] := rfl
    rw [e, wordAt_lane (by omega) (by omega), wordAt_lane (by omega) (by omega), wordAt_lane (by omega) (by omega),
      wordAt_lane (by omega) (by omega)]
    rfl
  simp only [List.flatMap_cons, List.flatMap_nil]
  rw [word 0 (by omega), word 1 (by omega), word 2 (by omega), word 3 (by omega)]
  rfl

/-- Reading a TOUT word, then the words after it. -/
theorem hostReadWords_tout {off j n : Nat} (ho : off = 0x050 + 4 * j) (hj : j < 4) {s t : State} {v : Block}
    (hv : s.tout = v) {ws : List Word}
    (h : hostReadWords (off + 4) n (s.respond (.data (wordAt 16 v j))) = .done ws t) :
    hostReadWords off (n + 1) s = .done (wordAt 16 v j :: ws) t := by
  subst ho hv
  rw [hostReadWords, andThen_done (hostRead_tout hj s), andThen_done h]
  rfl

/-- The four words of TOUT (R44). -/
theorem hostReadWords_four (s : State) :
    hostReadWords 0x050 4 s =
      .done [wordAt 16 s.tout 0, wordAt 16 s.tout 1, wordAt 16 s.tout 2, wordAt 16 s.tout 3]
        (s.respond (.data (wordAt 16 s.tout 3))) := by
  refine hostReadWords_tout (j := 0) (n := 3) (by decide) (by omega) rfl ?_
  refine hostReadWords_tout (j := 1) (n := 2) (by decide) (by omega) (respond_tout _ _) ?_
  refine hostReadWords_tout (j := 2) (n := 1) (by decide) (by omega) (respond_tout _ _) ?_
  refine hostReadWords_tout (j := 3) (n := 0) (by decide) (by omega) (respond_tout _ _) ?_
  rw [hostReadWords, hostReturn_eq]
  rfl

/-- The host reads the tag the core shows, and changes nothing but the bus response (R44, R140). -/
theorem readTag_eq (s : State) : ∃ r, readTag s = .done s.tagBytes (s.respond r) := by
  refine ⟨.data (wordAt 16 s.tout 3), ?_⟩
  unfold readTag
  rw [andThen_done (hostRead_status s), andThen_done (hostReadWords_four _), hostReturn_eq, statusTlen_status,
    respond_tout, bytes_of_words]
  rfl

end Sys2Proof.Machine
end

