-- ==== Sys2Proof/Laws/Reference.lean ====
section
/-! SUPPORT. The reference functions of Machine/Reference.lean over a message cut into whole blocks and a last block, and
what the engine's absorb step and finish step do in those terms. -/

namespace Sys2Proof.Machine

/-- The first `n` blocks do not see what follows them. -/
theorem cbcBlocks_append (k q r : List Byte) (n : Nat) (h : 16 * n ≤ q.length) :
    cbcBlocks k (q ++ r) n = cbcBlocks k q n := by
  induction n with
  | zero => rfl
  | succ n ih =>
    have hb : messageBlock (q ++ r) n = messageBlock q n := by
      unfold messageBlock
      rw [List.drop_append_of_le_length (by omega), List.take_append_of_le_length (by rw [List.length_drop]; omega)]
    have ih' := ih (by omega)
    unfold cbcBlocks at ih' ⊢
    rw [List.range_succ, List.foldl_append, List.foldl_append, ih']
    simp only [List.foldl_cons, List.foldl_nil, hb]

@[simp] theorem cbc_nil (k : List Byte) : cbc k [] = 0#128 := rfl

/-- One more whole block is one more CBC step (R19, R102). -/
theorem cbc_append_block (k q b : List Byte) (hq : q.length % 16 = 0) (hb : b.length = 16) :
    cbc k (q ++ b) = Config.aesEncrypt k (cbc k q ^^^ blockOf b) := by
  have hn : (q ++ b).length / 16 = q.length / 16 + 1 := by
    rw [List.length_append]
    omega
  have hm : messageBlock (q ++ b) (q.length / 16) = blockOf b := by
    unfold messageBlock
    rw [List.drop_append_of_le_length (by omega)]
    rw [List.drop_eq_nil_of_le (by omega), List.nil_append, List.take_of_length_le (by omega)]
  have ha := cbcBlocks_append k q b (q.length / 16) (by omega)
  unfold cbc at ha ⊢
  rw [hn, ← ha]
  unfold cbcBlocks
  rw [List.range_succ, List.foldl_append]
  simp only [List.foldl_cons, List.foldl_nil, hm]

/-- CMAC of whole blocks and a last block of 1 to 16 bytes, or of nothing (R105). -/
theorem cmac_split (k q r : List Byte) (hq : q.length % 16 = 0) (hr : r.length ≤ 16) (hne : r = [] → q = []) :
    cmac k (q ++ r) =
      Config.aesEncrypt k
        (cbc k q ^^^
          (if r.length = 16 then blockOf r ^^^ dbl (Config.aesEncrypt k 0#128)
          else padded r ^^^ dbl (dbl (Config.aesEncrypt k 0#128)))) := by
  have hcount : blockCount (q ++ r).length - 1 = q.length / 16 := by
    unfold blockCount
    rw [List.length_append]
    by_cases h : r = []
    · simp [h, hne h]
    · have : 0 < r.length := List.length_pos_iff.2 h
      omega
  have hdrop : (q ++ r).drop (16 * (q.length / 16)) = r := by
    rw [List.drop_append_of_le_length (by omega), List.drop_eq_nil_of_le (by omega), List.nil_append]
  have hcond : (0 < (q ++ r).length ∧ (q ++ r).length % 16 = 0) ↔ r.length = 16 := by
    rw [List.length_append]
    by_cases h : r = []
    · simp [h, hne h]
    · have : 0 < r.length := List.length_pos_iff.2 h
      omega
  unfold cmac maskedLast
  simp only [hcount, hdrop, hcond, cbcBlocks_append k q r (q.length / 16) (by omega)]
  rfl

/-- The engine stands, keyed with `k`, where the message `p` leaves it (R101, R102): a last part of at most 16 bytes in
BUF, and CHAIN the chain of the whole blocks before it. -/
def Absorbed (k p : List Byte) (s : State) : Prop :=
  ∃ q, p = q ++ s.buf ∧ q.length % 16 = 0 ∧ s.buf.length ≤ 16 ∧ (s.buf = [] → q = []) ∧ s.chain = cbc k q ∧
    s.key = k

/-- One absorb step takes the message on by its chunk (R100, R102). -/
theorem absorbed_absorb {k p d : List Byte} {s : State} (h : Absorbed k p s) (hd : d.length ≤ 16) :
    Absorbed k (p ++ d) (absorb d s) := by
  obtain ⟨q, rfl, hq, hb, hne, hc, hk⟩ := h
  by_cases hl : (s.buf ++ d).length ≤ 16
  · rw [absorb_short hl]
    refine ⟨q, by simp, hq, hl, fun h => hne ?_, hc, hk⟩
    exact (List.append_eq_nil_iff.1 h).1
  · have hl' : 16 < (s.buf ++ d).length := by omega
    have hlen := List.length_append (as := s.buf) (bs := d)
    rw [absorb_long hl' (by omega)]
    refine ⟨q ++ (s.buf ++ d).take 16, ?_, ?_, ?_, ?_, ?_, hk⟩
    · simp
    · rw [List.length_append, List.length_take]
      omega
    · simp only [List.length_drop]
      omega
    · intro h
      have := congrArg List.length h
      rw [List.length_drop, List.length_nil] at this
      omega
    · rw [cbc_append_block k q _ hq (by rw [List.length_take]; omega), ← hc, ← hk]
      rfl

/-- The finish step of a state that holds the subkeys of its key writes the CMAC of the message (R103, R104, R105). -/
theorem finish_tag_of_absorbed {k p : List Byte} {s : State} (h : Absorbed k p s)
    (h1 : s.k1reg = dbl (Config.aesEncrypt k 0#128)) (h2 : s.k2reg = dbl (dbl (Config.aesEncrypt k 0#128))) :
    (finish s).tag = cmac k p := by
  obtain ⟨q, rfl, hq, hb, hne, hc, hk⟩ := h
  rw [cmac_split k q s.buf hq hb hne, finish_tag, hk, hc, State.lastBlock, h1, h2]

end Sys2Proof.Machine
end

