-- ==== Sys2Proof/Tests/Slice0.lean ====
section
/-! SUPPORT. The model's own tests, and a witness for the hypotheses of every statement of Obligations.lean. Expected
values come from spec/95_test_vectors.md (the vector's name stands in the comment) or are written out by hand from the
encoding of R61; a value that needs AES enters as a hypothesis about `Config.aesEncrypt`. -/

namespace Sys2Proof.Tests

open Sys2Proof Sys2Proof.Machine Sys2Proof.Expected

/-! ## Helpers -/

/-- The state a step leaves, if it leaves one. -/
def nextOf (o : Host.Outcome State Fault Refusal) : Option State :=
  match o with
  | .next s => some s
  | .fault _ => none
  | .refused _ => none

/-- One CMD write of `w`, through the step. -/
def runWord (w : Nat) (s : State) : Option State := nextOf (step (s.withFetchWord 32 w))

/-- STATUS after one CMD write of `w`. -/
def statusAfter (w : Nat) (s : State) : Option Word := (runWord w s).map State.status

/-- One bus access, through the step. -/
def access (a : Access) (s : State) : Host.Outcome State Fault Refusal := step { s with pending := [.access a] }

/-- The bus error an access ends in, if it does. -/
def faultOf (o : Host.Outcome State Fault Refusal) : Option BusError :=
  match o with
  | .fault (.busError e) => some e
  | .next _ => none
  | .refused _ => none

/-- The running key K of spec/95, in bytes 0..15 of a window. -/
def keyK : KeyBytes := 0x2b7e151628aed2a6abf7158809cf4f3c00000000000000000000000000000000#256

/-- K as bytes. -/
def keyBytes : List Byte :=
  [0x2b#8, 0x7e#8, 0x15#8, 0x16#8, 0x28#8, 0xae#8, 0xd2#8, 0xa6#8, 0xab#8, 0xf7#8, 0x15#8, 0x88#8, 0x09#8, 0xcf#8,
    0x4f#8, 0x3c#8]

/-- The V-K2 message. -/
def msgK2 : Block := 0x6bc1bee22e409f96e93d7e117393172a#128

/-- L, K1 and K2 of K, and the V-K1 and V-K2 tags (spec/95). -/
def subkeyL : Block := 0x7df76b0c1ab899b33e42f047b91b546f#128
def subkey1 : Block := 0xfbeed618357133667c85e08f7236a8de#128
def subkey2 : Block := 0xf7ddac306ae266ccf90bc11ee46d513b#128
def tagK1 : Block := 0xbb1d6929e95937287fa37d129b756746#128
def tagK2 : Block := 0x070a16b46b4d4144f79bdd9dd04a287c#128

/-- The context INIT 16, v leaves for K, with the bytes `b` pending. -/
def active (v : Variant) (b : List Byte) : State :=
  { State.reset with
    mode := .active
    kreg := keyK
    klenReg := 16
    varReg := v
    lreg := Config.aesEncrypt ((bytesOf 32 keyK).take 16) 0#128
    k1reg := dbl (Config.aesEncrypt ((bytesOf 32 keyK).take 16) 0#128)
    k2reg := dbl (dbl (Config.aesEncrypt ((bytesOf 32 keyK).take 16) 0#128))
    buf := b }

/-- A finalized context of K that holds the tag `t`. -/
def tagged (v : Variant) (t : Block) : State := { active v [] with mode := .finalized, tag := t, chain := t }

/-! ## WellFormed: for each check an ill-formed term it refuses (R61, R64, R67) -/

theorem test_init_klen_over_63_refused : Instr.wellFormed (.init 64 .cmac) = false := by decide

theorem test_update_len_17_refused : Instr.wellFormed (.update 17) = false := by decide

theorem test_final_len_17_refused : Instr.wellFormed (.final 17) = false := by decide

theorem test_verify_len_17_refused : Instr.wellFormed (.verify 17 0) = false := by decide

theorem test_verify_clen_17_refused : Instr.wellFormed (.verify 0 17) = false := by decide

theorem test_cteq_len_17_refused : Instr.wellFormed (.cteq 17 0) = false := by decide

theorem test_cteq_clen_17_refused : Instr.wellFormed (.cteq 0 17) = false := by decide

/-! ## Decoding: the fields of R61 written out, from bit 31 down:
reserved (7), VAR (1), reserved (2), ALEN (6), reserved (3), LEN (5), OP (8) -/

theorem test_decode_init : decode 0b0000000_1_00_100000_000_00000_00000001#32 = .ok (.init 32 .cmac96) := by decide

theorem test_decode_update : decode 0b0000000_0_00_000000_000_00111_00000010#32 = .ok (.update 7) := by decide

theorem test_decode_final : decode 0b0000000_0_00_000000_000_10000_00000011#32 = .ok (.final 16) := by decide

theorem test_decode_verify : decode 0b0000000_0_00_001100_000_00001_00000100#32 = .ok (.verify 1 12) := by decide

theorem test_decode_cteq : decode 0b0000000_0_00_010000_000_01100_00000101#32 = .ok (.cteq 12 16) := by decide

theorem test_decode_double : decode 0b0000000_0_00_000000_000_00000_00000110#32 = .ok .double := by decide

/-- The words of R63 assembled from the syntax of R70, among them the pseudo-commands of R71. -/
theorem test_assemble_words :
    assemble (.command (.init 32 .cmac96)) = 0x01200001#32 ∧ assemble (.command (.update 16)) = 0x00001002#32 ∧
      assemble .digest = 0x00000003#32 ∧ assemble (.check 12) = 0x000C0004#32 ∧ assemble .init128 = 0x00100001#32 ∧
      assemble (.init96 16) = 0x01100001#32 := by decide

/-- spec/95 §2.9, opcodes and reserved fields. -/
theorem test_illegal_opcode_or_reserved :
    decode 0x00000000#32 = .error .unassignedOpcode ∧ decode 0x00000007#32 = .error .unassignedOpcode ∧
      decode 0x000000FF#32 = .error .unassignedOpcode ∧ decode 0x00002002#32 = .error .reservedField ∧
      decode 0x00400002#32 = .error .reservedField ∧ decode 0x80000003#32 = .error .reservedField := by decide

/-- spec/95 §2.9, constraints of R67; and D-17, U-21, V-11, C-8. -/
theorem test_illegal_constraint :
    decode 0x00000101#32 = .error .fieldConstraint ∧ decode 0x00011003#32 = .error .fieldConstraint ∧
      decode 0x00110004#32 = .error .fieldConstraint ∧ decode 0x01000005#32 = .error .fieldConstraint ∧
      decode 0x01000006#32 = .error .fieldConstraint ∧ decode 0x00010006#32 = .error .fieldConstraint ∧
      decode 0x00001102#32 = .error .fieldConstraint ∧ decode 0x00001105#32 = .error .fieldConstraint := by decide

/-- The opcode table's rows select the words above (R66). -/
theorem test_rows_select :
    (opcodeRow (.verify 0 0)).selects 0x000C0104#32 = true ∧ (opcodeRow (.cteq 0 0)).selects 0x000C0104#32 = false ∧
      (opcodeRow .double).selects 0x01000006#32 = false := by decide

/-- The host's entry reads a row's word, and refuses one longer than a command. -/
theorem test_decodeTableWord :
    decodeTableWord 32 0x00100004 = some (.verify 0 16) ∧ decodeTableWord 32 0x00000007 = none ∧
      decodeTableWord 64 0x100000006 = none := by decide

/-! ## The doubler (spec/95 §2.1) -/

/-- D-3, D-4, D-10, D-12: the reduction, and D-5, D-7, D-8: the plain shift. -/
theorem test_dbl_corners :
    dbl 0x80000000000000000000000000000000#128 = 0x87#128 ∧
      dbl 0xffffffffffffffffffffffffffffffff#128 = 0xffffffffffffffffffffffffffffff79#128 ∧
      dbl 0x80000000000000000000000000000001#128 = 0x85#128 ∧
      dbl 0xaaaaaaaaaaaaaaaaaaaaaaaaaaaaaaaa#128 = 0x555555555555555555555555555555d3#128 ∧
      dbl 0x40000000000000000000000000000000#128 = 0x80000000000000000000000000000000#128 ∧
      dbl 0x7fffffffffffffffffffffffffffffff#128 = 0xfffffffffffffffffffffffffffffffe#128 ∧
      dbl 0x80#128 = 0x100#128 := by decide

/-- D-13 and D-14: K1 from L, K2 from K1. -/
theorem test_dbl_subkeys : dbl subkeyL = subkey1 ∧ dbl subkey1 = subkey2 := by decide

/-- D-3 through the step, and the end state of §2.1. -/
theorem test_double_step :
    (runWord 0x00000006 { State.reset with din := 0x80000000000000000000000000000000#128 }).map
      (fun t => (t.dout, t.status, t.mode)) = some (0x87#128, 0x00000000#32, .unkeyed) := by decide

/-! ## INIT (spec/95 §2.2) -/

/-- I-1 and I-2, I-5, I-7, I-10, I-11: STATUS after INIT. -/
theorem test_init_status :
    statusAfter 0x00100001 { State.reset with keyw := keyK } = some 0x10000020#32 ∧
      statusAfter 0x01100001 { State.reset with keyw := keyK } = some 0x100000A0#32 ∧
      statusAfter 0x000F0001 State.reset = some 0x80000001#32 ∧
      statusAfter 0x00210001 (active .cmac []) = some 0x90000021#32 ∧
      statusAfter 0x01100001 (tagged .cmac tagK1) = some 0x100000A0#32 ∧
      statusAfter 0x00100101 State.reset = some 0x80000005#32 := by decide

/-- I-1: the registers INIT writes, for the reference AES's L. -/
theorem test_init_subkeys (h : Config.aesEncrypt keyBytes 0#128 = subkeyL) :
    ∃ t, exec (.init 16 .cmac) { State.reset with keyw := keyK } = .next t ∧ t.kreg = keyK ∧
      t.lreg = subkeyL ∧ t.k1reg = subkey1 ∧ t.k2reg = subkey2 ∧ t.buf = [] ∧ t.mode = .active := by
  have hk : ({ State.reset with keyw := keyK }.loadKey 16 .cmac).key = keyBytes := by decide
  refine ⟨_, exec_eq _ _, by decide, ?_, ?_, ?_, rfl, rfl⟩ <;>
    simp only [execState, initBody, show validKeyLength 16 = true from rfl, if_true, conclude_ok, report_lreg,
      report_k1reg, report_k2reg, startContext_lreg, startContext_k1reg, startContext_k2reg, generateSubkeys_lreg,
      generateSubkeys_k1reg, generateSubkeys_k2reg, hk, h]
  · exact test_dbl_subkeys.1
  · decide

/-! ## UPDATE (spec/95 §2.3) -/

/-- U-4, U-8, U-11, U-16: the buffer's length and the AES calls. -/
theorem test_update_buffer :
    (runWord 0x00001002 (active .cmac [])).map (fun t => (t.buf.length, t.aesCalls.length)) = some (16, 0) ∧
      (runWord 0x00001002 (active .cmac [0x6b#8])).map (fun t => (t.buf.length, t.aesCalls.length)) = some (1, 1) ∧
      (runWord 0x00000F02 (active .cmac (List.replicate 15 0#8))).map (fun t => (t.buf.length, t.aesCalls.length)) =
        some (14, 1) ∧
      (runWord 0x00001002 (active .cmac (List.replicate 16 0#8))).map (fun t => (t.buf.length, t.aesCalls.length)) =
        some (16, 1) := by decide

/-- U-17, U-19, U-20, U-21: the errors. -/
theorem test_update_status :
    statusAfter 0x00000002 State.reset = some 0x80000004#32 ∧
      statusAfter 0x00000002 (tagged .cmac tagK1) = some 0x10100060#32 ∧
      statusAfter 0x00000102 (tagged .cmac tagK1) = some 0x90100062#32 ∧
      statusAfter 0x00001102 (active .cmac []) = some 0x90000025#32 := by decide

/-- U-14: which bytes stay, and what is encrypted. -/
theorem test_update_long_chunk (h : Config.aesEncrypt keyBytes msgK2 = 0x3ad77bb40d7a3660a89ecaf32466ef97#128) :
    ∃ t, exec (.update 1) { active .cmac (bytesOf 16 msgK2) with din := 0xae000000000000000000000000000000#128 } =
        .next t ∧
      t.buf = [0xae#8] ∧ t.chain = 0x3ad77bb40d7a3660a89ecaf32466ef97#128 := by
  have hk : (active .cmac []).key = keyBytes := by decide
  have hb : 0#128 ^^^ blockOf ((bytesOf 16 msgK2 ++ [0xae#8]).take 16) = msgK2 := by decide
  refine ⟨_, rfl, by decide, ?_⟩
  rw [← hk, ← hb] at h
  exact h

/-! ## FINAL and the truncator (spec/95 §2.4, §2.5) -/

/-- The table of last blocks before masking: 15 bytes, one byte and none. -/
theorem test_padding :
    padded ((bytesOf 16 msgK2).take 15) = 0x6bc1bee22e409f96e93d7e1173931780#128 ∧
      padded [0x6b#8] = 0x6b800000000000000000000000000000#128 ∧
      padded [] = 0x80000000000000000000000000000000#128 := by decide

/-- F-1, F-3, F-7, F-8, T-1: STATUS after FINAL. -/
theorem test_final_status :
    statusAfter 0x00000003 State.reset = some 0x80000004#32 ∧
      statusAfter 0x00000003 (active .cmac []) = some 0x10100060#32 ∧
      statusAfter 0x00000003 (tagged .cmac tagK1) = some 0x10100060#32 ∧
      statusAfter 0x00000103 (tagged .cmac tagK1) = some 0x90100062#32 ∧
      statusAfter 0x00000003 (active .cmac96 []) = some 0x100C00E0#32 := by decide

/-- The tag FINAL 0 leaves in an active context of K, before masking is spelled out. -/
theorem final_zero_tag (b : List Byte) :
    (execState (.final 0) (active .cmac b)).tag =
      Config.aesEncrypt (active .cmac b).key ((active .cmac b).chain ^^^ (active .cmac b).lastBlock) := by
  simp only [execState, finalBody, show (active .cmac b).mode = .active from rfl, Nat.lt_irrefl, if_false, conclude_ok,
    report_tag, finish_tag]

/-- F-3 and V-K1: the tag of the empty message, the K2 branch. -/
theorem test_final_empty_message (h : Config.aesEncrypt keyBytes 0#128 = subkeyL)
    (h' : Config.aesEncrypt keyBytes (0x80000000000000000000000000000000#128 ^^^ subkey2) = tagK1) :
    ∃ t, exec (.final 0) (active .cmac []) = .next t ∧ t.tag = tagK1 := by
  have hk : (bytesOf 32 keyK).take 16 = keyBytes := by decide
  have hk' : (active .cmac []).key = keyBytes := by decide
  refine ⟨_, exec_eq _ _, ?_⟩
  rw [final_zero_tag, hk', State.lastBlock, if_neg (by decide), active, hk, h, ← h']
  exact congrArg _ (by decide)

/-- F-5 and V-K2: one full block kept back by UPDATE 16, the K1 branch. -/
theorem test_final_full_block (h : Config.aesEncrypt keyBytes 0#128 = subkeyL)
    (h' : Config.aesEncrypt keyBytes (msgK2 ^^^ subkey1) = tagK2) :
    ∃ t, exec (.final 0) (active .cmac (bytesOf 16 msgK2)) = .next t ∧ t.tag = tagK2 := by
  have hk : (bytesOf 32 keyK).take 16 = keyBytes := by decide
  have hk' : (active .cmac (bytesOf 16 msgK2)).key = keyBytes := by decide
  refine ⟨_, exec_eq _ _, ?_⟩
  rw [final_zero_tag, hk', State.lastBlock, if_pos (by decide), active, hk, h, ← h']
  exact congrArg _ (by decide)

/-- T-1, T-3 and F-3: the TOUT words of the two variants, and of an active context. -/
theorem test_tout_words :
    (tagged .cmac96 tagK1).tout = 0xbb1d6929e95937287fa37d1200000000#128 ∧ (tagged .cmac tagK1).tout = tagK1 ∧
      (active .cmac96 []).tout = 0#128 := by decide

/-! ## VERIFY (spec/95 §2.6) -/

/-- V-5 to V-9: the comparison with a tag already present, at both tag lengths. -/
theorem test_verify_status :
    statusAfter 0x00100004 { tagged .cmac tagK1 with cand := tagK1 } = some 0x10100070#32 ∧
      statusAfter 0x000F0004 { tagged .cmac tagK1 with cand := tagK1 } = some 0x90100063#32 ∧
      statusAfter 0x00000004 { tagged .cmac tagK1 with cand := tagK1 } = some 0x90100063#32 ∧
      statusAfter 0x000C0004 { tagged .cmac96 tagK1 with cand := tagK1 } = some 0x100C00F0#32 ∧
      statusAfter 0x00100004 { tagged .cmac96 tagK1 with cand := tagK1 } = some 0x900C00E3#32 := by decide

/-- V-3, V-10, V-11: data after finalization, no key, and an illegal candidate length. -/
theorem test_verify_errors :
    statusAfter 0x00101004 { tagged .cmac tagK2 with cand := tagK2 } = some 0x90100062#32 ∧
      statusAfter 0x00100004 State.reset = some 0x80000004#32 ∧
      statusAfter 0x00110004 (active .cmac []) = some 0x90000025#32 := by decide

/-! ## CTEQ (spec/95 §2.7) -/

/-- C-1, C-2, C-4, C-5. -/
theorem test_cteq_bytes :
    statusAfter 0x00101005 State.reset = some 0x00000010#32 ∧
      statusAfter 0x00101005 { State.reset with cand := 1#128 } = some 0x00000000#32 ∧
      statusAfter 0x000C0C05
        { State.reset with
          din := 0xabababababababababababababababab#128
          cand := 0xabababababababababababababababab#128 } =
        some 0x00000010#32 ∧
      statusAfter 0x00100C05
        { State.reset with
          din := 0xabababababababababababababababab#128
          cand := 0xabababababababababababababababab#128 } =
        some 0x00000000#32 := by decide

/-- C-6, C-7, C-8, and step 10 of P7: ERRS stays. -/
theorem test_cteq_corners :
    statusAfter 0x00000005 State.reset = some 0x00000010#32 ∧
      statusAfter 0x00010005 State.reset = some 0x00000000#32 ∧
      statusAfter 0x00001105 State.reset = some 0x80000005#32 ∧
      statusAfter 0x00101005 { active .cmac [] with err := 5#4, errs := true } = some 0x90000030#32 := by decide

/-! ## The bus (spec/95 §2.10) and reset -/

/-- The bus errors of §2.10, from reset. -/
theorem test_bus_errors :
    faultOf (access (.read 0x00#8 32) State.reset) = some .notReadable ∧
      faultOf (access (.read 0x20#8 32) State.reset) = some .notReadable ∧
      faultOf (access (.read 0x08#8 32) State.reset) = some .unmapped ∧
      faultOf (access (.read 0x70#8 32) State.reset) = some .unmapped ∧
      faultOf (access (.read 0xFC#8 32) State.reset) = some .unmapped ∧
      faultOf (access (.read 0x02#8 32) State.reset) = some .misaligned ∧
      faultOf (access (.read 0x04#8 16) State.reset) = some .badWidth ∧
      faultOf (access (.write 0x04#8 32 0#32) State.reset) = some .notWritable ∧
      faultOf (access (.write 0x50#8 32 0#32) State.reset) = some .notWritable ∧
      faultOf (access (.write 0x60#8 32 0#32) State.reset) = some .notWritable ∧
      faultOf (access (.write 0xFC#8 32 0#32) State.reset) = some .unmapped := by decide

/-- WR 0x010 and the four bytes of DIN it writes. -/
theorem test_bus_write_din :
    (nextOf (access (.write 0x10#8 32 0x6BC1BEE2#32) State.reset)).map (fun t => (bytesOf 16 t.din).take 5) =
      some [0x6b#8, 0xc1#8, 0xbe#8, 0xe2#8, 0x00#8] := by decide

/-- RD 0x06C after D-3, and the last word of P1's key in KEYW. -/
theorem test_bus_words :
    (nextOf (access (.read 0x6C#8 32) { State.reset with dout := 0x87#128 })).map (·.response) =
        some (some (.data 0x00000087#32)) ∧
      (nextOf (access (.write 0x2C#8 32 0x09CF4F3C#32) State.reset)).map (fun t => byteAt 32 t.keyw 15) =
        some 0x3c#8 := by decide

/-- Reset from a finalized context: STATUS and TOUT read zero and the key is gone (R180, R184). -/
theorem test_reset_clears :
    (nextOf (step { tagged .cmac tagK1 with pending := [.reset none] })).map (fun t => (t.status, t.tout, t.kreg)) =
      some (0x00000000#32, 0#128, 0#256) := by decide

/-- Every one of the two bus addresses next to an edge of the window (R40): inside at its offset, outside not. -/
theorem test_window_edges :
    windowOffset (Config.cmacBase + 0xFF) = some 0xFF#8 ∧ windowOffset (Config.cmacBase + 0x100) = none := by
  unfold windowOffset Config.cmacBase
  constructor
  · rw [if_pos (by omega), show (0x100 * Config.cmacPage + 0xFF) % 0x100 = 0xFF by omega]
  · rw [if_neg (by omega)]

/-- The fetch helper places the word where the next step takes it. -/
theorem test_withFetchWord :
    (State.reset.withFetchWord 32 0x00000006).pending = [.access (.write 0x00#8 32 0x00000006#32)] := by decide

/-! ## Witnesses: for each statement with hypotheses, a state and operands that meet them, at the boundary values of its
clauses -/

theorem active_subkeys (v : Variant) : (active v []).SubkeysOfKey := by
  intro _
  refine ⟨rfl, ?_, ?_, ?_⟩ <;> simp only [active, State.key]

theorem tagged_subkeys (v : Variant) (t : Block) : (tagged v t).SubkeysOfKey := by
  intro _
  refine ⟨rfl, ?_, ?_, ?_⟩ <;> simp only [tagged, active, State.key]

theorem keyK_tail : keyK = keepFirst 32 16 keyK := by decide

/-- The context after INIT meets the invariant. -/
theorem active_inv (v : Variant) : (active v []).Inv where
  unkeyed := fun h => nomatch h
  subkeys := active_subkeys v
  finalized := fun h => nomatch h
  buffer := ⟨Nat.zero_le _, fun _ => ⟨rfl, fun _ => rfl⟩⟩
  report := ⟨Nat.zero_le _, fun h => (nomatch h), fun h => absurd rfl h⟩
  keyTail := keyK_tail

theorem tagged_inv (v : Variant) (t : Block) : (tagged v t).Inv where
  unkeyed := fun h => nomatch h
  subkeys := tagged_subkeys v t
  finalized := fun _ => ⟨rfl, rfl⟩
  buffer := ⟨Nat.zero_le _, fun h => (nomatch h)⟩
  report := ⟨Nat.zero_le _, fun h => (nomatch h), fun h => absurd rfl h⟩
  keyTail := keyK_tail

theorem reset_inv : State.reset.Inv := by
  refine ⟨fun _ => ⟨rfl, rfl, rfl, rfl, rfl, rfl, rfl, rfl⟩, fun h => absurd rfl h, fun h => (nomatch h),
    ⟨by decide, fun h => (nomatch h)⟩, ⟨by decide, fun h => (nomatch h), fun h => absurd rfl h⟩, ?_⟩
  exact (by decide : (0#256 : KeyBytes) = keepFirst 32 0 0#256)

/-- A state that has only the input `i` to take. -/
def given (i : Input) (s : State) : State := { s with pending := [i] }

theorem witness_DecodeOfEncode :
    Instr.wellFormed (.init 63 .cmac96) = true ∧ Instr.wellFormed (.update 16) = true ∧
      Instr.wellFormed (.final 0) = true ∧ Instr.wellFormed (.verify 16 16) = true ∧
      Instr.wellFormed (.cteq 0 16) = true ∧ Instr.wellFormed .double = true := by decide

theorem witness_EncodeOfDecode : ∃ w i, decode w = .ok i := ⟨0x01200001#32, .init 32 .cmac96, by decide⟩

/-- One illegal word for each part of R68, at the least value that breaks it. -/
theorem witness_IllegalWordsOnlyReport :
    IllegalWord 0x00002002#32 ∧ IllegalWord 0x00400002#32 ∧ IllegalWord 0x02100001#32 ∧ IllegalWord 0x00000000#32 ∧
      IllegalWord 0x00000007#32 ∧ IllegalWord 0x000000FF#32 ∧ IllegalWord 0x00000101#32 ∧ IllegalWord 0x00001102#32 ∧
      IllegalWord 0x00010003#32 ∧ IllegalWord 0x01000003#32 ∧ IllegalWord 0x00001104#32 ∧ IllegalWord 0x00110005#32 ∧
      IllegalWord 0x01000004#32 ∧ IllegalWord 0x00000106#32 ∧ IllegalWord 0x00010006#32 ∧ IllegalWord 0x01000006#32 := by
  refine ⟨?_, ?_, ?_, ?_, ?_, ?_, ?_, ?_, ?_, ?_, ?_, ?_, ?_, ?_, ?_, ?_⟩ <;>
    · unfold IllegalWord op len alen var
      decide

/-- The words at the bounds of the constraints are legal. -/
theorem witness_legal_bounds :
    ¬ IllegalWord 0x013F0001#32 ∧ ¬ IllegalWord 0x00001002#32 ∧ ¬ IllegalWord 0x00001003#32 ∧
      ¬ IllegalWord 0x00101004#32 ∧ ¬ IllegalWord 0x00101005#32 ∧ ¬ IllegalWord 0x00000006#32 := by
  refine ⟨?_, ?_, ?_, ?_, ?_, ?_⟩ <;>
    · unfold IllegalWord op len alen var
      decide

theorem witness_CommandWordsOfSpec : ∃ o n a v : Nat, o < 256 ∧ n < 32 ∧ a < 64 ∧ v < 2 := ⟨255, 31, 63, 1, by decide⟩

theorem witness_PseudoCommandsExpand : (∃ clen : Nat, clen = 16 ∧ clen ≤ 16) ∧ ∃ klen : Nat, klen = 63 ∧ klen < 64 :=
  ⟨⟨16, by decide⟩, 63, by decide⟩

theorem witness_StepRunsDecodedCommand :
    ∃ (s : State) (rest : List Input) (w : Word) (i : Instr),
      s.pending = .access (.write 0x00#8 32 w) :: rest ∧ decode w = .ok i :=
  ⟨State.reset.withFetchWord 32 0x00000006, [], 0x00000006#32, .double, rfl, by decide⟩

theorem witness_IdleCoreDoesNothing : ∃ s : State, s.pending = [] := ⟨State.reset, rfl⟩

theorem witness_InputsTakenInOrder : ∃ s t : State, s.pending ≠ [] ∧ step s = .next t :=
  ⟨given (.access (.read 0x04#8 32)) State.reset, _, by decide, rfl⟩

theorem witness_ResetValuesOfEveryElement :
    ∃ (s : State) (cut : Option Access) (rest : List Input), s.mode = .finalized ∧ s.pending = .reset cut :: rest :=
  ⟨given (.reset (some (.write 0x00#8 32 6#32))) (tagged .cmac tagK1), _, _, rfl, rfl⟩

theorem witness_CutOffTransactionHasNoEffect :
    ∃ (s s' : State) (a : Access) (rest : List Input), s.pending = .reset (some a) :: rest ∧
      s'.pending = .reset none :: rest :=
  ⟨given (.reset (some (.write 0x00#8 32 6#32))) (active .cmac []), given (.reset none) State.reset, _, [], rfl, rfl⟩

/-- Each clause's first and last offset: STATUS, DIN, CAND, TOUT, DOUT. -/
theorem witness_MemReadAnswersMappedWords :
    (∃ off : BitVec 8, off.toNat = 0x004) ∧
      (∀ j, j = 0 ∨ j = 3 → j < 4 ∧ (∃ off : BitVec 8, off.toNat = 0x010 + 4 * j) ∧
        (∃ off : BitVec 8, off.toNat = 0x040 + 4 * j) ∧ (∃ off : BitVec 8, off.toNat = 0x050 + 4 * j) ∧
        ∃ off : BitVec 8, off.toNat = 0x060 + 4 * j) ∧
      ∃ (s : State) (rest : List Input), s.pending = .access (.read 0x04#8 32) :: rest := by
  refine ⟨⟨0x04#8, rfl⟩, ?_, given (.access (.read 0x04#8 32)) (active .cmac []), [], rfl⟩
  rintro j (rfl | rfl)
  · exact ⟨by decide, ⟨0x10#8, rfl⟩, ⟨0x40#8, rfl⟩, ⟨0x50#8, rfl⟩, ⟨0x60#8, rfl⟩⟩
  · exact ⟨by decide, ⟨0x1C#8, rfl⟩, ⟨0x4C#8, rfl⟩, ⟨0x5C#8, rfl⟩, ⟨0x6C#8, rfl⟩⟩

/-- The bus-error clause of reads: CMD, the holes, KEYW, a misaligned offset, the top of the window. -/
theorem witness_MemRead_errors :
    ¬ readable 0x000 ∧ ¬ readable 0x008 ∧ ¬ readable 0x00C ∧ ¬ readable 0x020 ∧ ¬ readable 0x03C ∧ ¬ readable 0x005 ∧
      ¬ readable 0x070 ∧ ¬ readable 0x0FC := by
  unfold readable
  refine ⟨?_, ?_, ?_, ?_, ?_, ?_, ?_, ?_⟩ <;> rintro (h | ⟨j, hj, h⟩) <;> omega

theorem witness_MemWriteChangesMappedBytes :
    (∃ off : BitVec 8, off.toNat = 0x000) ∧ (∃ off : BitVec 8, off.toNat = 0x010 + 4 * 3) ∧
      (∃ off : BitVec 8, off.toNat = 0x020 + 4 * 7) ∧ (∃ off : BitVec 8, off.toNat = 0x040 + 4 * 3) ∧
      (∃ (s : State) (rest : List Input) (w : Word), s.pending = .access (.write 0x00#8 32 w) :: rest ∧
        ∃ i, decode w = .ok i) ∧
      ∃ (s : State) (rest : List Input) (w : Word), s.pending = .access (.write 0x00#8 32 w) :: rest ∧
        ∃ e, decode w = .error e :=
  ⟨⟨0x00#8, rfl⟩, ⟨0x1C#8, rfl⟩, ⟨0x3C#8, rfl⟩, ⟨0x4C#8, rfl⟩,
    ⟨State.reset.withFetchWord 32 6, [], 6#32, rfl, .double, by decide⟩,
    State.reset.withFetchWord 32 7, [], 7#32, rfl, .unassignedOpcode, by decide⟩

theorem witness_MemWrite_errors :
    ¬ writable 0x004 ∧ ¬ writable 0x008 ∧ ¬ writable 0x050 ∧ ¬ writable 0x06C ∧ ¬ writable 0x001 ∧ ¬ writable 0x070 ∧
      ¬ writable 0x0FC := by
  unfold writable
  refine ⟨?_, ?_, ?_, ?_, ?_, ?_, ?_⟩ <;> rintro (h | ⟨j, hj, h⟩ | ⟨j, hj, h⟩) <;> omega

/-- A misaligned 32-bit access, an aligned 16-bit one, and the first offset past a word. -/
theorem witness_OnlyAlignedWordsExist :
    (∃ off : BitVec 8, off.toNat = 0x005 ∧ off.toNat % 4 ≠ 0) ∧ (∃ width : Nat, width ≠ 32) ∧
      (∃ (s : State) (rest : List Input), s.pending = .access (.read 0x05#8 32) :: rest) ∧
      ∃ (s : State) (rest : List Input), s.pending = .access (.write 0x10#8 16 1#32) :: rest :=
  ⟨⟨0x05#8, by decide⟩, ⟨16, by decide⟩, ⟨given (.access (.read 0x05#8 32)) State.reset, [], rfl⟩,
    given (.access (.write 0x10#8 16 1#32)) State.reset, [], rfl⟩

theorem witness_WriteThenReadReturnsWord : ∃ j : Nat, j = 3 ∧ j < 4 := ⟨3, rfl, by decide⟩

/-- A write of the first DIN word, of the last KEYW word and of the last CAND word, each changing its window; a read. -/
theorem witness_OnlyCmdWritesAreNotIdempotent :
    (∃ (a : Access) (s t : State), busAccess a s = .next t ∧ (∀ w, a ≠ .write 0x00#8 32 w) ∧ t.din ≠ s.din) ∧
      (∃ (a : Access) (s t : State), busAccess a s = .next t ∧ (∀ w, a ≠ .write 0x00#8 32 w) ∧ t.keyw ≠ s.keyw) ∧
      (∃ (a : Access) (s t : State), busAccess a s = .next t ∧ (∀ w, a ≠ .write 0x00#8 32 w) ∧ t.cand ≠ s.cand) ∧
      ∃ s t : State, busAccess (.read 0x6C#8 32) s = .next t :=
  ⟨⟨.write 0x10#8 32 1#32, State.reset, _, rfl, by simp, by decide⟩,
    ⟨.write 0x3C#8 32 1#32, State.reset, _, rfl, by simp, by decide⟩,
    ⟨.write 0x4C#8 32 1#32, State.reset, _, rfl, by simp, by decide⟩, State.reset, _, rfl⟩

/-- The last address inside the window and the first one past it. -/
theorem witness_WindowDecodesAtBase :
    (∃ addr : Nat, addr = Config.cmacBase + 0xFF ∧ Config.cmacBase ≤ addr ∧ addr < Config.cmacBase + 0x100) ∧
      ∃ addr : Nat, ¬ (Config.cmacBase ≤ addr ∧ addr < Config.cmacBase + 0x100) :=
  ⟨⟨Config.cmacBase + 0xFF, rfl, by omega, by omega⟩, Config.cmacBase + 0x100, by omega⟩

theorem witness_LegalProgramsNeverFault : ∃ s : State, s.pending.length = 3 ∧ s.ProgramLegal := by
  refine ⟨{ State.reset with
    pending := [.access (.write 0x20#8 32 1#32), .access (.write 0x00#8 32 0x00100001#32), .reset none] }, rfl, ?_⟩
  exact (by decide : ∀ i ∈ [Input.access (.write 0x20#8 32 1#32), .access (.write 0x00#8 32 0x00100001#32),
    .reset none], inputLegal i = true)

/-- A legal program, and one whose next input is an assertion of reset. -/
theorem witness_StepKeepsProgramLegal :
    (∃ s : State, s.pending.length = 3 ∧ s.ProgramLegal) ∧ ∃ s : State, s.pending = [.reset none] ∧ s.ProgramLegal :=
  ⟨witness_LegalProgramsNeverFault, given (.reset none) State.reset, rfl,
    (by decide : ∀ i ∈ [Input.reset none], inputLegal i = true)⟩

/-- Two active states that differ in the key, the chain and the pending bytes. -/
theorem witness_SecretsCannotBeRead :
    ∃ s t : State, s ≠ t ∧ s.din = t.din ∧ s.cand = t.cand ∧ s.dout = t.dout ∧ s.mode = t.mode ∧ s.varReg = t.varReg ∧
      s.klenReg = t.klenReg ∧ s.buf.length = t.buf.length ∧ s.err = t.err ∧ s.eq = t.eq ∧ s.errs = t.errs ∧
      (s.mode = .finalized → tagOf s = tagOf t) := by
  refine ⟨active .cmac [1#8], { active .cmac [2#8] with kreg := 5#256, chain := 7#128 }, ?_, rfl, rfl, rfl, rfl,
    rfl, rfl, rfl, rfl, rfl, rfl, fun h => (nomatch h)⟩
  intro h
  exact absurd (congrArg State.buf h) (by decide : [1#8] ≠ [2#8])

/-- Two finalized CMAC-96 states whose tags differ only past byte 12. -/
theorem witness_SecretsCannotBeRead_tag :
    ∃ s t : State, s.tag ≠ t.tag ∧ s.mode = .finalized ∧ t.mode = .finalized ∧ tagOf s = tagOf t :=
  ⟨{ State.reset with mode := .finalized, varReg := .cmac96 },
    { State.reset with mode := .finalized, varReg := .cmac96, tag := 1#128 }, by decide, rfl, rfl, by decide⟩

theorem witness_StatusWordFields : ∃ s : State, s.buf.length = 16 ∧ s.klenReg = 32 :=
  ⟨{ active .cmac (List.replicate 16 0#8) with klenReg := 32 }, rfl, rfl⟩

/-- Both variants in FINALIZED, whose bounds are byte 11 and byte 15, and a state that shows no tag. -/
theorem witness_ToutIsTruncatedTag :
    (∃ s : State, s.mode = .finalized ∧ tagLen s = 12) ∧ (∃ s : State, s.mode = .finalized ∧ s.varReg = .cmac) ∧
      ∃ s : State, s.mode ≠ .finalized :=
  ⟨⟨tagged .cmac96 tagK1, rfl, by decide⟩, ⟨tagged .cmac tagK1, rfl, rfl⟩, active .cmac [], by decide⟩

theorem witness_ComparatorDecidesEquality : ∃ a b : List Byte, a.length = b.length ∧ a ≠ b := ⟨[1#8], [2#8], rfl, by decide⟩

theorem witness_InitInstallsContext :
    (∃ klen : Nat, klen = 16 ∨ klen = 24 ∨ klen = 32) ∧ (∃ klen : Nat, klen ≠ 16 ∧ klen ≠ 24 ∧ klen ≠ 32) ∧
      (∃ s : State, s.errs = false) ∧ ∃ w, op w = 0x01 ∧ IllegalWord w :=
  ⟨⟨32, by decide⟩, ⟨33, by decide⟩, ⟨tagged .cmac96 tagK1, rfl⟩, 0x00100101#32, by unfold IllegalWord op len alen var; decide⟩

theorem witness_DoubleWritesDout : ∃ w, op w = 0x06 ∧ IllegalWord w :=
  ⟨0x00000106#32, by unfold IllegalWord op len alen var; decide⟩

/-- UPDATE: each mode, at LEN 0, 1 and 16, and a full buffer. -/
theorem witness_UpdateAbsorbsChunk :
    (∃ s : State, s.buf.length ≤ 16 ∧ s.mode = .unkeyed) ∧
      (∃ (n : Nat) (s : State), n = 0 ∧ s.buf.length ≤ 16 ∧ s.mode ≠ .unkeyed) ∧
      (∃ (n : Nat) (s : State), 1 ≤ n ∧ n ≤ 16 ∧ s.buf.length ≤ 16 ∧ s.mode = .finalized) ∧
      (∃ (n : Nat) (s : State), n = 16 ∧ s.buf.length = 16 ∧ s.mode = .active) ∧ ∃ w, op w = 0x02 ∧ IllegalWord w :=
  ⟨⟨State.reset, by decide⟩, ⟨0, tagged .cmac tagK1, by decide⟩, ⟨1, tagged .cmac tagK1, by decide⟩,
    ⟨16, active .cmac (List.replicate 16 0#8), by decide⟩,
    0x00001102#32, by unfold IllegalWord op len alen var; decide⟩

/-- The tag VERIFY computes does not depend on the candidate. -/
theorem finished_tag_of_cand (s : State) (c : Block) :
    (Expected.finished { s with cand := c }).tag = (Expected.finished s).tag := rfl

/-- The state after `INIT 16, 0` meets the hypotheses of the examples of R110 and R111; with its own tag as the candidate,
that of R112. -/
theorem witness_command_examples :
    (∃ s : State, s.mode = .active ∧ s.buf = [] ∧ s.klenReg = 16 ∧ s.varReg = .cmac ∧ s.errs = false) ∧
      ∃ s : State, s.mode = .active ∧ s.klenReg = 16 ∧ s.varReg = .cmac ∧ s.errs = false ∧
        s.cand = (finished s).tag := by
  exact ⟨⟨active .cmac [], rfl, rfl, rfl, rfl, rfl⟩,
    { active .cmac [] with cand := (Expected.finished (active .cmac [])).tag }, rfl, rfl, rfl, rfl,
    (finished_tag_of_cand _ _).symm⟩

theorem witness_FinalProducesTag :
    (∃ s : State, s.buf.length ≤ 16 ∧ s.mode = .unkeyed) ∧
      (∃ (n : Nat) (s : State), n = 0 ∧ s.buf.length ≤ 16 ∧ s.mode = .finalized) ∧
      (∃ (n : Nat) (s : State), 1 ≤ n ∧ n ≤ 16 ∧ s.buf.length ≤ 16 ∧ s.mode = .finalized) ∧
      (∃ (n : Nat) (s : State), n = 16 ∧ s.buf.length = 16 ∧ s.mode = .active) ∧ ∃ w, op w = 0x03 ∧ IllegalWord w :=
  ⟨⟨State.reset, by decide⟩, ⟨0, tagged .cmac tagK1, by decide⟩, ⟨1, tagged .cmac tagK1, by decide⟩,
    ⟨16, active .cmac (List.replicate 16 0#8), by decide⟩,
    0x00011003#32, by unfold IllegalWord op len alen var; decide⟩

theorem witness_VerifyComparesTag :
    (∃ s : State, s.buf.length ≤ 16 ∧ s.mode = .unkeyed) ∧
      (∃ (n clen : Nat) (s : State), 1 ≤ n ∧ n ≤ 16 ∧ clen = 16 ∧ s.buf.length ≤ 16 ∧ s.mode = .finalized) ∧
      (∃ (n clen : Nat) (s : State), n = 0 ∧ clen = 0 ∧ s.buf.length ≤ 16 ∧ s.mode = .finalized) ∧
      (∃ (n clen : Nat) (s : State), n = 16 ∧ clen = 12 ∧ s.buf.length = 16 ∧ s.mode = .active) ∧
      ∃ w, op w = 0x04 ∧ IllegalWord w :=
  ⟨⟨State.reset, by decide⟩, ⟨16, 16, tagged .cmac tagK1, by decide⟩, ⟨0, 0, tagged .cmac tagK1, by decide⟩,
    ⟨16, 12, active .cmac (List.replicate 16 0#8), by decide⟩,
    0x00110004#32, by unfold IllegalWord op len alen var; decide⟩

theorem witness_CteqReportsEquality :
    (∃ n clen : Nat, n = 16 ∧ clen = 0 ∧ n ≤ 16 ∧ clen ≤ 16) ∧ ∃ w, op w = 0x05 ∧ IllegalWord w :=
  ⟨⟨16, 0, by decide⟩, 0x00111005#32, by unfold IllegalWord op len alen var; decide⟩

/-- A CMD write that completes, with DOUT changed by DOUBLE. -/
theorem witness_CommandsKeepWindows : ∃ (w : Word) (s t : State), cmdWrite w s = .next t ∧ t.dout ≠ s.dout :=
  ⟨6#32, { State.reset with din := 1#128 }, _, rfl, by decide⟩

theorem witness_KeylessCommandsKeepContext :
    (∃ (w : Word) (s t : State), cmdWrite w s = .next t ∧ decode w = .ok .double) ∧
      (∃ (w : Word) (s t : State), cmdWrite w s = .next t ∧ ∃ n c, decode w = .ok (.cteq n c)) ∧
      ∃ (w : Word) (s t : State), cmdWrite w s = .next t ∧ ∃ e, decode w = .error e :=
  ⟨⟨6#32, active .cmac [], _, rfl, by decide⟩, ⟨0x00101005#32, active .cmac [], _, rfl, 16, 16, by decide⟩,
    7#32, active .cmac [], _, rfl, .unassignedOpcode, by decide⟩

/-- A step that changes the key register. -/
theorem witness_KeyMaterialWrittenByInitOnly : ∃ s t : State, step s = .next t ∧ t.kreg ≠ s.kreg :=
  ⟨{ State.reset with keyw := keyK }.withFetchWord 32 0x00100001, _, rfl, by decide⟩

/-- Steps that change the mode: INIT, FINAL and reset; each positive clause has a key length, a mode or an input that
meets it. -/
theorem witness_ModeTransitions :
    (∃ s t : State, step s = .next t ∧ s.mode = .unkeyed ∧ t.mode = .active) ∧
      (∃ s t : State, step s = .next t ∧ s.mode = .active ∧ t.mode = .finalized) ∧
      (∃ s t : State, step s = .next t ∧ s.mode = .finalized ∧ t.mode = .unkeyed) ∧
      (∃ klen : Nat, klen = 16 ∨ klen = 24 ∨ klen = 32) ∧ (∃ s : State, s.mode = .active) ∧
      ∃ (s : State) (cut : Option Access) (rest : List Input), s.pending = .reset cut :: rest :=
  ⟨⟨State.reset.withFetchWord 32 0x00100001, _, rfl, by decide⟩,
    ⟨(active .cmac []).withFetchWord 32 3, _, rfl, by decide⟩,
    ⟨given (.reset none) (tagged .cmac tagK1), _, rfl, by decide⟩, ⟨24, by decide⟩, ⟨active .cmac [], rfl⟩,
    given (.reset none) (active .cmac []), none, [], rfl⟩

/-- An error without effect (P7), and a TagMismatch (V-7). -/
theorem witness_ErrorsLeaveNoPartialState :
    (∃ (w : Word) (s t : State), cmdWrite w s = .next t ∧ t.err ≠ 0#4 ∧ t.err ≠ 3#4) ∧
      ∃ (w : Word) (s t : State), cmdWrite w s = .next t ∧ t.err = 3#4 :=
  ⟨⟨2#32, State.reset, _, rfl, by decide⟩, 4#32, tagged .cmac tagK1, _, rfl, by decide⟩

/-- A comparison that succeeds, an illegal word, and a legal command on a full buffer. -/
theorem witness_EveryCommandReports :
    (∃ (w : Word) (s t : State), cmdWrite w s = .next t ∧ t.eq = true) ∧ (∃ w, IllegalWord w) ∧
      ∃ (i : Instr) (s : State), i.wellFormed = true ∧ s.buf.length ≤ 16 ∧ s.buf.length = 16 ∧ s.mode = .active :=
  ⟨⟨5#32, State.reset, _, rfl, by decide⟩, ⟨0#32, witness_IllegalWordsOnlyReport.2.2.2.1⟩, .verify 16 16,
    active .cmac (List.replicate 16 0#8), by decide⟩

theorem witness_OneCodeByOrderOfChecks :
    (∃ w, IllegalWord w) ∧ ∃ (i : Instr) (s : State), i.wellFormed = true ∧ s.buf.length ≤ 16 ∧ s.mode = .finalized :=
  ⟨⟨0#32, witness_IllegalWordsOnlyReport.2.2.2.1⟩, .verify 16 16, tagged .cmac tagK1, by decide⟩

theorem witness_AesCallsPerCommand :
    (∃ (w : Word) (s : State) (i : Instr), s.buf.length ≤ 16 ∧ decode w = .ok i ∧ aesCallCount i s = 2) ∧
      ∃ (w : Word) (s : State), s.buf.length ≤ 16 ∧ ∃ e, decode w = .error e :=
  ⟨⟨0x00001003#32, active .cmac [0#8], .final 16, by decide⟩, 0#32, active .cmac [], by decide,
    .unassignedOpcode, by decide⟩

/-- A step from a state with the invariant, in each mode. -/
theorem witness_StepKeepsInvariant :
    (∃ s t : State, s.Inv ∧ step s = .next t ∧ s.mode = .active ∧ t.mode = .active) ∧
      (∃ s t : State, s.Inv ∧ step s = .next t ∧ s.mode = .finalized) ∧
      ∃ s t : State, s.Inv ∧ step s = .next t ∧ s.mode = .unkeyed :=
  ⟨⟨active .cmac [], _, active_inv _, rfl, rfl, rfl⟩, ⟨tagged .cmac tagK1, _, tagged_inv _ _, rfl, rfl⟩,
    State.reset, _, reset_inv, rfl, rfl⟩

/-- Chunks of 0, 16 and 1 bytes, whose message is not empty, and no chunk at all. -/
theorem witness_AbsorbDependsOnMessageOnly :
    (∃ (klen : Nat) (cs : List (Block × Nat)), (klen = 16 ∨ klen = 24 ∨ klen = 32) ∧ (∀ c ∈ cs, c.2 ≤ 16) ∧
        message cs ≠ []) ∧
      ∃ (klen : Nat) (cs : List (Block × Nat)), (klen = 16 ∨ klen = 24 ∨ klen = 32) ∧ (∀ c ∈ cs, c.2 ≤ 16) ∧
        message cs = [] :=
  ⟨⟨24, [(msgK2, 0), (msgK2, 16), (msgK2, 1)], by decide⟩, 32, [], by decide⟩

/-- One message in one chunk of 16 and in chunks of 7, 0 and 9 bytes. -/
theorem witness_AnySplitGivesSameContext :
    ∃ (klen : Nat) (cs cs' : List (Block × Nat)), cs ≠ cs' ∧ (klen = 16 ∨ klen = 24 ∨ klen = 32) ∧
      (∀ c ∈ cs, c.2 ≤ 16) ∧ (∀ c ∈ cs', c.2 ≤ 16) ∧ message cs = message cs' :=
  ⟨16, [(msgK2, 16)],
    [(msgK2, 7), (0#128, 0), (0x96e93d7e117393172a00000000000000#128, 9)], by decide⟩

theorem witness_EngineComputesCmac :
    ∃ (klen : Nat) (cs : List (Block × Nat)) (last : Block × Nat) (clen : Nat),
      (klen = 16 ∨ klen = 24 ∨ klen = 32) ∧ (∀ c ∈ cs, c.2 ≤ 16) ∧ last.2 ≤ 16 ∧ clen ≤ 16 :=
  ⟨16, [(msgK2, 16), (msgK2, 7)], (msgK2, 16), 16, by decide⟩

theorem witness_TruncatedTagIsPrefix :
    ∃ (klen : Nat) (cs : List (Block × Nat)) (last : Block × Nat),
      (klen = 16 ∨ klen = 24 ∨ klen = 32) ∧ (∀ c ∈ cs, c.2 ≤ 16) ∧ last.2 ≤ 16 :=
  ⟨32, [], (msgK2, 0), by decide⟩

theorem witness_VariantOnlyAtOutput :
    (∃ i : Instr, ∀ klen u, i ≠ .init klen u) ∧ (∃ i : Instr, ∀ n c, i ≠ .verify n c) ∧
      (∃ klen : Nat, klen = 16 ∨ klen = 24 ∨ klen = 32) ∧
      ∃ (n : Nat) (s : State), n ≤ 16 ∧ s.buf.length ≤ 16 ∧ s.mode = .active :=
  ⟨⟨.final 16, by simp⟩, ⟨.update 1, by simp⟩, ⟨16, by decide⟩, 16, active .cmac96 [0#8], by decide⟩

theorem witness_FinalizedContextConsequences :
    ∃ (n : Nat) (s t : State), s.buf.length ≤ 16 ∧ n ≤ 16 ∧ exec (.final n) s = .next t ∧ t.err = 0#4 :=
  ⟨16, active .cmac [0#8], _, by decide, by decide, rfl, by decide⟩

theorem witness_HostDigestIsCmac : ∃ s : State, s.Inv ∧ s.mode = .active ∧ s.buf = [] :=
  ⟨active .cmac96 [], active_inv _, rfl, rfl⟩

theorem witness_HostDigestStopsAtFirstError :
    (∃ (s : State) (data : List Byte), s.mode = .finalized ∧ data ≠ []) ∧
      (∃ (s : State) (data : List Byte), s.mode = .finalized ∧ data = []) ∧ ∃ s : State, s.mode = .unkeyed :=
  ⟨⟨tagged .cmac tagK1, [0#8], by decide⟩, ⟨tagged .cmac96 tagK1, [], by decide⟩, State.reset, rfl⟩

theorem witness_HostVerifyDecidesTag :
    ∃ (s : State) (data : List Byte), s.Inv ∧ s.mode = .active ∧ s.buf = [] ∧
      (∃ cand, cand = (bytesOf 16 (cmac s.key data)).take (tagLen s)) ∧
      (∃ cand, cand.length ≤ 16 ∧ cand ≠ (bytesOf 16 (cmac s.key data)).take (tagLen s)) ∧
      ∃ cand, 16 < cand.length ∧ cand ≠ (bytesOf 16 (cmac s.key data)).take (tagLen s) := by
  have short : ∀ t : Block, ((bytesOf 16 t).take 16).length = 16 := by simp
  refine ⟨active .cmac [], [], active_inv _, rfl, rfl, ⟨_, rfl⟩, ⟨[], by decide, fun h => ?_⟩,
    ⟨List.replicate 17 0#8, by decide, fun h => ?_⟩⟩ <;>
    · have := congrArg List.length h
      rw [show tagLen (active .cmac []) = 16 from by decide, short] at this
      simp at this

/-- Each clause: UNKEYED, FINALIZED with data, and without data with the tag and with a candidate of 17 bytes. -/
theorem witness_HostVerifyReportsEngineErrors :
    (∃ s : State, s.mode = .unkeyed) ∧
      (∃ (s : State) (data : List Byte), s.mode = .finalized ∧ data ≠ []) ∧
      (∃ (s : State) (data cand : List Byte), s.mode = .finalized ∧ data = [] ∧ cand = tagOf s) ∧
      ∃ (s : State) (data cand : List Byte), s.mode = .finalized ∧ data = [] ∧ cand.length = 17 ∧ cand ≠ tagOf s :=
  ⟨⟨State.reset, rfl⟩, ⟨tagged .cmac tagK1, [0#8], by decide⟩, ⟨tagged .cmac96 tagK1, [], _, rfl, rfl, rfl⟩,
    tagged .cmac tagK1, [], List.replicate 17 0#8, rfl, rfl, by decide, by decide⟩

theorem witness_EngineEqualComparesTags :
    (∃ (x y : HostVariant) (a b : State), a.Inv ∧ b.Inv ∧ x ≠ y) ∧
      (∃ (x y : HostVariant) (a b : State), a.Inv ∧ b.Inv ∧ x = y ∧ a.mode ≠ .unkeyed ∧ b.mode ≠ .unkeyed) ∧
      (∃ (x y : HostVariant) (a b : State), a.Inv ∧ b.Inv ∧ x = y ∧ a.mode = .unkeyed) ∧
      ∃ (x y : HostVariant) (a b : State), a.Inv ∧ b.Inv ∧ x = y ∧ a.mode ≠ .unkeyed ∧ b.mode = .unkeyed :=
  ⟨⟨.cmac, .cmac96, State.reset, State.reset, reset_inv, reset_inv, by decide⟩,
    ⟨.cmac, .cmac, active .cmac [], tagged .cmac tagK1, active_inv _, tagged_inv _ _, rfl, by decide, by decide⟩,
    ⟨.prf, .prf, State.reset, active .cmac [], reset_inv, active_inv _, rfl, rfl⟩,
    .cmac96, .cmac96, tagged .cmac96 tagK1, State.reset, tagged_inv _ _, reset_inv, rfl, by decide, rfl⟩

end Sys2Proof.Tests
end

section
/-! SUPPORT. What a host reads (R29, R38, R42): a window is its four words, a read depends on the observable state, and
each field of the STATUS word is the register it shows. -/

namespace Sys2Proof.Machine

open Sys2Proof.Expected

/-! ## Reads -/

/-- A 16-byte window is determined by its four words (R42). -/
theorem eq_of_wordAt_eq {u v : Block} (h : ∀ j, j < 4 → wordAt 16 u j = wordAt 16 v j) : u = v := by
  apply bytesOf_injective (n := 16) rfl
  rw [← bytes_of_words u, ← bytes_of_words v, h 0 (by decide), h 1 (by decide), h 2 (by decide), h 3 (by decide)]

/-- The observable state is exactly its five parts (R38). -/
theorem view_eq_iff (s t : State) :
    s.view = t.view ↔ s.din = t.din ∧ s.cand = t.cand ∧ s.tout = t.tout ∧ s.dout = t.dout ∧ s.status = t.status := by
  simp [State.view]

/-- A port reads alike in two states with the same observable state (R38, R44). -/
theorem readPort_of_view_eq {s t : State} (h : s.view = t.view) (p : Port) : readPort p s = readPort p t := by
  obtain ⟨hdin, hcand, htout, hdout, hstatus⟩ := (view_eq_iff s t).1 h
  cases p with
  | cmd => rfl
  | status => simp only [readPort, hstatus]
  | din j => simp only [readPort, hdin]
  | keyw j => rfl
  | cand j => simp only [readPort, hcand]
  | tout j => simp only [readPort, htout]
  | dout j => simp only [readPort, hdout]

/-- A read answers alike, at every offset and width, in two states with the same observable state (R38). -/
theorem busRead_of_view_eq {s t : State} (h : s.view = t.view) (off : BitVec 8) (width : Nat) :
    busRead off width s = busRead off width t := by
  unfold busRead
  cases selectPort off width with
  | ok p => exact readPort_of_view_eq h p
  | error e => rfl

/-- States that answer every read alike read alike at every port the map reaches. -/
theorem readPort_of_busRead_eq {s t : State} (h : ∀ off width, busRead off width s = busRead off width t)
    {off : BitVec 8} {width : Nat} {p : Port} (hp : selectPort off width = .ok p) : readPort p s = readPort p t := by
  simpa only [busRead, hp] using h off width

/-- States that answer every read alike have the same observable state: the reads reach STATUS and every word of the four
readable windows. -/
theorem view_eq_of_busRead_eq {s t : State} (h : ∀ off width, busRead off width s = busRead off width t) :
    s.view = t.view := by
  rw [view_eq_iff]
  refine ⟨eq_of_wordAt_eq fun j hj => ?_, eq_of_wordAt_eq fun j hj => ?_, eq_of_wordAt_eq fun j hj => ?_,
    eq_of_wordAt_eq fun j hj => ?_, ?_⟩
  · exact Except.ok.inj (readPort_of_busRead_eq h (selectPort_window hj (.inl ⟨rfl, rfl, rfl⟩)))
  · exact Except.ok.inj (readPort_of_busRead_eq h (selectPort_window hj (.inr (.inr (.inl ⟨rfl, rfl, rfl⟩)))))
  · exact Except.ok.inj (readPort_of_busRead_eq h (selectPort_window hj (.inr (.inr (.inr (.inl ⟨rfl, rfl, rfl⟩))))))
  · exact Except.ok.inj (readPort_of_busRead_eq h (selectPort_window hj (.inr (.inr (.inr (.inr ⟨rfl, rfl, rfl⟩))))))
  · exact Except.ok.inj (readPort_of_busRead_eq h (show selectPort 0x04#8 32 = .ok .status from rfl))

/-! ## The STATUS word -/

/-- A field reads back at its own bits. -/
theorem extractLsb'_placeAt_same {n lo : Nat} (v : BitVec n) (h : lo + n ≤ 32) :
    (placeAt lo v).extractLsb' lo n = v := by
  apply BitVec.eq_of_getLsbD_eq
  intro i hi
  have hin : lo + i < 32 := by omega
  simp [placeAt, hi, hin]

/-- A field has no bit outside its own. -/
theorem extractLsb'_placeAt_disjoint {m lo n pos : Nat} (v : BitVec m) (h : lo + m ≤ pos ∨ pos + n ≤ lo) :
    (placeAt lo v).extractLsb' pos n = 0#n := by
  apply BitVec.eq_of_getLsbD_eq
  intro i hi
  rcases h with h | h
  · simp [placeAt, hi, BitVec.getLsbD_of_ge v (pos + i - lo) (by omega)]
  · have hlt : pos + i < lo := by omega
    simp [placeAt, hlt]

theorem status_buflen (s : State) : s.status.extractLsb' 8 5 = BitVec.ofNat 5 s.buf.length := by
  simp [State.status, BitVec.extractLsb'_or, extractLsb'_placeAt_same, extractLsb'_placeAt_disjoint]

theorem status_klen (s : State) : s.status.extractLsb' 24 6 = BitVec.ofNat 6 s.klenReg := by
  simp [State.status, BitVec.extractLsb'_or, extractLsb'_placeAt_same, extractLsb'_placeAt_disjoint]

theorem status_reserved (s : State) :
    s.status.extractLsb' 13 3 = 0#3 ∧ s.status.extractLsb' 21 3 = 0#3 ∧ s.status.getLsbD 30 = false := by
  refine ⟨?_, ?_, ?_⟩
  · simp [State.status, BitVec.extractLsb'_or, extractLsb'_placeAt_disjoint]
  · simp [State.status, BitVec.extractLsb'_or, extractLsb'_placeAt_disjoint]
  · simp [State.status, placeAt]

/-- The one-bit fields KEYED, FIN, VAR and ERRS. -/
theorem status_bits (s : State) :
    s.status.getLsbD 5 = (s.mode != .unkeyed) ∧ s.status.getLsbD 6 = (s.mode == .finalized) ∧
      s.status.getLsbD 7 = s.varReg.bit.getLsbD 0 ∧ s.status.getLsbD 31 = s.errs := by
  simp [State.status, placeAt, bitOf]

theorem variant_bit_eq_true_iff (v : Variant) : v.bit.getLsbD 0 = true ↔ v = .cmac96 := by cases v <;> decide

/-- TLEN as R29 states it. -/
theorem tlen_eq (s : State) : s.tlen = if s.mode = .finalized then tagLen s else 0 := by
  unfold State.tlen tagLen
  cases s.mode <;> cases s.varReg <;> rfl

end Sys2Proof.Machine
end

section
/-! SUPPORT. What a command, a CMD write and a step leave alone (R14, R30 to R33, R161), each said once: the engine's
frame, the transitions of MODE, and the steps that keep the context. -/

namespace Sys2Proof.Machine

open Sys2Proof.Expected

/-! ## Commands -/

/-- An INIT with a legal key length installs its context and succeeds (R85). -/
theorem execState_init_of_valid {klen : Nat} (h : validKeyLength klen = true) (v : Variant) (s : State) :
    execState (.init klen v) s = report ((s.loadKey klen v).generateSubkeys.startContext) false none := by
  simp [execState, initBody, h]

/-- In ACTIVE, FINAL's body succeeds and finalizes, whatever its length (R111). -/
theorem finalBody_of_active {s : State} (h : s.mode = .active) (len : Nat) :
    ∃ s', finalBody len s = .ok s' ∧ s'.mode = .finalized := by
  by_cases hl : len = 0
  · exact ⟨finish s, by simp [finalBody, h, hl], rfl⟩
  · exact ⟨finish (absorb (s.dinSlice len) s), by simp [finalBody, h, Nat.pos_of_ne_zero hl], rfl⟩

/-- A success of FINAL's body keeps MODE or leads from ACTIVE to FINALIZED (R30). -/
theorem finalBody_ok_mode_cases {len : Nat} {s s' : State} (h : finalBody len s = .ok s') :
    s'.mode = s.mode ∨ (s.mode = .active ∧ s'.mode = .finalized) := by
  have hfin : s'.mode = .finalized := finalBody_ok_mode h
  cases hm : s.mode with
  | unkeyed => simp [finalBody, hm] at h
  | active => exact .inr ⟨rfl, hfin⟩
  | finalized => exact .inl hfin

/-- `t` is `s` up to what UPDATE, FINAL, VERIFY and the report write: MODE, BUF, CHAIN, TAG, ERR, EQ, ERRS and the AES
port. -/
def State.SameRegisters (s t : State) : Prop :=
  t = { s with
    mode := t.mode, buf := t.buf, chain := t.chain, tag := t.tag, err := t.err, eq := t.eq, errs := t.errs,
    aesCalls := t.aesCalls }

theorem State.SameRegisters.windows {s t : State} (h : s.SameRegisters t) :
    t.din = s.din ∧ t.keyw = s.keyw ∧ t.cand = s.cand ∧ t.pending = s.pending ∧ t.dout = s.dout := by
  rw [h]
  exact ⟨rfl, rfl, rfl, rfl, rfl⟩

theorem State.SameRegisters.keyMaterial {s t : State} (h : s.SameRegisters t) :
    t.kreg = s.kreg ∧ t.klenReg = s.klenReg ∧ t.varReg = s.varReg ∧ t.lreg = s.lreg ∧ t.k1reg = s.k1reg ∧
      t.k2reg = s.k2reg := by
  rw [h]
  exact ⟨rfl, rfl, rfl, rfl, rfl, rfl⟩

/-- A command is an INIT that succeeds, a DOUBLE, or keeps the registers. -/
theorem execState_frame_cases (i : Instr) (s : State) :
    (∃ klen v, i = .init klen v ∧ validKeyLength klen = true ∧
      execState i s = report ((s.loadKey klen v).generateSubkeys.startContext) false none) ∨
    (i = .double ∧ execState i s = report { s with dout := dbl s.din } false none) ∨
    s.SameRegisters (execState i s) := by
  rcases execState_cases i s with hinit | ⟨e, _, _, he⟩ | ⟨len, _, _, _, he⟩ | ⟨_, _, he⟩ | ⟨len, s', _, hf, he⟩ |
    ⟨len, clen, s', _, hf, he⟩ | ⟨len, clen, _, he⟩ | hdouble
  · exact .inl hinit
  · exact .inr (.inr (by rw [he]; exact rfl))
  · exact .inr (.inr (by rw [he, absorb_frame]; exact rfl))
  · exact .inr (.inr (by rw [he]; exact rfl))
  · exact .inr (.inr (by rw [he, finalBody_frame hf]; exact rfl))
  · exact .inr (.inr (by rw [he, finalBody_frame hf]; exact rfl))
  · exact .inr (.inr (by rw [he]; exact rfl))
  · exact .inr (.inl hdouble)

/-- A command keeps MODE, or is an INIT that succeeds, or a FINAL or VERIFY that finalizes an ACTIVE context (R30,
R112). -/
theorem execState_mode_cases (i : Instr) (s : State) :
    (execState i s).mode = s.mode ∨
    (∃ klen v, i = .init klen v ∧ (execState i s).mode = .active ∧ (execState i s).err = 0#4) ∨
    (s.mode = .active ∧ (execState i s).mode = .finalized ∧
      ((∃ n, i = .final n) ∨ ∃ n c, i = .verify n c)) := by
  rcases execState_cases i s with ⟨klen, v, hi, _, he⟩ | ⟨e, _, _, he⟩ | ⟨len, _, _, _, he⟩ | ⟨_, _, he⟩ |
    ⟨len, s', hi, hf, he⟩ | ⟨len, clen, s', hi, hf, he⟩ | ⟨len, clen, _, he⟩ | ⟨_, he⟩ <;> rw [he]
  · exact .inr (.inl ⟨klen, v, hi, rfl, rfl⟩)
  · exact .inl rfl
  · exact .inl (absorb_mode _ s)
  · exact .inl rfl
  · exact (finalBody_ok_mode_cases hf).imp_right fun ⟨ha, hm⟩ => .inr ⟨ha, hm, .inl ⟨len, hi⟩⟩
  · exact (finalBody_ok_mode_cases hf).imp_right fun ⟨ha, hm⟩ => .inr ⟨ha, hm, .inr ⟨len, clen, hi⟩⟩
  · exact .inl rfl
  · exact .inl rfl

/-- FINAL and VERIFY finalize an ACTIVE context, VERIFY whatever its comparison answers (R30, R112). -/
theorem execState_finalizes {s : State} (h : s.mode = .active) (n c : Nat) :
    (execState (.final n) s).mode = .finalized ∧ (execState (.verify n c) s).mode = .finalized := by
  obtain ⟨s', hf, hm⟩ := finalBody_of_active h n
  simp [execState, hf, compareTag, hm]

/-! ## CMD writes -/

/-- A CMD write runs the command of its word, or reports an illegal word (R60, R68). -/
theorem commandState_cases (w : Word) (s : State) :
    (∃ i, decode w = .ok i ∧ commandState w s = execState i s) ∨
      commandState w s = report s false (some .illegalCommand) := by
  unfold commandState
  cases decode w with
  | ok i => exact .inl ⟨i, rfl, rfl⟩
  | error e => exact .inr rfl

/-- The frame of `execState_frame_cases`, for every command word (R68). -/
theorem commandState_frame_cases (w : Word) (s : State) :
    (∃ klen v, decode w = .ok (.init klen v) ∧ validKeyLength klen = true ∧
      commandState w s = report ((s.loadKey klen v).generateSubkeys.startContext) false none) ∨
    (decode w = .ok .double ∧ commandState w s = report { s with dout := dbl s.din } false none) ∨
    s.SameRegisters (commandState w s) := by
  rcases commandState_cases w s with ⟨i, hd, hc⟩ | hc
  · rw [hc, hd]
    simpa only [Except.ok.injEq] using execState_frame_cases i s
  · exact .inr (.inr (by rw [hc]; exact rfl))

/-- The transitions of `execState_mode_cases`, for every command word. -/
theorem commandState_mode_cases (w : Word) (s : State) :
    (commandState w s).mode = s.mode ∨
    (∃ klen v, decode w = .ok (.init klen v) ∧ (commandState w s).mode = .active ∧ (commandState w s).err = 0#4) ∨
    (s.mode = .active ∧ (commandState w s).mode = .finalized ∧
      ((∃ n, decode w = .ok (.final n)) ∨ ∃ n c, decode w = .ok (.verify n c))) := by
  rcases commandState_cases w s with ⟨i, hd, hc⟩ | hc
  · rw [hc, hd]
    simpa only [Except.ok.injEq] using execState_mode_cases i s
  · exact .inl (by rw [hc]; rfl)

/-- A CMD write given to the core answers the command's state (R45). -/
theorem cmdWrite_eq (w : Word) (s : State) : cmdWrite w s = .next (commandState w (s.respond .written)) := by
  rw [← runCommand_eq]
  exact step_cmd rfl

/-! ## The step -/

/-- An assertion of reset answers the state of R180. -/
theorem step_reset {s : State} {cut : Option Access} {rest : List Input} (h : s.pending = .reset cut :: rest) :
    step s = .next (takeReset cut rest) := by
  simp [step, stepInput, h]

/-- Only an assertion of reset and a CMD write can change the engine's context. -/
theorem step_context_cases {s t : State} (h : step s = .next t) :
    t.context = s.context ∨
    (∃ cut rest, s.pending = .reset cut :: rest ∧ t = takeReset cut rest) ∨
    (∃ rest w, s.pending = .access (.write 0x00#8 32 w) :: rest ∧ t = commandState w (s.taking rest .written)) := by
  rcases step_next_cases h with ⟨_, rfl⟩ | hreset | ⟨_, _, _, _, _, rfl⟩ | hcmd | ⟨_, _, _, _, _, rfl | rfl | rfl⟩
  · exact .inl rfl
  · exact .inr (.inl hreset)
  · exact .inl rfl
  · exact .inr (.inr hcmd)
  · exact .inl rfl
  · exact .inl rfl
  · exact .inl rfl

/-- Every step keeps MODE or changes it by one of the transitions of R30 and R112. -/
theorem step_mode_cases {s t : State} (h : step s = .next t) :
    t.mode = s.mode ∨
    (t.mode = .unkeyed ∧ ∃ cut rest, s.pending = .reset cut :: rest) ∨
    (t.mode = .active ∧ t.err = 0#4 ∧ ∃ w rest klen v, s.pending = .access (.write 0x00#8 32 w) :: rest ∧
      decode w = .ok (.init klen v)) ∨
    (s.mode = .active ∧ t.mode = .finalized ∧ ∃ w rest, s.pending = .access (.write 0x00#8 32 w) :: rest ∧
      ((∃ n, decode w = .ok (.final n)) ∨ ∃ n c, decode w = .ok (.verify n c))) := by
  rcases step_context_cases h with hkeep | ⟨cut, rest, hp, rfl⟩ | ⟨rest, w, hp, rfl⟩
  · exact .inl ((context_eq_iff t s).1 hkeep).1
  · exact .inr (.inl ⟨rfl, cut, rest, hp⟩)
  · rcases commandState_mode_cases w (s.taking rest .written) with hkeep | ⟨klen, v, hd, hm, he⟩ | ⟨ha, hm, hd⟩
    · exact .inl hkeep
    · exact .inr (.inr (.inl ⟨hm, he, w, rest, klen, v, hp, hd⟩))
    · exact .inr (.inr (.inr ⟨ha, hm, w, rest, hp, hd⟩))

end Sys2Proof.Machine
end

section
/-! PROOF. The statements of spec/10_state.md about what the host reads, what a CMD write leaves alone, and what a step
can change: O19, O21, O32, O34 and O35. -/

namespace Sys2Proof.Machine

/-- Settles O19: a read depends on the observable state alone (`busRead_of_view_eq`), and the reads reach every part of
it (`view_eq_of_busRead_eq`). -/
theorem observableStateIsExact : Obligations.ObservableStateIsExact := fun _ _ =>
  ⟨view_eq_of_busRead_eq, busRead_of_view_eq⟩

/-- Settles O21: field by field, by the law of each field of the word; a buffer of at most 16 bytes and a key length of at
most 32 fit the 5 and 6 bits they have. -/
theorem statusWordFields : Obligations.StatusWordFields := by
  refine ⟨fun s hbuf hklen => ?_, fun _ => rfl, fun _ _ => trivial, by decide⟩
  obtain ⟨hres13, hres21, hres30⟩ := status_reserved s
  obtain ⟨hkeyed, hfin, hvar, herrs⟩ := status_bits s
  refine ⟨statusErr_status s, statusEq_status s, ?_, ?_, ?_, ?_, hres13, ?_, hres21, ?_, hres30, herrs⟩
  · rw [hkeyed, bne_iff_ne]
  · rw [hfin, beq_iff_eq]
  · rw [hvar, variant_bit_eq_true_iff]
  · rw [status_buflen, BitVec.toNat_ofNat]
    exact Nat.mod_eq_of_lt (by omega)
  · exact (statusTlen_status s).trans (tlen_eq s)
  · rw [status_klen, BitVec.toNat_ofNat]
    exact Nat.mod_eq_of_lt (by omega)

/-- Settles O32: a CMD write is an INIT, a DOUBLE, or keeps every window (`commandState_frame_cases`). -/
theorem commandsKeepWindows : Obligations.CommandsKeepWindows := by
  intro w s t h
  rw [cmdWrite_eq] at h
  cases h
  rcases commandState_frame_cases w (s.respond .written) with ⟨klen, v, _, _, hc⟩ | ⟨hdouble, hc⟩ | hc
  · rw [hc]
    exact ⟨rfl, rfl, rfl, rfl, fun hne => absurd rfl hne⟩
  · rw [hc]
    exact ⟨rfl, rfl, rfl, rfl, fun _ => hdouble⟩
  · obtain ⟨hdin, hkeyw, hcand, hpending, hdout⟩ := hc.windows
    exact ⟨hdin, hkeyw, hcand, hpending, fun hne => absurd hdout hne⟩

/-- Settles O34: only reset and a CMD write change the context (`step_context_cases`), and of the CMD writes only a
successful INIT reaches the key material (`commandState_frame_cases`). -/
theorem keyMaterialWrittenByInitOnly : Obligations.KeyMaterialWrittenByInitOnly := by
  intro s t h
  rcases step_context_cases h with hkeep | ⟨cut, rest, hp, _⟩ | ⟨rest, w, hp, rfl⟩
  · obtain ⟨_, hkreg, hklen, hvar, hl, hk1, hk2, _⟩ := (context_eq_iff t s).1 hkeep
    exact .inl ⟨hkreg, hklen, hvar, hl, hk1, hk2⟩
  · exact .inr (.inl ⟨cut, rest, hp⟩)
  · rcases commandState_frame_cases w (s.taking rest .written) with ⟨klen, v, hd, hk, hc⟩ | ⟨_, hc⟩ | hc
    · exact .inr (.inr ⟨w, rest, klen, v, hp, hd, (validKeyLength_iff klen).1 hk, by rw [hc]; rfl⟩)
    · exact .inl (by rw [hc]; exact ⟨rfl, rfl, rfl, rfl, rfl, rfl⟩)
    · exact .inl hc.keyMaterial

/-- Settles O35: each transition of R30 and R112, and none other over every step (`step_mode_cases`). -/
theorem modeTransitions : Obligations.ModeTransitions := by
  refine ⟨fun klen v s hk => ?_, fun n c s ha => ?_, fun s cut rest hp => ?_, rfl, fun s t => step_mode_cases⟩
  · refine ⟨_, exec_eq (.init klen v) s, ?_⟩
    rw [execState_init_of_valid ((validKeyLength_iff klen).2 hk)]
    exact ⟨rfl, rfl⟩
  · obtain ⟨hfinal, hverify⟩ := execState_finalizes ha n c
    exact ⟨⟨_, exec_eq (.final n) s, hfinal⟩, ⟨_, exec_eq (.verify n c) s, hverify⟩⟩
  · exact ⟨_, step_reset hp, rfl⟩

end Sys2Proof.Machine
end

section
/-! SUPPORT. The register window, each fact said once: the map in both directions (R41, R43), which accesses are legal
(R44, R45), the bytes and words of a window (R42), and what one transaction answers. -/

namespace Sys2Proof.Machine

open Sys2Proof.Expected

/-! ## The map -/

/-- The byte offset of a port in the register window (R41). -/
def Port.offset : Port → Nat
  | .cmd => 0x000
  | .status => 0x004
  | .din j => 0x010 + 4 * j
  | .keyw j => 0x020 + 4 * j
  | .cand j => 0x040 + 4 * j
  | .tout j => 0x050 + 4 * j
  | .dout j => 0x060 + 4 * j

/-- The word a port names lies inside its window (R23 to R27). -/
def Port.Mapped : Port → Prop
  | .cmd => True
  | .status => True
  | .din j => j < 4
  | .keyw j => j < 8
  | .cand j => j < 4
  | .tout j => j < 4
  | .dout j => j < 4

theorem portAt_eq_some {off : Nat} {p : Port} (hal : off % 4 = 0) (h : portAt off = some p) :
    p.Mapped ∧ off = p.offset := by
  unfold portAt at h
  split_ifs at h <;> cases h <;> simp only [Port.Mapped, Port.offset, true_and] <;> omega

/-- The port at a mapped offset (R41). -/
theorem portAt_offset {p : Port} (h : p.Mapped) : portAt p.offset = some p := by
  cases p with
  | cmd => rfl
  | status => rfl
  | din j => exact portAt_window h _ rfl (.inl ⟨rfl, rfl, rfl⟩)
  | keyw j => exact portAt_window h _ rfl (.inr (.inl ⟨rfl, rfl, rfl⟩))
  | cand j => exact portAt_window h _ rfl (.inr (.inr (.inl ⟨rfl, rfl, rfl⟩)))
  | tout j => exact portAt_window h _ rfl (.inr (.inr (.inr (.inl ⟨rfl, rfl, rfl⟩))))
  | dout j => exact portAt_window h _ rfl (.inr (.inr (.inr (.inr ⟨rfl, rfl, rfl⟩))))

theorem Port.offset_mod_four (p : Port) : p.offset % 4 = 0 := by
  cases p <;> simp only [Port.offset] <;> omega

theorem Port.Mapped.offset_lt {p : Port} (h : p.Mapped) : p.offset < 256 := by
  cases p <;> simp only [Port.Mapped] at h <;> simp only [Port.offset] <;> omega

/-- The map in both directions: an access names a port exactly when it is 32 bits wide and at the port's offset (R41,
R43). -/
theorem selectPort_eq_ok_iff {off : BitVec 8} {width : Nat} {p : Port} :
    selectPort off width = .ok p ↔ width = 32 ∧ p.Mapped ∧ off.toNat = p.offset := by
  constructor
  · intro h
    refine ⟨selectPort_width h, ?_⟩
    unfold selectPort at h
    split_ifs at h with hal
    split at h <;> cases h
    exact portAt_eq_some (by omega) ‹_›
  · rintro ⟨rfl, hm, ho⟩
    simp [selectPort, ho, p.offset_mod_four, portAt_offset hm]

/-- The port's own offset, as the bus writes it, names the port. -/
theorem selectPort_offset {p : Port} (h : p.Mapped) : selectPort (BitVec.ofNat 8 p.offset) 32 = .ok p :=
  selectPort_eq_ok_iff.2 ⟨rfl, h, by rw [BitVec.toNat_ofNat, Nat.mod_eq_of_lt h.offset_lt]⟩

/-- The offset of a mapped access is its port's, as a bit vector. -/
theorem selectPort_eq_ok {off : BitVec 8} {width : Nat} {p : Port} (h : selectPort off width = .ok p) :
    width = 32 ∧ p.Mapped ∧ off = BitVec.ofNat 8 p.offset := by
  obtain ⟨hwidth, hm, ho⟩ := selectPort_eq_ok_iff.1 h
  exact ⟨hwidth, hm, by rw [← ho, BitVec.ofNat_toNat, BitVec.setWidth_eq]⟩

/-! ## Accesses that are no bus error -/

/-- A legal read is 32 bits wide, at a readable offset (R43, R44). -/
theorem readable_of_accessLegal {off : BitVec 8} {width : Nat} (h : accessLegal (.read off width) = true) :
    width = 32 ∧ readable off.toNat := by
  cases hp : selectPort off width with
  | error e => simp [accessLegal, hp] at h
  | ok p =>
    obtain ⟨h32, hm, ho⟩ := selectPort_eq_ok_iff.1 hp
    refine ⟨h32, ?_⟩
    cases p with
    | cmd => simp [accessLegal, hp] at h
    | status => exact .inl ho
    | din j => exact .inr ⟨j, hm, .inl ho⟩
    | keyw j => simp [accessLegal, hp] at h
    | cand j => exact .inr ⟨j, hm, .inr (.inl ho)⟩
    | tout j => exact .inr ⟨j, hm, .inr (.inr (.inl ho))⟩
    | dout j => exact .inr ⟨j, hm, .inr (.inr (.inr ho))⟩

/-- A legal write is 32 bits wide, at a writable offset (R43, R45). -/
theorem writable_of_accessLegal {off : BitVec 8} {width : Nat} {w : Word}
    (h : accessLegal (.write off width w) = true) : width = 32 ∧ writable off.toNat := by
  cases hp : selectPort off width with
  | error e => simp [accessLegal, hp] at h
  | ok p =>
    obtain ⟨h32, hm, ho⟩ := selectPort_eq_ok_iff.1 hp
    refine ⟨h32, ?_⟩
    cases p with
    | cmd => exact .inl ho
    | status => simp [accessLegal, hp] at h
    | din j => exact .inr (.inl ⟨j, hm, .inl ho⟩)
    | keyw j => exact .inr (.inr ⟨j, hm, ho⟩)
    | cand j => exact .inr (.inl ⟨j, hm, .inr ho⟩)
    | tout j => simp [accessLegal, hp] at h
    | dout j => simp [accessLegal, hp] at h

theorem readable_mod_four {off : Nat} (h : readable off) : off % 4 = 0 := by
  rcases h with h | ⟨j, _, h | h | h | h⟩ <;> omega

theorem writable_mod_four {off : Nat} (h : writable off) : off % 4 = 0 := by
  rcases h with h | ⟨j, _, h | h⟩ | ⟨j, _, h⟩ <;> omega

/-- A transaction that is not legal is a bus error (R46). -/
theorem busErrorOf_busAccess {a : Access} (h : accessLegal a ≠ true) (s : State) : busErrorOf (busAccess a s) := by
  rcases busAccess_cases a s with hnext | ⟨e, he⟩
  · exact absurd ((busAccess_next_iff a s).1 hnext) h
  · rw [he]
    trivial

/-! ## The words of a window -/

/-- A word is its four lanes (R42). -/
theorem word_eq_lanes (w : Word) :
    w = BitVec.ofNat 32 ((byteAt 4 w 0).toNat * 2 ^ 24 + (byteAt 4 w 1).toNat * 2 ^ 16 + (byteAt 4 w 2).toNat * 2 ^ 8 +
      (byteAt 4 w 3).toNat) := by
  apply BitVec.eq_of_toNat_eq
  have hlt := w.isLt
  simp only [byteAt, BitVec.extractLsb'_toNat, BitVec.toNat_ofNat, Nat.shiftRight_eq_div_pow]
  omega

/-- Byte `k` of window word `j` is byte `4j + k` of the window (R42). -/
theorem byteAt_wordAt {m n j k : Nat} (hj : 4 * j + 3 < n) (hk : k < 4) (v : BitVec m) :
    byteAt 4 (wordAt n v j) k = byteAt n v (4 * j + k) := wordAt_lane hj hk v

/-- The word a window's port reads as is the word R42 assembles. -/
theorem wordAt_eq_windowWordOf {j : Nat} (hj : j < 4) (v : Block) : wordAt 16 v j = windowWordOf v j := by
  have hlast : 4 * j + 3 < 16 := by omega
  rw [word_eq_lanes (wordAt 16 v j)]
  simp only [byteAt_wordAt hlast, Nat.zero_lt_succ, Nat.reduceLT, Nat.add_zero, windowWordOf]

/-- A word write is the write of R45, byte by byte. -/
theorem isWordWrite_setWordAt {m n j : Nat} (hm : m = 8 * n) (hj : 4 * j + 3 < n) (v : BitVec m) (w : Word) :
    IsWordWrite n v (setWordAt n v j w) j w := by
  have lane : ∀ k, k < 4 → byteAt n (setWordAt n v j w) (4 * j + k) = w.extractLsb' (8 * (3 - k)) 8 := by
    intro k hk
    rw [byteAt_setWordAt hm hj (by omega), if_pos (by omega), Nat.add_sub_cancel_left]
  refine ⟨lane 0 (by omega), lane 1 (by omega), lane 2 (by omega), lane 3 (by omega), fun i hi hout => ?_⟩
  rw [byteAt_setWordAt hm hj hi, if_neg hout]

/-- After a word write, that word reads as the word written and every other word as before (R42, R45). -/
theorem wordAt_setWordAt {m n j k : Nat} (hm : m = 8 * n) (hj : 4 * j + 3 < n) (hk : 4 * k + 3 < n) (v : BitVec m)
    (w : Word) : wordAt n (setWordAt n v j w) k = if k = j then w else wordAt n v k := by
  apply eq_of_byteAt_eq (n := 4) rfl
  intro i hi
  rw [byteAt_wordAt hk hi, byteAt_setWordAt hm hj (by omega)]
  by_cases hkj : k = j
  · subst hkj
    rw [if_pos (by omega), if_pos rfl, Nat.add_sub_cancel_left]
    rfl
  · rw [if_neg (by omega), if_neg hkj, byteAt_wordAt hk hi]

/-! ## One transaction -/

theorem runCommand_of_ok {w : Word} {i : Instr} (h : decode w = .ok i) (s : State) : runCommand w s = exec i s := by
  simp [runCommand, h]

/-- An illegal word only reports IllegalCommand (R68). -/
theorem runCommand_of_error {w : Word} {e : DecodeError} (h : decode w = .error e) (s : State) :
    runCommand w s = .next (reported 5#4 false s) := by
  simp only [runCommand, h]
  rfl

theorem busAccess_read_of_ok {off : BitVec 8} {width : Nat} {s : State} {w : Word} (h : busRead off width s = .ok w) :
    busAccess (.read off width) s = .next (s.respond (.data w)) := by
  simp [busAccess, h]

theorem busRead_of_port {off : BitVec 8} {width : Nat} {p : Port} (h : selectPort off width = .ok p) (s : State) :
    busRead off width s = readPort p s := by
  simp [busRead, h]

theorem busAccess_write_of_port {off : BitVec 8} {width : Nat} {p : Port} (h : selectPort off width = .ok p) (w : Word)
    (s : State) : busAccess (.write off width w) s = writePort p w (s.respond .written) := by
  simp [busAccess, h]

/-- A write of a window word is idempotent (R47). -/
theorem writePort_again {p : Port} {w : Word} {s t : State} (hp : p ≠ .cmd)
    (h : writePort p w (s.respond .written) = .next t) : writePort p w (t.respond .written) = .next t := by
  cases p with
  | cmd => exact absurd rfl hp
  | din j =>
    cases h
    simp only [writePort, respond_din, setWordAt_twice rfl]
    rfl
  | keyw j =>
    cases h
    simp only [writePort, respond_keyw, setWordAt_twice rfl]
    rfl
  | cand j =>
    cases h
    simp only [writePort, respond_cand, setWordAt_twice rfl]
    rfl
  | status => cases h
  | tout j => cases h
  | dout j => cases h

/-- A completed access that is no CMD write is idempotent (R47). -/
theorem busAccess_again {a : Access} {s t : State} (h : busAccess a s = .next t) (hcmd : ∀ w, a ≠ .write 0x00#8 32 w) :
    busAccess a t = .next t := by
  cases a with
  | read off width =>
    rcases busAccess_read off width s with ⟨w, hw, hb⟩ | ⟨e, _, hb⟩ <;> rw [hb] at h <;> cases h
    exact busAccess_read_of_ok ((busRead_of_view_eq rfl off width).trans hw)
  | write off width w =>
    cases hp : selectPort off width with
    | error e => simp [busAccess, hp] at h
    | ok p =>
      have hne : p ≠ .cmd := by
        rintro rfl
        obtain ⟨rfl, rfl⟩ := (selectPort_cmd_iff off width).1 hp
        exact hcmd w rfl
      rw [busAccess_write_of_port hp] at h ⊢
      exact writePort_again hne h

/-- A completed read changes nothing but the response (R44). -/
theorem busAccess_read_frame {off : BitVec 8} {width : Nat} {s t : State} (h : busAccess (.read off width) s = .next t) :
    t = { s with response := t.response } := by
  rcases busAccess_read off width s with ⟨w, _, hb⟩ | ⟨e, _, hb⟩ <;> cases hb.symm.trans h
  rfl

/-- What each port reads as after a write of a DIN word. -/
theorem readPort_din_write {j : Nat} (hj : j < 4) (w : Word) (s : State) {p : Port} (hp : p.Mapped) :
    readPort p { s.respond .written with din := setWordAt 16 s.din j w } =
      if p = .din j then .ok w else readPort p s := by
  cases p with
  | din k =>
    have hk : k < 4 := hp
    simp only [readPort, wordAt_setWordAt rfl (show 4 * j + 3 < 16 by omega) (show 4 * k + 3 < 16 by omega),
      Port.din.injEq]
    split <;> rfl
  | cmd => rfl
  | status => rfl
  | keyw k => rfl
  | cand k => rfl
  | tout k => rfl
  | dout k => rfl

/-- What each port reads as after a write of a CAND word. -/
theorem readPort_cand_write {j : Nat} (hj : j < 4) (w : Word) (s : State) {p : Port} (hp : p.Mapped) :
    readPort p { s.respond .written with cand := setWordAt 16 s.cand j w } =
      if p = .cand j then .ok w else readPort p s := by
  cases p with
  | cand k =>
    have hk : k < 4 := hp
    simp only [readPort, wordAt_setWordAt rfl (show 4 * j + 3 < 16 by omega) (show 4 * k + 3 < 16 by omega),
      Port.cand.injEq]
    split <;> rfl
  | cmd => rfl
  | status => rfl
  | din k => rfl
  | keyw k => rfl
  | tout k => rfl
  | dout k => rfl

/-- A write that changes what its own port reads as and no other port's changes what its own offset reads as and no other
offset's, at any width. -/
theorem write_then_read {p : Port} {w : Word} {s t : State} (hp : p.Mapped)
    (hw : writePort p w (s.respond .written) = .next t)
    (hr : ∀ q : Port, q.Mapped → readPort q t = if q = p then .ok w else readPort q s) :
    busAccess (.write (BitVec.ofNat 8 p.offset) 32 w) s = .next t ∧
      busRead (BitVec.ofNat 8 p.offset) 32 t = .ok w ∧
      ∀ (off : BitVec 8) (width : Nat), off.toNat ≠ p.offset → busRead off width t = busRead off width s := by
  refine ⟨?_, ?_, fun off width hne => ?_⟩
  · rw [busAccess_write_of_port (selectPort_offset hp), hw]
  · rw [busRead_of_port (selectPort_offset hp), hr p hp, if_pos rfl]
  · cases hq : selectPort off width with
    | error e => simp only [busRead, hq]
    | ok q =>
      obtain ⟨_, hm, ho⟩ := selectPort_eq_ok_iff.1 hq
      have hqp : q ≠ p := by
        rintro rfl
        exact hne ho
      rw [busRead_of_port hq, busRead_of_port hq, hr q hm, if_neg hqp]

/-! ## The step that takes a transaction -/

theorem step_access {s : State} {a : Access} {rest : List Input} (h : s.pending = .access a :: rest) :
    step s = busAccess a { s with pending := rest } := by
  simp [step, stepInput, h]

/-- A step on an access that is not legal is a bus error (R46). -/
theorem step_busError {s : State} {a : Access} {rest : List Input} (h : s.pending = .access a :: rest)
    (ha : accessLegal a ≠ true) : busErrorOf (step s) := by
  rw [step_access h]
  exact busErrorOf_busAccess ha _

/-- A step on a read of a mapped port answers the port's word and changes nothing else of the core (R44). -/
theorem step_read {s : State} {off : BitVec 8} {rest : List Input} {p : Port} {w : Word}
    (h : s.pending = .access (.read off 32) :: rest) (hm : p.Mapped) (ho : off.toNat = p.offset)
    (hr : readPort p s = .ok w) : step s = .next { s with pending := rest, response := some (.data w) } := by
  have hread : busRead off 32 { s with pending := rest } = .ok w := by
    rw [busRead_of_port (selectPort_eq_ok_iff.2 ⟨rfl, hm, ho⟩)]
    exact (readPort_of_view_eq rfl p).trans hr
  rw [step_access h, busAccess_read_of_ok hread]
  rfl

/-- A step on a write of a mapped port writes the port, in the state in which the write is taken and answered (R45). -/
theorem step_write {s : State} {off : BitVec 8} {rest : List Input} {p : Port} {w : Word}
    (h : s.pending = .access (.write off 32 w) :: rest) (hm : p.Mapped) (ho : off.toNat = p.offset) :
    step s = writePort p w { s with pending := rest, response := some .written } := by
  rw [step_access h, busAccess_write_of_port (selectPort_eq_ok_iff.2 ⟨rfl, hm, ho⟩)]
  rfl

/-- No command changes the inputs that are still to come (R20). -/
@[simp] theorem commandState_pending (w : Word) (s : State) : (commandState w s).pending = s.pending := by
  rcases commandState_frame_cases w s with ⟨klen, v, _, _, hc⟩ | ⟨_, hc⟩ | hc
  · rw [hc]
    rfl
  · rw [hc]
    rfl
  · obtain ⟨_, _, _, hpending, _⟩ := hc.windows
    exact hpending

/-- No transaction changes the inputs that are still to come (R49). -/
theorem busAccess_pending {a : Access} {s t : State} (h : busAccess a s = .next t) : t.pending = s.pending := by
  cases a with
  | read off width =>
    rcases busAccess_read off width s with ⟨w, _, hb⟩ | ⟨e, _, hb⟩ <;> rw [hb] at h <;> cases h
    rfl
  | write off width w =>
    rcases busAccess_write off width w s with ⟨_, hb⟩ | ⟨j, _, hb⟩ | ⟨j, _, hb⟩ | ⟨j, _, hb⟩ | ⟨e, hb⟩ <;>
      rw [hb] at h <;> cases h
    · exact commandState_pending w _
    · rfl
    · rfl
    · rfl

/-! ## The address decode -/

/-- An address in the page of the window is an address of its 0x100 bytes (R40). -/
theorem page_eq_iff (addr : Nat) :
    addr / 0x100 = Config.cmacPage ↔ Config.cmacBase ≤ addr ∧ addr < Config.cmacBase + 0x100 := by
  unfold Config.cmacBase
  omega

/-- Inside the window the decode answers the offset from CMAC_BASE. -/
theorem windowOffset_inside {addr : Nat} (h : Config.cmacBase ≤ addr ∧ addr < Config.cmacBase + 0x100) :
    ∃ off : BitVec 8, off.toNat = addr - Config.cmacBase ∧ windowOffset addr = some off := by
  have hoff : addr % 0x100 = addr - Config.cmacBase := by
    unfold Config.cmacBase at *
    omega
  refine ⟨BitVec.ofNat 8 (addr % 0x100), ?_, if_pos ((page_eq_iff addr).2 h)⟩
  rw [BitVec.toNat_ofNat, ← hoff]
  exact Nat.mod_mod _ _

theorem windowOffset_outside {addr : Nat} (h : ¬ (Config.cmacBase ≤ addr ∧ addr < Config.cmacBase + 0x100)) :
    windowOffset addr = none := by
  rw [← page_eq_iff] at h
  simp [windowOffset, h]

/-! ## Runs -/

theorem safeRun_succ {s t : State} {n : Nat} (h : step s = .next t) (ht : SafeRun t n) : SafeRun s (n + 1) := by
  obtain ⟨u, hu⟩ := ht
  exact ⟨u, by simp only [Host.Core.run, h]; exact hu⟩

end Sys2Proof.Machine
end

section
/-! PROOF. The statements of spec/20_memory.md: legal programs (O53, O18), reads and writes of the register window (O12 to
O16), the address decode (O17), and the CMD write that runs a command (O7). -/

namespace Sys2Proof.Machine

open Sys2Proof.Expected

/-- Settles O53: the step takes the oldest input (`step_cases`); a legal transaction is answered (`busAccess_next_iff`),
and neither it nor a reset changes the inputs after it. -/
theorem stepKeepsProgramLegal : Obligations.StepKeepsProgramLegal := by
  intro s hs
  rcases step_cases s with ⟨_, h⟩ | ⟨cut, rest, hp, h⟩ | ⟨a, rest, hp, h⟩
  · exact ⟨s, h, hs⟩
  · rw [State.ProgramLegal, hp, List.forall_mem_cons] at hs
    exact ⟨_, h, hs.2⟩
  · rw [State.ProgramLegal, hp, List.forall_mem_cons] at hs
    obtain ⟨ha, hrest⟩ := hs
    obtain ⟨t, ht⟩ := (busAccess_next_iff a { s with pending := rest }).2 ha
    refine ⟨t, h.trans ht, ?_⟩
    rw [State.ProgramLegal, busAccess_pending ht]
    exact hrest

/-- Settles O18: by induction on the number of steps; every step answers a next state with a legal program (O53). -/
theorem legalProgramsNeverFault : Obligations.LegalProgramsNeverFault := by
  intro s hs n
  induction n generalizing s with
  | zero => exact ⟨s, rfl⟩
  | succ n ih =>
    obtain ⟨t, hstep, ht⟩ := stepKeepsProgramLegal s hs
    exact safeRun_succ hstep (ih t ht)

/-- Settles O12: each mapped word by `step_read`, in the form of R42 by `wordAt_eq_windowWordOf`; a legal read is of a
readable offset, so every other is a bus error. -/
theorem memReadAnswersMappedWords : Obligations.MemReadAnswersMappedWords := by
  intro s rest off width hs
  have word : ∀ {j : Nat}, j < 4 → ∀ v : Block, Except.ok (ε := BusError) (wordAt 16 v j) = .ok (windowWordOf v j) :=
    fun hj v => congrArg _ (wordAt_eq_windowWordOf hj v)
  refine ⟨?_, ?_, ?_, ?_, ?_, fun hbad => step_busError hs fun ha => hbad (readable_of_accessLegal ha)⟩
  · rintro rfl ho
    exact step_read (p := .status) hs trivial ho rfl
  · rintro j hj rfl ho
    exact step_read (p := .din j) hs hj ho (word hj s.din)
  · rintro j hj rfl ho
    exact step_read (p := .cand j) hs hj ho (word hj s.cand)
  · rintro j hj rfl ho
    exact step_read (p := .tout j) hs hj ho (word hj s.tout)
  · rintro j hj rfl ho
    exact step_read (p := .dout j) hs hj ho (word hj s.dout)

/-- Settles O13: each writable port by `step_write`, its bytes by `isWordWrite_setWordAt`; a legal write is of a writable
offset, so every other is a bus error. -/
theorem memWriteChangesMappedBytes : Obligations.MemWriteChangesMappedBytes := by
  intro s rest off width w hs
  refine ⟨?_, ?_, ?_, ?_, fun hbad => step_busError hs fun ha => hbad (writable_of_accessLegal ha)⟩
  · rintro rfl ho
    have hcmd : step s = runCommand w { s with pending := rest, response := some .written } :=
      step_write (p := .cmd) hs trivial ho
    exact ⟨fun i hi => hcmd.trans (runCommand_of_ok hi _), fun e he => hcmd.trans (runCommand_of_error he _)⟩
  · rintro j hj rfl ho
    exact ⟨_, isWordWrite_setWordAt (n := 16) rfl (by omega) s.din w, step_write (p := .din j) hs hj ho⟩
  · rintro j hj rfl ho
    exact ⟨_, isWordWrite_setWordAt (n := 32) rfl (by omega) s.keyw w, step_write (p := .keyw j) hs hj ho⟩
  · rintro j hj rfl ho
    exact ⟨_, isWordWrite_setWordAt (n := 16) rfl (by omega) s.cand w, step_write (p := .cand j) hs hj ho⟩

/-- Settles O15: a write of a DIN or CAND word changes what its own port reads as and no other port's
(`readPort_din_write`, `readPort_cand_write`), and so for offsets (`write_then_read`). -/
theorem writeThenReadReturnsWord : Obligations.WriteThenReadReturnsWord := fun s j w hj =>
  ⟨⟨_, write_then_read (p := .din j) hj rfl fun _ => readPort_din_write hj w s⟩,
    _, write_then_read (p := .cand j) hj rfl fun _ => readPort_cand_write hj w s⟩

/-- Settles O16: idempotence by `busAccess_again`, the effect by the cases of `busAccess_write`; and two UPDATE 1 commands
in a fresh ACTIVE context leave one byte in BUF, then two. -/
theorem onlyCmdWritesAreNotIdempotent : Obligations.OnlyCmdWritesAreNotIdempotent := by
  refine ⟨fun a s t h hcmd => ⟨busAccess_again h hcmd, ?_⟩, fun off width s t h => busAccess_read_frame h,
    { State.reset with mode := .active }, _, _, rfl, rfl, by decide⟩
  cases a with
  | read off width => exact .inl ⟨off, width, rfl, busAccess_read_frame h⟩
  | write off width w =>
    rcases busAccess_write off width w s with ⟨hp, _⟩ | ⟨j, hp, hb⟩ | ⟨j, hp, hb⟩ | ⟨j, hp, hb⟩ | ⟨e, hb⟩
    · obtain ⟨rfl, rfl⟩ := (selectPort_cmd_iff off width).1 hp
      exact absurd rfl (hcmd w)
    · obtain ⟨rfl, (hj : j < 4), rfl⟩ := selectPort_eq_ok hp
      cases hb.symm.trans h
      exact .inr (.inl ⟨j, w, hj, rfl, isWordWrite_setWordAt (n := 16) rfl (by omega) s.din w, rfl⟩)
    · obtain ⟨rfl, (hj : j < 8), rfl⟩ := selectPort_eq_ok hp
      cases hb.symm.trans h
      exact .inr (.inr (.inl ⟨j, w, hj, rfl, isWordWrite_setWordAt (n := 32) rfl (by omega) s.keyw w, rfl⟩))
    · obtain ⟨rfl, (hj : j < 4), rfl⟩ := selectPort_eq_ok hp
      cases hb.symm.trans h
      exact .inr (.inr (.inr ⟨j, w, hj, rfl, isWordWrite_setWordAt (n := 16) rfl (by omega) s.cand w, rfl⟩))
    · cases hb.symm.trans h

/-- Settles O17: inside the page of CMAC_BASE the decode answers the offset (`windowOffset_inside`), outside it nothing
(`windowOffset_outside`). -/
theorem windowDecodesAtBase : Obligations.WindowDecodesAtBase := by
  refine ⟨Nat.mul_mod_right _ _, fun addr => ⟨fun off => ?_, fun s width w hlo hhi => ?_, fun s width w hout => ?_⟩⟩
  · by_cases hin : Config.cmacBase ≤ addr ∧ addr < Config.cmacBase + 0x100
    · obtain ⟨o, ho, hw⟩ := windowOffset_inside hin
      rw [hw, Option.some_inj, ← ho]
      exact ⟨fun h => ⟨hin.1, hin.2, congrArg _ h.symm⟩, fun ⟨_, _, h⟩ => BitVec.eq_of_toNat_eq h.symm⟩
    · rw [windowOffset_outside hin]
      exact ⟨nofun, fun ⟨hlo, hhi, _⟩ => absurd ⟨hlo, hhi⟩ hin⟩
  · obtain ⟨o, ho, hw⟩ := windowOffset_inside ⟨hlo, hhi⟩
    exact ⟨o, ho, by rw [State.issueRead, hw], by rw [State.issueWrite, hw]⟩
  · rw [State.issueRead, State.issueWrite, windowOffset_outside hout]
    exact ⟨rfl, rfl⟩

/-- Settles O7: a CMD write taken from the inputs runs its word, and a word that decodes runs its command. -/
theorem stepRunsDecodedCommand : Obligations.StepRunsDecodedCommand := fun _ _ _ _ hs hd =>
  (step_cmd hs).trans (runCommand_of_ok hd _)

/-- Settles O14: a legal access is 32 bits wide and at the offset of a port, which is a multiple of 4. -/
theorem onlyAlignedWordsExist : Obligations.OnlyAlignedWordsExist := by
  intro s rest off width w hbad
  refine ⟨fun hs => step_busError hs fun ha => ?_, fun hs => step_busError hs fun ha => ?_⟩
  · obtain ⟨hwidth, hoff⟩ := readable_of_accessLegal ha
    exact hbad.elim (· (readable_mod_four hoff)) (· hwidth)
  · obtain ⟨hwidth, hoff⟩ := writable_of_accessLegal ha
    exact hbad.elim (· (writable_mod_four hoff)) (· hwidth)

end Sys2Proof.Machine
end

section
/-! SUPPORT. The decoder as a choice of one command by the four fields (R60, R67), in both directions of the encoding
(R63), by the masks of the opcode map (R66) and against the list of illegal words (R68). -/

namespace Sys2Proof.Machine

open Sys2Proof.Expected

/-! ## The command the fields choose -/

/-- The fields OP, LEN, ALEN and VAR choose a command: its OP, its constraint of R67, and its operands (R60). -/
def FieldsChoose (op len alen var : Nat) : Instr → Prop
  | .init klen v => op = 1 ∧ len = 0 ∧ klen = alen ∧ v = variantOf var
  | .update n => op = 2 ∧ len ≤ 16 ∧ alen = 0 ∧ var = 0 ∧ n = len
  | .final n => op = 3 ∧ len ≤ 16 ∧ alen = 0 ∧ var = 0 ∧ n = len
  | .verify n clen => op = 4 ∧ len ≤ 16 ∧ alen ≤ 16 ∧ var = 0 ∧ n = len ∧ clen = alen
  | .cteq n clen => op = 5 ∧ len ≤ 16 ∧ alen ≤ 16 ∧ var = 0 ∧ n = len ∧ clen = alen
  | .double => op = 6 ∧ len = 0 ∧ alen = 0 ∧ var = 0

/-- The decoder reads a command exactly when no reserved bit is set and the fields choose it (R60). -/
theorem decode_eq_ok_iff_fieldsChoose (w : Word) (i : Instr) :
    decode w = .ok i ↔ reservedZero w = true ∧ FieldsChoose (op w) (len w) (alen w) (var w) i := by
  rw [decode_ok_iff]
  refine and_congr_right fun _ => ?_
  cases i <;> simp [FieldsChoose, op, len, alen, var, wordField]

/-- The word of the fields that choose a command decodes to it. -/
theorem decode_enc {o n a v : Nat} {i : Instr} (ho : o < 256) (hn : n < 32) (ha : a < 64) (hv : v < 2)
    (h : FieldsChoose o n a v i) : decode (enc o n a v) = .ok i := by
  have hop : op (enc o n a v) = o := wordField_enc_op ho hn ha hv
  have hlen : len (enc o n a v) = n := wordField_enc_len ho hn ha hv
  have halen : alen (enc o n a v) = a := wordField_enc_alen ho hn ha hv
  have hvar : var (enc o n a v) = v := wordField_enc_var ho hn ha hv
  rw [decode_eq_ok_iff_fieldsChoose, hop, hlen, halen, hvar]
  exact ⟨reservedZero_enc ho hn ha hv, h⟩

/-- Fields inside their widths choose well-formed commands only: an ALEN of 6 bits is a KLEN of at most 63 (R64). -/
theorem FieldsChoose.wellFormed {o n a v : Nat} {i : Instr} (h : FieldsChoose o n a v i) (ha : a < 64) :
    i.wellFormed = true := by
  cases i <;> simp only [FieldsChoose] at h <;> simp [Instr.wellFormed] <;> omega

/-- The encoder puts back the fields that chose the command (R63). -/
theorem FieldsChoose.encode_eq {o n a v : Nat} {i : Instr} (h : FieldsChoose o n a v i) (hv : v < 2) :
    encode i = enc o n a v := by
  cases i with
  | init klen var =>
    obtain ⟨rfl, rfl, rfl, rfl⟩ := h
    simp [encode, Instr.opcode, variantOf_bit_toNat hv]
  | update len =>
    obtain ⟨rfl, _, rfl, rfl, rfl⟩ := h
    rfl
  | final len =>
    obtain ⟨rfl, _, rfl, rfl, rfl⟩ := h
    rfl
  | verify len clen =>
    obtain ⟨rfl, _, _, rfl, rfl, rfl⟩ := h
    rfl
  | cteq len clen =>
    obtain ⟨rfl, _, _, rfl, rfl, rfl⟩ := h
    rfl
  | double =>
    obtain ⟨rfl, rfl, rfl, rfl⟩ := h
    rfl

/-! ## Decoding and encoding -/

theorem opcode_lt (i : Instr) : i.opcode < 256 := by cases i <;> simp [Instr.opcode]

/-- The word of a well-formed command decodes to it: its fields fit their widths and choose it. -/
theorem decode_encode {i : Instr} (h : i.wellFormed = true) : decode (encode i) = .ok i := by
  cases i with
  | init klen var =>
    have hk : klen ≤ 63 := by simpa [Instr.wellFormed] using h
    exact decode_enc (opcode_lt _) (by omega) (by omega) (variant_bit_lt var)
      ⟨rfl, rfl, rfl, (variantOf_bit var).symm⟩
  | update len =>
    have hl : len ≤ 16 := by simpa [Instr.wellFormed] using h
    exact decode_enc (opcode_lt _) (by omega) (by omega) (by omega) ⟨rfl, hl, rfl, rfl, rfl⟩
  | final len =>
    have hl : len ≤ 16 := by simpa [Instr.wellFormed] using h
    exact decode_enc (opcode_lt _) (by omega) (by omega) (by omega) ⟨rfl, hl, rfl, rfl, rfl⟩
  | verify len clen =>
    obtain ⟨hl, hc⟩ : len ≤ 16 ∧ clen ≤ 16 := by simpa [Instr.wellFormed] using h
    exact decode_enc (opcode_lt _) (by omega) (by omega) (by omega) ⟨rfl, hl, hc, rfl, rfl, rfl⟩
  | cteq len clen =>
    obtain ⟨hl, hc⟩ : len ≤ 16 ∧ clen ≤ 16 := by simpa [Instr.wellFormed] using h
    exact decode_enc (opcode_lt _) (by omega) (by omega) (by omega) ⟨rfl, hl, hc, rfl, rfl, rfl⟩
  | double => exact decode_enc (opcode_lt _) (by omega) (by omega) (by omega) ⟨rfl, rfl, rfl, rfl⟩

/-- A word that decodes is the word of its command, which is well-formed. -/
theorem wellFormed_and_encode_of_decode {w : Word} {i : Instr} (h : decode w = .ok i) :
    i.wellFormed = true ∧ encode i = w := by
  obtain ⟨hr, hc⟩ := (decode_eq_ok_iff_fieldsChoose w i).1 h
  obtain ⟨_, _, halen, hvar⟩ := wordField_bounds w
  exact ⟨hc.wellFormed halen, (hc.encode_eq hvar).trans (eq_enc_of_reservedZero hr).symm⟩

/-- The decoder and the encoder are inverse on the legal words and the well-formed commands. -/
theorem decode_eq_ok_iff_encode_eq {w : Word} {i : Instr} :
    decode w = .ok i ↔ i.wellFormed = true ∧ encode i = w :=
  ⟨wellFormed_and_encode_of_decode, fun ⟨hi, hw⟩ => hw ▸ decode_encode hi⟩

/-! ## The rows of the opcode map -/

/-- A field as a bit vector and as a number. -/
theorem extractLsb'_eq_iff_wordField (w : Word) (lo n : Nat) (v : BitVec n) :
    w.extractLsb' lo n = v ↔ wordField w lo n = v.toNat := BitVec.toNat_inj.symm

/-- The reserved fields as bit vectors (R61). -/
theorem reservedZero_iff_extractLsb' (w : Word) :
    reservedZero w = true ↔ w.extractLsb' 13 3 = 0#3 ∧ w.extractLsb' 22 2 = 0#2 ∧ w.extractLsb' 25 7 = 0#7 := by
  simp [reservedZero, extractLsb'_eq_iff_wordField, and_assoc]

/-- INIT's row of R66, on the fields as numbers. -/
theorem mask_init_iff_fields (w : Word) :
    w &&& 0xFEC0FFFF#32 = 0x00000001#32 ↔ reservedZero w = true ∧ op w = 1 ∧ len w = 0 := by
  rw [mask_init, ← reservedZero_iff_extractLsb', extractLsb'_eq_iff_wordField, extractLsb'_eq_iff_wordField]
  rfl

/-- The rows of UPDATE and FINAL of R66, on the fields as numbers. -/
theorem mask_update_final_iff_fields (w : Word) (o : BitVec 8) :
    w &&& 0xFFFFE0FF#32 = o.setWidth 32 ↔ reservedZero w = true ∧ op w = o.toNat ∧ alen w = 0 ∧ var w = 0 := by
  rw [mask_update_final, ← reservedZero_iff_extractLsb', extractLsb'_eq_iff_wordField, extractLsb'_eq_iff_wordField,
    extractLsb'_eq_iff_wordField]
  rfl

/-- The rows of VERIFY and CTEQ of R66, on the fields as numbers. -/
theorem mask_verify_cteq_iff_fields (w : Word) (o : BitVec 8) :
    w &&& 0xFFC0E0FF#32 = o.setWidth 32 ↔ reservedZero w = true ∧ op w = o.toNat ∧ var w = 0 := by
  rw [mask_verify_cteq, ← reservedZero_iff_extractLsb', extractLsb'_eq_iff_wordField, extractLsb'_eq_iff_wordField]
  rfl

/-! ## Illegal words -/

/-- A word is rejected exactly when no command is read from it. -/
theorem decode_error_iff_not_ok (w : Word) : (∃ e, decode w = .error e) ↔ ¬ ∃ i, decode w = .ok i := by
  cases decode w <;> simp

/-- The words from which a command is read, by their fields alone (R60, R67). -/
theorem decode_ok_iff_legal_fields (w : Word) :
    (∃ i, decode w = .ok i) ↔
      reservedZero w = true ∧
        ((op w = 1 ∧ len w = 0) ∨
          ((op w = 2 ∨ op w = 3) ∧ len w ≤ 16 ∧ alen w = 0 ∧ var w = 0) ∨
          ((op w = 4 ∨ op w = 5) ∧ len w ≤ 16 ∧ alen w ≤ 16 ∧ var w = 0) ∨
          (op w = 6 ∧ len w = 0 ∧ alen w = 0 ∧ var w = 0)) := by
  simp only [decode_eq_ok_iff_fieldsChoose, exists_and_left]
  refine and_congr_right fun _ => ⟨?_, ?_⟩
  · rintro ⟨i, h⟩
    cases i <;> simp only [FieldsChoose] at h <;> omega
  · rintro (⟨ho, h⟩ | ⟨ho | ho, h⟩ | ⟨ho | ho, h⟩ | ⟨ho, h⟩)
    · exact ⟨.init (alen w) (variantOf (var w)), ho, h, rfl, rfl⟩
    · exact ⟨.update (len w), by simp [FieldsChoose, ho, h]⟩
    · exact ⟨.final (len w), by simp [FieldsChoose, ho, h]⟩
    · exact ⟨.verify (len w) (alen w), by simp [FieldsChoose, ho, h]⟩
    · exact ⟨.cteq (len w) (alen w), by simp [FieldsChoose, ho, h]⟩
    · exact ⟨.double, ho, h⟩

/-- R68's list is the words the decoder rejects. -/
theorem decode_error_iff_illegalWord (w : Word) : (∃ e, decode w = .error e) ↔ IllegalWord w := by
  rw [decode_error_iff_not_ok, decode_ok_iff_legal_fields]
  unfold IllegalWord
  by_cases hr : reservedZero w = true
  · obtain ⟨r13, r22, r25⟩ := (reservedZero_iff_extractLsb' w).1 hr
    simp only [hr, r13, r22, r25, ne_eq, not_true_eq_false, false_or, true_and]
    omega
  · have hbits := mt (reservedZero_iff_extractLsb' w).2 hr
    simp only [hr, Bool.false_eq_true, false_and, not_false_eq_true, true_iff]
    exact .inl (by tauto)

/-- A CMD write of an illegal word reports IllegalCommand and changes nothing else of the core (R68, R162). -/
theorem cmdWrite_of_illegalWord {w : Word} (h : IllegalWord w) (s : State) :
    cmdWrite w s = .next (reported 5#4 false { s with response := some .written }) := by
  obtain ⟨e, he⟩ := (decode_error_iff_illegalWord w).2 h
  exact (step_cmd rfl).trans (runCommand_of_error he _)

end Sys2Proof.Machine
end

section
/-! PROOF. The statements of spec/30_encoding.md: the encoding in both directions (O1, O2), the opcode map (O3), the
illegal words (O4) and the pseudo-commands (O6). -/

namespace Sys2Proof.Machine

open Sys2Proof.Expected

/-- Settles O1: command by command, the fields of the word fit their widths and choose the command (`decode_encode`). -/
theorem decodeOfEncode : Obligations.DecodeOfEncode := fun _ => decode_encode

/-- Settles O2: the four fields that choose the command are all the word holds, its reserved bits being zero. -/
theorem encodeOfDecode : Obligations.EncodeOfDecode := fun _ _ => wellFormed_and_encode_of_decode

/-- Settles O3: each row's mask fixes the reserved fields, OP and the fields its command does not use; what the decoder
asks beyond them is the row's constraint and the operands. -/
theorem opcodeMapSelectsCommand : Obligations.OpcodeMapSelectsCommand := by
  intro w
  have update_final := mask_update_final_iff_fields w
  have verify_cteq := mask_verify_cteq_iff_fields w
  have ok := decode_eq_ok_iff_fieldsChoose w
  refine ⟨fun klen v => ?_, fun n => ?_, fun n => ?_, fun n c => ?_, fun n c => ?_, ?_⟩
  · rw [ok, mask_init_iff_fields, FieldsChoose, variantOf]
    tauto
  · rw [ok, FieldsChoose, show 0x00000002#32 = (2#8).setWidth 32 from rfl, update_final]
    tauto
  · rw [ok, FieldsChoose, show 0x00000003#32 = (3#8).setWidth 32 from rfl, update_final]
    tauto
  · rw [ok, FieldsChoose, show 0x00000004#32 = (4#8).setWidth 32 from rfl, verify_cteq]
    tauto
  · rw [ok, FieldsChoose, show 0x00000005#32 = (5#8).setWidth 32 from rfl, verify_cteq]
    tauto
  · have hmask : w &&& 0xFFFFFFFF#32 = w := BitVec.and_allOnes
    rw [hmask, decode_eq_ok_iff_encode_eq]
    exact ⟨fun ⟨_, hw⟩ => hw.symm, fun hw => ⟨rfl, hw.symm⟩⟩

/-- Settles O4: the rejected words are R68's list, word 0 has an unassigned OP, and a rejected word only reports. -/
theorem illegalWordsOnlyReport : Obligations.IllegalWordsOnlyReport :=
  ⟨decode_error_iff_illegalWord, .inr (.inl (.inl rfl)), fun _ s h => cmdWrite_of_illegalWord h s⟩

/-- Settles O6: each assembles to the word of its expansion by definition, and that word decodes to it (O1). -/
theorem pseudoCommandsExpand : Obligations.PseudoCommandsExpand :=
  ⟨⟨rfl, fun _ => rfl, rfl, fun _ => rfl⟩, decode_encode rfl, decode_encode rfl,
    fun clen hc => decode_encode (i := .verify 0 clen) (by simpa [Instr.wellFormed] using hc),
    fun klen hk => decode_encode (i := .init klen .cmac96) (by simpa [Instr.wellFormed, Nat.lt_succ_iff] using hk)⟩

end Sys2Proof.Machine
end

section
/-! SUPPORT. What the commands of 40_subkey.md compute, each fact said once: the report in the spec's form (R162), the
doubler as an integer and byte by byte (R80), INIT's context as one equation (R85), and CMD writes by their decoding. -/

namespace Sys2Proof.Machine

open Sys2Proof.Expected

/-! ## Reporting -/

/-- The report of the model is R162's: ERRS becomes 1 exactly on a nonzero code. -/
theorem report_eq_reported (s : State) (q : Bool) (e : Option CmdError) :
    report s q e = reported (codeOf e) q s := by
  have herrs : e.isSome = decide (codeOf e ≠ 0#4) := by
    cases e <;> simp [codeOf_eq_zero_iff]
  rw [report, reported, herrs]

/-- An illegal word of any OP only reports (R68). -/
theorem illegalFormsOf (o : Nat) (s : State) : IllegalFormsOf o s := fun _ _ h => cmdWrite_of_illegalWord h s

theorem commandState_of_ok {w : Word} {i : Instr} (h : decode w = .ok i) (s : State) :
    commandState w s = execState i s := by
  simp only [commandState, h]

theorem commandState_of_error {w : Word} {e : DecodeError} (h : decode w = .error e) (s : State) :
    commandState w s = report s false (some .illegalCommand) := by
  simp only [commandState, h, illegalCommand_eq]

/-! ## The doubler -/

/-- The most significant bit of a block, on its integer. -/
theorem topBit_iff_toNat (x : Block) : x.getLsbD 127 = true ↔ 2 ^ 127 ≤ x.toNat := by
  rw [BitVec.getLsbD_last x, decide_eq_true_iff]

/-- The most significant bit of a block, on its byte 0. -/
theorem topBit_eq_firstByte (x : Block) : x.getLsbD 127 = decide (0x80 ≤ (byteAt 16 x 0).toNat) := by
  have hbit : (byteAt 16 x 0).getLsbD 7 = x.getLsbD 127 := by rw [byteAt_getLsbD]; rfl
  rw [← hbit, BitVec.getLsbD_last (byteAt 16 x 0)]

/-- The doubler on the 128-bit integer of a block (R80). -/
theorem dbl_toNat (x : Block) :
    (dbl x).toNat = if 2 ^ 127 ≤ x.toNat then (x.toNat * 2 % 2 ^ 128) ^^^ 0x87 else x.toNat * 2 % 2 ^ 128 := by
  have hshift : (x <<< 1).toNat = x.toNat * 2 % 2 ^ 128 := by
    rw [BitVec.toNat_shiftLeft, Nat.shiftLeft_eq, pow_one]
  by_cases h : x.getLsbD 127 = true
  · rw [if_pos ((topBit_iff_toNat x).1 h), dbl, if_pos h, BitVec.toNat_xor, hshift]
    rfl
  · rw [if_neg (mt (topBit_iff_toNat x).2 h), dbl, if_neg h, hshift]

/-- RB has no bit above its last byte. -/
theorem reduction_getLsbD_of_ge {k : Nat} (h : 8 ≤ k) : (0x87#128).getLsbD k = false :=
  BitVec.getLsbD_of_ge 0x87#8 k h

/-- A byte of the doubled block but the last takes the top bit of the byte after it (R80). -/
theorem byteAt_dbl {i : Nat} (hi : i < 15) (x : Block) :
    byteAt 16 (dbl x) i = (byteAt 16 x i <<< 1) ||| (byteAt 16 x (i + 1) >>> 7) := by
  apply BitVec.eq_of_getLsbD_eq
  intro b hb
  rw [byteAt_getLsbD, dbl_getLsbD x _ (by omega), reduction_getLsbD_of_ge (by omega), BitVec.getLsbD_or,
    BitVec.getLsbD_shiftLeft, BitVec.getLsbD_ushiftRight, byteAt_getLsbD, byteAt_getLsbD]
  rcases Nat.eq_zero_or_pos b with rfl | hpos
  · have hnext : 8 * (16 - 1 - i) + 0 - 1 = 8 * (16 - 1 - (i + 1)) + (7 + 0) := by omega
    rw [hnext]
    simp [hi]
  · have hsame : 8 * (16 - 1 - i) + b - 1 = 8 * (16 - 1 - i) + (b - 1) := by omega
    have hge : ¬ 7 + b < 8 := by omega
    have hnz : ¬ b < 1 := by omega
    have hlt : b - 1 < 8 := by omega
    have hin : 0 < 8 * (16 - 1 - i) + b := by omega
    simp [hsame, hge, hnz, hlt, hb, hin]

/-- The last byte of the doubled block takes no bit from outside, and RB when the top bit was set (R80). -/
theorem byteAt_dbl_last (x : Block) :
    byteAt 16 (dbl x) 15 =
      (byteAt 16 x 15 <<< 1) ^^^ (if 0x80 ≤ (byteAt 16 x 0).toNat then 0x87#8 else 0x00#8) := by
  have hred : ∀ b, (if 0x80 ≤ (byteAt 16 x 0).toNat then 0x87#8 else 0x00#8).getLsbD b =
      (x.getLsbD 127 && (0x87#128).getLsbD b) := by
    intro b
    rw [topBit_eq_firstByte]
    by_cases h : 0x80 ≤ (byteAt 16 x 0).toNat
    · simp only [h, if_true, decide_true, Bool.true_and]
      rfl
    · simp [h]
  apply BitVec.eq_of_getLsbD_eq
  intro b hb
  rw [byteAt_getLsbD, BitVec.getLsbD_xor, hred, BitVec.getLsbD_shiftLeft, byteAt_getLsbD, dbl_getLsbD x _ (by omega)]
  rcases Nat.eq_zero_or_pos b with rfl | hpos
  · simp
  · have hnz : ¬ b < 1 := by omega
    have hlt : b - 1 < 8 := by omega
    simp [hnz, hlt, hb, hpos]

/-! ## INIT -/

/-- Keeping the first bytes of a window is the value of these bytes and zeros (R9, R85). -/
theorem keepFirst_eq_ofBytes {w n m : Nat} (hw : w = 8 * n) (hm : m ≤ n) (v : BitVec w) :
    keepFirst n m v = ofBytes w ((bytesOf n v).take m ++ List.replicate (n - m) 0#8) := by
  rw [← bytesOf_keepFirst hw hm, ofBytes_bytesOf hw]

/-- The context INIT installs, field by field, for a key of at most 32 bytes (R83, R85). -/
theorem initContext_eq {klen : Nat} (h : klen ≤ 32) (v : Variant) (s : State) :
    (s.loadKey klen v).generateSubkeys.startContext =
      { s with
        kreg := ofBytes 256 ((bytesOf 32 s.keyw).take klen ++ List.replicate (32 - klen) 0#8)
        klenReg := klen
        varReg := v
        lreg := Config.aesEncrypt ((bytesOf 32 s.keyw).take klen) 0#128
        k1reg := dbl (Config.aesEncrypt ((bytesOf 32 s.keyw).take klen) 0#128)
        k2reg := dbl (dbl (Config.aesEncrypt ((bytesOf 32 s.keyw).take klen) 0#128))
        buf := []
        chain := 0#128
        tag := 0#128
        mode := .active
        aesCalls := ⟨(bytesOf 32 s.keyw).take klen, 0#128⟩ :: s.aesCalls } := by
  rw [← keepFirst_eq_ofBytes rfl h, ← loadKey_key h v s]
  rfl

/-- With any other key length INIT fails, whatever the variant (R85). -/
theorem execState_init_of_invalid {klen : Nat} (h : validKeyLength klen = false) (v : Variant) (s : State) :
    execState (.init klen v) s = report s false (some .invalidKeyLength) := by
  simp [execState, initBody, h]

/-- The STATUS word of a fresh context of the full-length variant: KLEN, KEYED and ERRS (R29, R85). -/
theorem status_startContext {s : State} (hvar : s.varReg = .cmac) (hklen : s.klenReg = 16) (herrs : s.errs = false) :
    (report s.startContext false none).status = 0x10000020#32 := by
  simp only [State.status, State.tlen, report_err, report_eq, report_errs, report_mode, report_varReg, report_buf,
    report_klenReg, startContext_mode, startContext_buf, startContext_varReg, startContext_klenReg, startContext_errs,
    hvar, hklen, herrs]
  decide

end Sys2Proof.Machine
end

section
/-! PROOF. The statements of spec/40_subkey.md: the doubler (O23), INIT (O26), DOUBLE (O27), and the frame of the
commands that use no key (O33). -/

namespace Sys2Proof.Machine

open Sys2Proof.Expected

/-- Settles O23: on the integer, and byte by byte, where only the last byte sees RB. -/
theorem doublerShiftsAndReduces : Obligations.DoublerShiftsAndReduces := fun x =>
  ⟨dbl_toNat x, fun _ hi => byteAt_dbl hi x, byteAt_dbl_last x⟩

/-- Settles O26: a legal key length installs the context of `initContext_eq`, any other only reports. -/
theorem initInstallsContext : Obligations.InitInstallsContext := by
  intro klen v s
  refine ⟨fun hk => ?_, fun h16 h24 h32 => ?_, fun herrs => ?_, illegalFormsOf 0x01 s⟩
  · have hv : validKeyLength klen = true := (validKeyLength_iff klen).2 hk
    rw [exec_eq, execState_init_of_valid hv, report_eq_reported, initContext_eq (validKeyLength_le hv)]
    rfl
  · have hv : validKeyLength klen = false := by simp [validKeyLength, h16, h24, h32]
    rw [exec_eq, execState_init_of_invalid hv, report_eq_reported]
    rfl
  · refine ⟨_, exec_eq (.init 16 .cmac) s, ?_⟩
    rw [execState_init_of_valid rfl]
    exact ⟨rfl, rfl, status_startContext rfl rfl (by simpa only [generateSubkeys_errs, loadKey_errs] using herrs)⟩

/-- Settles O33: DOUBLE writes DOUT and the report, CTEQ and an illegal word the report alone. -/
theorem keylessCommandsKeepContext : Obligations.KeylessCommandsKeepContext := by
  intro w s t h hkeyless
  rw [cmdWrite_eq] at h
  cases h
  rcases hkeyless with hdouble | ⟨n, c, hcteq⟩ | ⟨e, hillegal⟩
  · rw [commandState_of_ok hdouble]
    exact ⟨rfl, rfl⟩
  · rw [commandState_of_ok hcteq]
    exact ⟨rfl, rfl⟩
  · rw [commandState_of_error hillegal]
    exact ⟨rfl, rfl⟩

/-- Settles O27: DOUBLE's report in the form of R162, and R86's values of the doubler. -/
theorem doubleWritesDout : Obligations.DoubleWritesDout := by
  refine ⟨fun s => ⟨?_, illegalFormsOf 0x06 s⟩, by decide, by decide, by decide, by decide⟩
  have hdone : execState .double s = reported 0#4 false { s with dout := dbl s.din } := report_eq_reported _ _ _
  rw [exec_eq, hdone]

end Sys2Proof.Machine
end

section
/-! SUPPORT. What the commands of 41_engine.md compute, each fact said once in the spec's form: the absorb step (R101),
the finish step (R104), the comparator (R150), the bodies of UPDATE and FINAL by MODE (R110, R111), and what their
result makes the command answer (R161, R162). -/

namespace Sys2Proof.Machine

open Sys2Proof.Expected

/-! ## The absorb step -/

theorem absorbed_of_fits {s : State} {n : Nat} (h : (staged s n).length ≤ 16) :
    absorbed s n = { s with buf := staged s n } :=
  if_pos h

/-- The absorb step of the model is R101's, for a buffer and a chunk of at most 16 bytes. -/
theorem absorb_eq_absorbed {s : State} {n : Nat} (hn : n ≤ 16) (hbuf : s.buf.length ≤ 16) :
    absorb (s.dinSlice n) s = absorbed s n := by
  by_cases h : (staged s n).length ≤ 16
  · rw [absorbed_of_fits h]
    exact absorb_short h
  · have hlen : (staged s n).length ≤ 32 := by
      rw [staged, List.length_append, List.length_take]
      omega
    rw [absorbed, if_neg h]
    exact absorb_long (Nat.lt_of_not_le h) hlen

/-- An absorbed chunk that is not empty leaves at least one byte in the buffer, and at most 16 (R100). -/
theorem absorbed_buf_bounds {s : State} {n : Nat} (hpos : 1 ≤ n) (hn : n ≤ 16) (hbuf : s.buf.length ≤ 16) :
    1 ≤ (absorbed s n).buf.length ∧ (absorbed s n).buf.length ≤ 16 := by
  obtain ⟨hle, hne⟩ := absorb_buf_length (s.dinSlice n) s
  have hstaged : s.buf ++ s.dinSlice n ≠ [] := by
    rw [← List.length_pos_iff, List.length_append, State.dinSlice, List.length_take, bytesOf_length]
    omega
  rw [absorb_eq_absorbed hn hbuf] at hle hne
  exact ⟨List.length_pos_iff.2 (hne hstaged), hle⟩

/-- An empty chunk changes nothing. -/
theorem absorbed_zero {s : State} (hbuf : s.buf.length ≤ 16) : absorbed s 0 = s := by
  have hstaged : staged s 0 = s.buf := List.append_nil s.buf
  rw [absorbed_of_fits (by rwa [hstaged]), hstaged]

/-- A full chunk into an empty buffer fills it with DIN, and nothing is encrypted (R110's example). -/
theorem absorbed_full {s : State} (hbuf : s.buf = []) : absorbed s 16 = { s with buf := bytesOf 16 s.din } := by
  have hstaged : staged s 16 = bytesOf 16 s.din := by
    rw [staged, hbuf, List.nil_append, List.take_of_length_le (bytesOf_length 16 s.din).le]
  rw [absorbed_of_fits (by rw [hstaged, bytesOf_length]), hstaged]

/-! ## The tag and its comparison -/

/-- The finish step of the model is R104's. -/
theorem finish_eq_finished (s : State) : finish s = finished s := rfl

/-- The comparator decides equality, of the lengths first (R150). -/
theorem ctEqual_eq_decide (a b : List Byte) : ctEqual a b = decide (a = b) := by
  rw [ctEqual]
  split
  case isTrue h => rw [beq_eq_decide, decide_eq_decide, diffBits_eq_zero_iff h]
  case isFalse h => exact (decide_eq_false fun hab => h (congrArg List.length hab)).symm

theorem tagLen_le (s : State) : tagLen s ≤ 16 := by
  unfold tagLen
  split <;> decide

/-- In FINALIZED the bytes TOUT shows are the tag FINAL returns (R130). -/
theorem tagBytes_of_finalized {s : State} (h : s.mode = .finalized) : s.tagBytes = tagOf s := by
  have htlen : s.tlen = tagLen s := by rw [tlen_eq, if_pos h]
  rw [State.tagBytes, State.tout, htlen, take_bytesOf_keepFirst rfl (tagLen_le s), tagOf]

/-- In FINALIZED the comparison of the model is R112's. -/
theorem compareTag_eq_compared {s : State} (h : s.mode = .finalized) (clen : Nat) :
    compareTag clen s = compared s clen := by
  have hmatch : ctEqual (s.candSlice clen) s.tagBytes = matchesTag s clen := by
    rw [ctEqual_eq_decide, tagBytes_of_finalized h, matchesTag, State.candSlice]
  simp only [compareTag, compared, hmatch, report_eq_reported]
  cases matchesTag s clen <;> rfl

/-- A candidate window that holds the whole tag matches it in the variant with 16 bytes. -/
theorem matchesTag_of_cand {s : State} (hvar : s.varReg = .cmac) (hcand : s.cand = s.tag) : matchesTag s 16 = true := by
  have hlen : tagLen s = 16 := by rw [tagLen, hvar]; rfl
  rw [matchesTag, tagOf, hlen, hcand, decide_eq_true rfl]

/-! ## The bodies of UPDATE and FINAL, by MODE -/

theorem updateBody_of_unkeyed {s : State} (h : s.mode = .unkeyed) (n : Nat) : updateBody n s = .error .notKeyed := by
  simp only [updateBody, h]

/-- The test for the empty chunk comes before the Finalized test (R110). -/
theorem updateBody_zero {s : State} (h : s.mode ≠ .unkeyed) : updateBody 0 s = .ok s := by
  cases hm : s.mode with
  | unkeyed => exact absurd hm h
  | active => simp only [updateBody, hm, if_true]
  | finalized => simp only [updateBody, hm, if_true]

theorem updateBody_of_finalized {s : State} {n : Nat} (h : s.mode = .finalized) (hpos : 1 ≤ n) :
    updateBody n s = .error .alreadyFinalized := by
  simp only [updateBody, h, if_neg (Nat.ne_of_gt hpos)]

theorem updateBody_of_active {s : State} {n : Nat} (h : s.mode = .active) (hpos : 1 ≤ n) (hn : n ≤ 16)
    (hbuf : s.buf.length ≤ 16) : updateBody n s = .ok (absorbed s n) := by
  simp only [updateBody, h, if_neg (Nat.ne_of_gt hpos), absorb_eq_absorbed hn hbuf]

theorem finalBody_of_unkeyed {s : State} (h : s.mode = .unkeyed) (n : Nat) : finalBody n s = .error .notKeyed := by
  simp only [finalBody, h]

theorem finalBody_zero_of_finalized {s : State} (h : s.mode = .finalized) : finalBody 0 s = .ok s := by
  simp only [finalBody, h, if_neg (Nat.lt_irrefl 0)]

theorem finalBody_of_finalized {s : State} {n : Nat} (h : s.mode = .finalized) (hpos : 1 ≤ n) :
    finalBody n s = .error .alreadyFinalized := by
  simp only [finalBody, h, if_pos (show 0 < n from hpos)]

/-- In ACTIVE the chunk is absorbed and the last block finished; without a chunk there is nothing to absorb (R111). -/
theorem finalBody_of_active_eq {s : State} {n : Nat} (h : s.mode = .active) (hn : n ≤ 16)
    (hbuf : s.buf.length ≤ 16) : finalBody n s = .ok (finished (absorbed s n)) := by
  rcases Nat.eq_zero_or_pos n with rfl | hpos
  · simp only [finalBody, h, if_neg (Nat.lt_irrefl 0), absorbed_zero hbuf, finish_eq_finished]
  · simp only [finalBody, h, if_pos hpos, absorb_eq_absorbed hn hbuf, finish_eq_finished]

/-! ## What the body's result makes the command answer -/

theorem conclude_of_error {s : State} {body : Except CmdError State} {e : CmdError} (h : body = .error e) :
    conclude s body = reported e.code false s := by
  rw [h, conclude_error, report_eq_reported, codeOf]

theorem conclude_of_ok {s t : State} {body : Except CmdError State} (h : body = .ok t) :
    conclude s body = reported 0#4 false t := by
  rw [h, conclude_ok, report_eq_reported, codeOf]

theorem exec_update_of_error {s : State} {n : Nat} {e : CmdError} (h : updateBody n s = .error e) :
    exec (.update n) s = .next (reported e.code false s) :=
  congrArg Host.Outcome.next (conclude_of_error h)

theorem exec_update_of_ok {s t : State} {n : Nat} (h : updateBody n s = .ok t) :
    exec (.update n) s = .next (reported 0#4 false t) :=
  congrArg Host.Outcome.next (conclude_of_ok h)

theorem exec_final_of_error {s : State} {n : Nat} {e : CmdError} (h : finalBody n s = .error e) :
    exec (.final n) s = .next (reported e.code false s) :=
  congrArg Host.Outcome.next (conclude_of_error h)

theorem exec_final_of_ok {s t : State} {n : Nat} (h : finalBody n s = .ok t) :
    exec (.final n) s = .next (reported 0#4 false t) :=
  congrArg Host.Outcome.next (conclude_of_ok h)

theorem exec_verify_of_error {s : State} {n : Nat} {e : CmdError} (h : finalBody n s = .error e) (clen : Nat) :
    exec (.verify n clen) s = .next (reported e.code false s) := by
  simp only [exec_eq, execState, h]
  exact congrArg Host.Outcome.next (conclude_of_error rfl)

theorem exec_verify_of_ok {s t : State} {n : Nat} (h : finalBody n s = .ok t) (clen : Nat) :
    exec (.verify n clen) s = .next (compared t clen) := by
  simp only [exec_eq, execState, h, compareTag_eq_compared (finalBody_ok_mode h)]

/-! ## The STATUS words of the examples -/

/-- A successful command in an ACTIVE context of 16 key bytes and 16-byte tags, with a full buffer (R29, R110). -/
theorem status_full_active {s : State} (hmode : s.mode = .active) (hbuf : s.buf.length = 16) (hvar : s.varReg = .cmac)
    (hklen : s.klenReg = 16) (herrs : s.errs = false) : (reported 0#4 false s).status = 0x10001020#32 := by
  simp only [reported, State.status, State.tlen, hmode, hbuf, hvar, hklen, herrs]
  decide

/-- A successful command in a finished context of 16 key bytes and 16-byte tags; EQ is the command's (R29, R111,
R112). -/
theorem status_finished {s : State} (q : Bool) (hvar : s.varReg = .cmac) (hklen : s.klenReg = 16)
    (herrs : s.errs = false) :
    (reported 0#4 q (finished s)).status = if q then 0x10100070#32 else 0x10100060#32 := by
  simp only [reported, finished, State.status, State.tlen, hvar, hklen, herrs]
  cases q <;> decide

end Sys2Proof.Machine
end

section
/-! PROOF. The statements of spec/41_engine.md: UPDATE (O28), FINAL (O29) and VERIFY (O30). Each clause is the body's
result in one MODE, carried to the command's answer. -/

namespace Sys2Proof.Machine

open Sys2Proof.Expected

/-- Settles O28: the body's result in each MODE; in the example the buffer takes DIN whole (`absorbed_full`). -/
theorem updateAbsorbsChunk : Obligations.UpdateAbsorbsChunk := by
  intro n s hn hbuf
  refine ⟨fun hm => exec_update_of_error (updateBody_of_unkeyed hm n), fun hm hzero => ?_,
    fun hm hpos => exec_update_of_error (updateBody_of_finalized hm hpos), fun hm hpos => ?_,
    fun hm hempty hklen hvar herrs => ?_, illegalFormsOf 0x02 s⟩
  · subst hzero
    exact exec_update_of_ok (updateBody_zero hm)
  · exact ⟨exec_update_of_ok (updateBody_of_active hm hpos hn hbuf), absorbed_buf_bounds hpos hn hbuf⟩
  · have hbody := updateBody_of_active hm (by decide) (le_refl 16) hbuf
    rw [absorbed_full hempty] at hbody
    exact ⟨_, exec_update_of_ok hbody, rfl, rfl, status_full_active hm (bytesOf_length 16 s.din) hvar hklen herrs⟩

/-- Settles O29: the body's result in each MODE; the example absorbs nothing (`absorbed_zero`). -/
theorem finalProducesTag : Obligations.FinalProducesTag := by
  intro n s hn hbuf
  refine ⟨fun hm => exec_final_of_error (finalBody_of_unkeyed hm n), fun hm hzero => ?_,
    fun hm hpos => exec_final_of_error (finalBody_of_finalized hm hpos),
    fun hm => exec_final_of_ok (finalBody_of_active_eq hm hn hbuf), fun hm hklen hvar herrs => ?_,
    illegalFormsOf 0x03 s⟩
  · subst hzero
    exact exec_final_of_ok (finalBody_zero_of_finalized hm)
  · have hbody := finalBody_of_active_eq hm (Nat.zero_le 16) hbuf
    rw [absorbed_zero hbuf] at hbody
    exact ⟨_, exec_final_of_ok hbody, status_finished false hvar hklen herrs⟩

/-- Settles O30: FINAL's body first, and in the state it leaves R112's comparison (`exec_verify_of_ok`); in the example
the candidate is the tag. -/
theorem verifyComparesTag : Obligations.VerifyComparesTag := by
  intro n clen s hn _ hbuf
  refine ⟨fun hm => exec_verify_of_error (finalBody_of_unkeyed hm n) clen,
    fun hm hpos => exec_verify_of_error (finalBody_of_finalized hm hpos) clen, fun hm hzero => ?_,
    fun hm => exec_verify_of_ok (finalBody_of_active_eq hm hn hbuf) clen, fun hm hklen hvar herrs hcand => ?_,
    illegalFormsOf 0x04 s⟩
  · subst hzero
    exact exec_verify_of_ok (finalBody_zero_of_finalized hm) clen
  · have hbody := finalBody_of_active_eq hm (Nat.zero_le 16) hbuf
    rw [absorbed_zero hbuf] at hbody
    have hmatch : matchesTag (finished s) 16 = true := matchesTag_of_cand hvar hcand
    have hcompared : compared (finished s) 16 = reported 0#4 true (finished s) := by
      rw [compared, hmatch, if_pos rfl]
    refine ⟨_, exec_verify_of_ok hbody 16, ?_⟩
    rw [hcompared]
    exact ⟨rfl, status_finished true hvar hklen herrs⟩

end Sys2Proof.Machine
end

section
/-! SUPPORT. Where the variant is read (R130, R131): TOUT and STATUS.TLEN show the tag cut to its length; every operation
of the engine gives the same result under another VARREG, so that only VERIFY's comparison reads it. -/

namespace Sys2Proof.Machine

open Sys2Proof.Expected

/-! ## The truncator -/

theorem tlen_le (s : State) : s.tlen ≤ 16 := by
  rw [tlen_eq]
  split
  · exact tagLen_le s
  · exact Nat.zero_le 16

/-- A byte of TOUT is TAG's up to TLEN, and zero from there on (R130). -/
theorem byteAt_tout {i : Nat} (hi : i < 16) (s : State) :
    byteAt 16 s.tout i = if i < s.tlen then byteAt 16 s.tag i else 0#8 :=
  byteAt_keepFirst rfl (tlen_le s) hi s.tag

theorem tout_of_not_finalized {s : State} (h : s.mode ≠ .finalized) : s.tout = 0#128 := by
  rw [State.tout, tlen_eq, if_neg h, keepFirst_none rfl]

theorem tout_of_full_length {s : State} (h : s.mode = .finalized) (hvar : s.varReg = .cmac) : s.tout = s.tag := by
  have hlen : tagLen s = 16 := by rw [tagLen, hvar]; rfl
  rw [State.tout, tlen_eq, if_pos h, hlen, keepFirst_all]

/-! ## The same state under another variant -/

/-- `s` with VARREG replaced by `v`. -/
def State.withVariant (s : State) (v : Variant) : State := { s with varReg := v }

@[simp] theorem withVariant_mode (s : State) (v : Variant) : (s.withVariant v).mode = s.mode := rfl

@[simp] theorem withVariant_dinSlice (s : State) (v : Variant) (n : Nat) :
    (s.withVariant v).dinSlice n = s.dinSlice n := rfl

theorem finish_withVariant (s : State) (v : Variant) : finish (s.withVariant v) = (finish s).withVariant v := rfl

theorem absorbLoop_withVariant (fuel : Nat) (staged : List Byte) (s : State) (v : Variant) :
    absorbLoop fuel staged (s.withVariant v) = (absorbLoop fuel staged s).withVariant v := by
  induction fuel generalizing staged s with
  | zero => rfl
  | succ fuel ih =>
    by_cases h : 16 < staged.length
    · simp only [absorbLoop, if_pos h]
      exact ih (staged.drop 16) (s.cbcStep (blockOf (staged.take 16)))
    · simp only [absorbLoop, if_neg h]
      rfl

theorem absorb_withVariant (d : List Byte) (s : State) (v : Variant) :
    absorb d (s.withVariant v) = (absorb d s).withVariant v := absorbLoop_withVariant _ _ s v

/-- UPDATE's body does not read VARREG (R131). -/
theorem updateBody_withVariant (n : Nat) (s : State) (v : Variant) :
    updateBody n (s.withVariant v) = (updateBody n s).map fun t => t.withVariant v := by
  simp only [updateBody, withVariant_mode, withVariant_dinSlice, absorb_withVariant]
  cases s.mode with
  | unkeyed => rfl
  | active | finalized => by_cases h : n = 0 <;> simp only [h, if_true, if_false] <;> rfl

/-- FINAL's body does not read VARREG (R131). -/
theorem finalBody_withVariant (n : Nat) (s : State) (v : Variant) :
    finalBody n (s.withVariant v) = (finalBody n s).map fun t => t.withVariant v := by
  simp only [finalBody, withVariant_mode, withVariant_dinSlice, absorb_withVariant, finish_withVariant]
  cases s.mode with
  | unkeyed => rfl
  | active | finalized => by_cases h : 0 < n <;> simp only [h, if_true, if_false] <;> rfl

/-- A body that gives the same result under another VARREG makes its command report the same (R162). -/
theorem conclude_withVariant {s : State} {v : Variant} {body body' : Except CmdError State}
    (h : body' = body.map fun t => t.withVariant v) :
    conclude (s.withVariant v) body' = (conclude s body).withVariant v := by
  subst h
  cases body <;> rfl

/-- A command other than INIT and VERIFY gives the same result under another VARREG (R131). -/
theorem execState_withVariant {i : Instr} (hinit : ∀ klen u, i ≠ .init klen u) (hverify : ∀ n c, i ≠ .verify n c)
    (s : State) (v : Variant) : execState i (s.withVariant v) = (execState i s).withVariant v := by
  cases i with
  | init klen u => exact absurd rfl (hinit klen u)
  | update n => exact conclude_withVariant (updateBody_withVariant n s v)
  | final n => exact conclude_withVariant (finalBody_withVariant n s v)
  | verify n c => exact absurd rfl (hverify n c)
  | cteq n c => rfl
  | double => rfl

/-- `t` is `s` under the variant `v`, up to the report. -/
def State.VariantUpToReport (s : State) (v : Variant) (t : State) : Prop :=
  t = { s with varReg := v, err := t.err, eq := t.eq, errs := t.errs }

/-- Under another VARREG VERIFY may answer its comparison differently, and nothing else (R112, R131). -/
theorem execState_verify_withVariant (n c : Nat) (s : State) (v : Variant) :
    (execState (.verify n c) s).VariantUpToReport v (execState (.verify n c) (s.withVariant v)) := by
  simp only [execState, finalBody_withVariant]
  cases finalBody n s <;> rfl

/-- INIT writes VAR to VARREG and reads it nowhere else (R85, R131). -/
theorem execState_init_variant {klen : Nat} (h : validKeyLength klen = true) (v v' : Variant) (s : State) :
    execState (.init klen v') s = (execState (.init klen v) s).withVariant v' := by
  rw [execState_init_of_valid h, execState_init_of_valid h]
  rfl

/-- The absorb step keeps the stored key (R100). -/
theorem aes_absorbed (s : State) (n : Nat) (b : Block) : aes (absorbed s n) b = aes s b := by
  unfold absorbed
  split <;> rfl

end Sys2Proof.Machine
end

section
/-! PROOF. The statements of spec/42_truncate.md: the truncator (O22) and the variant's only place (O46). -/

namespace Sys2Proof.Machine

open Sys2Proof.Expected

/-- Settles O22: TOUT byte by byte (`byteAt_tout`), with TLEN as R29 states it (`tlen_eq`). -/
theorem toutIsTruncatedTag : Obligations.ToutIsTruncatedTag := by
  intro s
  refine ⟨fun i hi => ?_, tout_of_not_finalized, tout_of_full_length, (statusTlen_status s).trans (tlen_eq s)⟩
  rw [byteAt_tout hi, tlen_eq]
  by_cases hm : s.mode = .finalized
  · simp only [hm, if_true, true_and]
  · simp only [hm, if_false, false_and, Nat.not_lt_zero]

/-- Settles O46: every command but INIT and VERIFY gives the same result under another VARREG (`execState_withVariant`),
VERIFY up to its report, INIT up to the VARREG it writes; and FINAL in ACTIVE is R104's finish step, which cuts nothing. -/
theorem variantOnlyAtOutput : Obligations.VariantOnlyAtOutput := by
  refine ⟨fun i s v hinit => ?_, fun klen s v v' hk => ?_, fun n s hn hbuf hm => ?_⟩
  · refine ⟨_, _, exec_eq i s, exec_eq i (s.withVariant v), ?_, fun hv => execState_withVariant hinit hv s v⟩
    by_cases hv : ∀ n c, i ≠ .verify n c
    · rw [execState_withVariant hinit hv]
      rfl
    · push Not at hv
      obtain ⟨n, c, rfl⟩ := hv
      exact execState_verify_withVariant n c s v
  · exact ⟨_, _, exec_eq _ s, exec_eq _ s, execState_init_variant ((validKeyLength_iff klen).2 hk) v v' s⟩
  · exact ⟨_, exec_final_of_ok (finalBody_of_active_eq hm hn hbuf), rfl, aes_absorbed s n _⟩

end Sys2Proof.Machine
end

section
/-! SUPPORT. What the host procedures of 43_host_procedures.md share: a command with the check of its error (R140), FINAL 0
with the tag read back, and the comparison of two tags through CTEQ (R143). -/

namespace Sys2Proof.Machine

open Sys2Proof.Expected

/-! ## Commands of the host -/

/-- A well-formed command of the host leaves its own result, with the bus response beside it (R60, R72). -/
theorem hostCommand_of_wellFormed {c : AsmCommand} (h : c.expand.wellFormed = true) (s : State) :
    hostCommand c s = .done () ((execState c.expand s).respond .written) := by
  have hdecode : decode (assemble c) = .ok c.expand := decode_encode h
  simp only [hostCommand_eq, commandState, hdecode, execState_respond]

/-- A command that reports no error passes the host's check (R140). -/
theorem checkedCommand_of_success {c : AsmCommand} (hc : c.expand.wellFormed = true) {s t : State}
    (h : execState c.expand s = t) (herr : t.err = 0#4) : ∃ r, checkedCommand c s = .done () (t.respond r) := by
  subst h
  exact ⟨_, (andThen_done (hostCommand_of_wellFormed hc s)).trans ((checkErr_eq _).trans (if_pos herr))⟩

/-- A command that reports an error ends the host's procedure with its code (R140). -/
theorem checkedCommand_of_error {c : AsmCommand} (hc : c.expand.wellFormed = true) {s t : State}
    (h : execState c.expand s = t) (herr : t.err ≠ 0#4) :
    ∃ r, checkedCommand c s = .failed t.err (t.respond r) := by
  subst h
  exact ⟨_, (andThen_done (hostCommand_of_wellFormed hc s)).trans ((checkErr_eq _).trans (if_neg herr))⟩

/-! ## FINAL 0 and its tag -/

/-- FINAL's body without data finishes an ACTIVE context and keeps a FINALIZED one (R111). -/
theorem finalBody_zero_of_keyed {s : State} (h : s.mode ≠ .unkeyed) :
    finalBody 0 s = .ok (if s.mode = .active then finished s else s) := by
  cases hm : s.mode with
  | unkeyed => exact absurd hm h
  | active => simp only [finalBody, hm, if_neg (Nat.lt_irrefl 0), if_true, finish_eq_finished]
  | finalized => simp only [finalBody_zero_of_finalized hm, reduceCtorEq, if_false]

/-- In UNKEYED there is no tag: FINAL fails with NotKeyed and the host stops there (R111, R140). -/
theorem finalTag_of_unkeyed {s : State} (h : s.mode = .unkeyed) : ∃ t, finalTag s = .failed 4#4 t := by
  have hfinal : execState AsmCommand.digest.expand s = report s false (some .notKeyed) :=
    congrArg (conclude s) (finalBody_of_unkeyed h 0)
  obtain ⟨r, hc⟩ := checkedCommand_of_error rfl hfinal (code_bounds .notKeyed).1
  exact ⟨_, andThen_failed hc⟩

/-- In a keyed core the host reads the tag of the finalized context (R111, R130). -/
theorem finalTag_of_keyed {s : State} (h : s.mode ≠ .unkeyed) :
    ∃ t, finalTag s = .done (tagOf (if s.mode = .active then finished s else s)) t ∧ t.mode = .finalized := by
  have hbody := finalBody_zero_of_keyed h
  generalize (if s.mode = .active then finished s else s) = f at hbody ⊢
  have hmode : f.mode = .finalized := finalBody_ok_mode hbody
  have hfinal : execState AsmCommand.digest.expand s = report f false none := congrArg (conclude s) hbody
  obtain ⟨r, hc⟩ := checkedCommand_of_success rfl hfinal rfl
  obtain ⟨r', htag⟩ := readTag_eq ((report f false none).respond r)
  have hbytes : ((report f false none).respond r).tagBytes = tagOf f := tagBytes_of_finalized hmode
  rw [hbytes] at htag
  exact ⟨_, (andThen_done hc).trans htag, hmode⟩

theorem tagOf_length_le (s : State) : (tagOf s).length ≤ 16 :=
  (List.length_take_le _ _).trans (tagLen_le s)

/-! ## The comparison of two tags -/

/-- CTEQ given by the host answers whether the two slices are equal (R150, R151). -/
theorem hostCommand_cteq {n c : Nat} (hn : n ≤ 16) (hc : c ≤ 16) (s : State) :
    hostCommand (.command (.cteq n c)) s =
      .done () ((report s (decide (s.dinSlice n = s.candSlice c)) none).respond .written) := by
  have hw : (AsmCommand.command (.cteq n c)).expand.wellFormed = true := by
    simp [AsmCommand.expand, Instr.wellFormed, hn, hc]
  rw [hostCommand_of_wellFormed hw, ← ctEqual_eq_decide]
  rfl

/-- The comparison of two tags that fit the windows decides their equality, and leaves MODE as it is (R143). -/
theorem hostCompare_eq {ta tb : List Byte} (ha : ta.length ≤ 16) (hb : tb.length ≤ 16) (s : State) :
    ∃ t, hostCompare ta tb s = .done (decide (ta = tb)) t ∧ t.mode = s.mode := by
  rw [hostCompare, andThen_done (loadDin_eq ha s), andThen_done (loadCand_eq hb _),
    andThen_done (hostCommand_cteq ha hb _), andThen_done (hostRead_status _), hostReturn_eq, statusEq_status]
  simp only [respond_eq, report_eq, State.dinSlice, State.candSlice, take_bytesOf_blockOf_zeroPadded ha,
    take_bytesOf_blockOf_zeroPadded hb]
  exact ⟨_, rfl, rfl⟩

/-! ## ENGINE_EQUAL, by how its parts end (R143) -/

theorem engineEqual_of_ne {x y : HostVariant} (h : x ≠ y) (a b : State) :
    engineEqual x y a b = .answer false a b :=
  if_pos h

theorem engineEqual_of_first_failed (x : HostVariant) {a a' : State} {code : BitVec 4}
    (h : finalTag a = .failed code a') (b : State) : engineEqual x x a b = .failed code a' b := by
  simp only [engineEqual, ne_eq, not_true_eq_false, if_false, h]

theorem engineEqual_of_second_failed (x : HostVariant) {a a' b b' : State} {ta : List Byte} {code : BitVec 4}
    (ha : finalTag a = .done ta a') (hb : finalTag b = .failed code b') :
    engineEqual x x a b = .failed code a' b' := by
  simp only [engineEqual, ne_eq, not_true_eq_false, if_false, ha, hb]

theorem engineEqual_of_compared (x : HostVariant) {a a' a'' b b' : State} {ta tb : List Byte} {equal : Bool}
    (ha : finalTag a = .done ta a') (hb : finalTag b = .done tb b') (hc : hostCompare ta tb a' = .done equal a'') :
    engineEqual x x a b = .answer equal a'' b' := by
  simp only [engineEqual, ne_eq, not_true_eq_false, if_false, ha, hb, hc]

end Sys2Proof.Machine
end

section
/-! PROOF. The statement of spec/43_host_procedures.md about two cores: ENGINE_EQUAL (O52). -/

namespace Sys2Proof.Machine

open Sys2Proof.Expected

/-- Settles O52: FINAL 0 reads each keyed core's tag or fails in an UNKEYED one (`finalTag_of_keyed`,
`finalTag_of_unkeyed`), and CTEQ on the first core decides the equality of two tags, which fit its windows
(`hostCompare_eq`). -/
theorem engineEqualComparesTags : Obligations.EngineEqualComparesTags := by
  intro x y a b _ _
  refine ⟨fun hxy => engineEqual_of_ne hxy a b, ?_, ?_, ?_⟩
  · rintro rfl hka hkb
    obtain ⟨a', ha, hma⟩ := finalTag_of_keyed hka
    obtain ⟨b', hb, hmb⟩ := finalTag_of_keyed hkb
    obtain ⟨a'', hc, hmc⟩ := hostCompare_eq (tagOf_length_le _) (tagOf_length_le _) a'
    exact ⟨a'', b', engineEqual_of_compared x ha hb hc, hmc.trans hma, hmb⟩
  · rintro rfl hua
    obtain ⟨a', ha⟩ := finalTag_of_unkeyed hua
    exact ⟨a', engineEqual_of_first_failed x ha b⟩
  · rintro rfl hka hub
    obtain ⟨a', ha, _⟩ := finalTag_of_keyed hka
    obtain ⟨b', hb⟩ := finalTag_of_unkeyed hub
    exact ⟨a', b', engineEqual_of_second_failed x ha hb⟩

end Sys2Proof.Machine
end

section
/-! SUPPORT. The comparator of 44_compare.md in the spec's forms (R150): equality by lengths and byte pairs, and the
accumulator over every index. -/

namespace Sys2Proof.Machine

theorem eq_iff_length_eq_and_bytes_eq (a b : List Byte) :
    a = b ↔ a.length = b.length ∧ ∀ i, i < a.length → a[i]? = b[i]? := by
  constructor
  · rintro rfl
    exact ⟨rfl, fun _ _ => rfl⟩
  · rintro ⟨hlen, hbytes⟩
    exact List.ext_getElem?' fun i hi => hbytes i (by rwa [← hlen, max_self] at hi)

/-- The byte pairs of R150's loop, read by index, are the pairs the model's accumulator zips. -/
theorem map_range_xor_eq_zipWith {a b : List Byte} (h : a.length = b.length) :
    (List.range a.length).map (fun i => a.getD i 0#8 ^^^ b.getD i 0#8) = List.zipWith (· ^^^ ·) a b := by
  apply List.ext_getElem
  · simp [h]
  · intro i hi _
    have ha : i < a.length := by simpa using hi
    have hb : i < b.length := h ▸ ha
    simp [ha, hb]

/-- The loop of R150 over every index accumulates `diffBits`. -/
theorem foldl_range_eq_diffBits {a b : List Byte} (h : a.length = b.length) :
    (List.range a.length).foldl (fun acc i => acc ||| (a.getD i 0#8 ^^^ b.getD i 0#8)) 0#8 = diffBits a b := by
  rw [diffBits, ← map_range_xor_eq_zipWith h, List.foldl_map]

theorem ctEqual_iff_diffBits_eq_zero {a b : List Byte} (h : a.length = b.length) :
    ctEqual a b = true ↔ diffBits a b = 0#8 := by
  rw [ctEqual, if_pos h, beq_iff_eq]

end Sys2Proof.Machine
end

section
/-! PROOF. The statements of spec/44_compare.md: the comparator (O25) and CTEQ (O31). -/

namespace Sys2Proof.Machine

open Sys2Proof.Expected

/-- Settles O25: the comparator decides equality (`ctEqual_eq_decide`), which is that of the lengths and the byte pairs;
on equal lengths it tests the accumulator of the loop over every index (`foldl_range_eq_diffBits`). -/
theorem comparatorDecidesEquality : Obligations.ComparatorDecidesEquality := by
  refine ⟨fun a b => ?_, fun a b h => ?_, ?_⟩
  · rw [ctEqual_eq_decide, decide_eq_true_iff, eq_iff_length_eq_and_bytes_eq]
  · rw [ctEqual_iff_diffBits_eq_zero h, foldl_range_eq_diffBits h]
  · rw [ctEqual_eq_decide, decide_eq_true rfl]

/-- Settles O31: CTEQ's report in the form of R162, with the comparator's answer as equality (`ctEqual_eq_decide`). -/
theorem cteqReportsEquality : Obligations.CteqReportsEquality := by
  intro n clen s _ _
  refine ⟨?_, illegalFormsOf 0x05 s⟩
  have hdone : execState (.cteq n clen) s = reported 0#4 (ctEqual (s.dinSlice n) (s.candSlice clen)) s :=
    report_eq_reported _ _ _
  rw [exec_eq, hdone, ctEqual_eq_decide, State.dinSlice, State.candSlice]

end Sys2Proof.Machine
end

section
/-! SUPPORT. How a command word ends (R160 to R163): its report is a success, an error that writes nothing else, or
VERIFY's TagMismatch; a legal command reports the code and the comparison the rules expect. And what the host sees of the
state in terms of the registers it is told of (R173). -/

namespace Sys2Proof.Machine

open Sys2Proof.Expected

/-! ## What the host sees -/

/-- TOUT in FINALIZED is made of the tag FINAL returns, and of zeros (R26, R130). -/
theorem tout_of_finalized {s : State} (h : s.mode = .finalized) :
    s.tout = ofBytes 128 (tagOf s ++ List.replicate (16 - tagLen s) 0#8) := by
  rw [State.tout, tlen_eq, if_pos h, keepFirst_eq_ofBytes rfl (tagLen_le s), tagOf]

/-- TOUT depends on MODE, VARREG and the tag shown in FINALIZED. -/
theorem tout_eq_of_tagOf_eq {s t : State} (hmode : s.mode = t.mode) (hvar : s.varReg = t.varReg)
    (htag : s.mode = .finalized → tagOf s = tagOf t) : s.tout = t.tout := by
  by_cases hs : s.mode = .finalized
  · have hlen : tagLen s = tagLen t := by rw [tagLen, tagLen, hvar]
    rw [tout_of_finalized hs, tout_of_finalized (hmode ▸ hs), htag hs, hlen]
  · rw [tout_of_not_finalized hs, tout_of_not_finalized (hmode ▸ hs)]

/-! ## The three ways a command ends -/

/-- A success of FINAL's body leaves ERRS to the report (R111). -/
theorem finalBody_ok_errs {len : Nat} {s s' : State} (h : finalBody len s = .ok s') : s'.errs = s.errs := by
  rw [finalBody_frame h]

/-- VERIFY's comparison succeeds with EQ = 1, or raises TagMismatch with EQ = 0 (R112). -/
theorem compareTag_cases (clen : Nat) (s : State) :
    compareTag clen s = report s true none ∨ compareTag clen s = report s false (some .tagMismatch) := by
  unfold compareTag
  cases ctEqual (s.candSlice clen) s.tagBytes with
  | true => exact .inl rfl
  | false => exact .inr rfl

/-- A command ends in a success, with EQ = 1 only from a comparison, in an error that only reports, or in VERIFY's
TagMismatch, which reports in the state FINAL's body left (R161, R162, R112). -/
theorem execState_report_cases (i : Instr) (s : State) :
    (∃ u q, execState i s = report u q none ∧ u.errs = s.errs ∧
      (q = true → (∃ n c, i = .cteq n c) ∨ ∃ n c, i = .verify n c)) ∨
    (∃ e, e ≠ .tagMismatch ∧ execState i s = report s false (some e)) ∨
    (∃ n c u, i = .verify n c ∧ finalBody n s = .ok u ∧ execState i s = report u false (some .tagMismatch)) := by
  rcases execState_cases i s with ⟨klen, v, _, _, he⟩ | ⟨e, hne, _, he⟩ | ⟨n, _, _, _, he⟩ | ⟨_, _, he⟩ |
    ⟨n, u, _, hf, he⟩ | ⟨n, c, u, hi, hf, he⟩ | ⟨n, c, hi, he⟩ | ⟨_, he⟩
  · exact .inl ⟨_, false, he, rfl, nofun⟩
  · exact .inr (.inl ⟨e, hne, he⟩)
  · exact .inl ⟨_, false, he, absorb_errs _ s, nofun⟩
  · exact .inl ⟨s, false, he, rfl, nofun⟩
  · exact .inl ⟨u, false, he, finalBody_ok_errs hf, nofun⟩
  · rcases compareTag_cases c u with hc | hc
    · exact .inl ⟨u, true, he.trans hc, finalBody_ok_errs hf, fun _ => .inr ⟨n, c, hi⟩⟩
    · exact .inr (.inr ⟨n, c, u, hi, hf, he.trans hc⟩)
  · exact .inl ⟨s, _, he, rfl, fun _ => .inl ⟨n, c, hi⟩⟩
  · exact .inl ⟨_, false, he, rfl, nofun⟩

/-- The ends of `execState_report_cases`, for every command word; an illegal word only reports (R68). -/
theorem commandState_report_cases (w : Word) (s : State) :
    (∃ u q, commandState w s = report u q none ∧ u.errs = s.errs ∧
      (q = true → (∃ n c, decode w = .ok (.cteq n c)) ∨ ∃ n c, decode w = .ok (.verify n c))) ∨
    (∃ e, e ≠ .tagMismatch ∧ commandState w s = report s false (some e)) ∨
    (∃ n c u, decode w = .ok (.verify n c) ∧ finalBody n s = .ok u ∧
      commandState w s = report u false (some .tagMismatch)) := by
  rcases commandState_cases w s with ⟨i, hd, hc⟩ | hc
  · rw [hc, hd]
    simpa only [Except.ok.injEq] using execState_report_cases i s
  · exact .inr (.inl ⟨.illegalCommand, nofun, hc⟩)

/-- Of the errors only TagMismatch has the code 3 (R160). -/
theorem code_eq_three_iff (e : CmdError) : e.code = 3#4 ↔ e = .tagMismatch := by cases e <;> decide

/-- The bus response to a CMD write passes through FINAL's body untouched (R45). -/
theorem finalBody_of_respond {n : Nat} {s u : State} {r : Response} (h : finalBody n (s.respond r) = .ok u) :
    ∃ v, finalBody n s = .ok v ∧ u = v.respond r := by
  rw [finalBody_respond] at h
  cases hf : finalBody n s with
  | error e => rw [hf] at h; cases h
  | ok v => rw [hf] at h; cases h; exact ⟨v, rfl, rfl⟩

/-- Every CMD write ends by writing the report, over a state whose ERRS is still the one before (R162). -/
theorem commandState_eq_report (w : Word) (s : State) :
    ∃ u q e, commandState w s = report u q e ∧ u.errs = s.errs := by
  rcases commandState_report_cases w s with ⟨u, q, hc, hu, _⟩ | ⟨e, _, hc⟩ | ⟨_, _, u, _, hf, hc⟩
  · exact ⟨u, q, none, hc, hu⟩
  · exact ⟨s, false, some e, hc, rfl⟩
  · exact ⟨u, false, _, hc, finalBody_ok_errs hf⟩

/-- Every CMD write leaves a code of R160 in ERR. -/
theorem commandState_err_le (w : Word) (s : State) : (commandState w s).err.toNat ≤ 5 := by
  obtain ⟨u, q, e, hc, _⟩ := commandState_eq_report w s
  rw [hc]
  exact codeOf_le e

/-- Every CMD write sets ERRS on a nonzero code and else leaves it as it was (R162). -/
theorem commandState_errs (w : Word) (s : State) :
    (commandState w s).errs = (s.errs || decide ((commandState w s).err ≠ 0#4)) := by
  obtain ⟨u, q, e, hc, hu⟩ := commandState_eq_report w s
  rw [hc, report_eq_reported, ← hu]
  rfl

/-! ## The code and the comparison of a legal command -/

/-- The command `i` completes in `s` with the code and the comparison result the rules expect of it (R162, R163). -/
def ReportsExpected (i : Instr) (s : State) : Prop :=
  ∃ u, u.errs = s.errs ∧ exec i s = .next (reported (errorCode i s) (eqResult i s) u)

/-- A command whose answer is a report with the expected code and comparison result. -/
theorem reportsExpected_of_exec {i : Instr} {s u : State} {code : BitVec 4} {q : Bool} (hu : u.errs = s.errs)
    (hx : exec i s = .next (reported code q u)) (hcode : errorCode i s = code) (hq : eqResult i s = q) :
    ReportsExpected i s :=
  ⟨u, hu, by rw [hcode, hq]; exact hx⟩

/-- INIT checks the key length, in every MODE (R85, R163). -/
theorem reportsExpected_init (klen : Nat) (v : Variant) (s : State) : ReportsExpected (.init klen v) s := by
  rcases initBody_cases klen v s with ⟨hk, hb⟩ | ⟨hk, hb⟩
  · exact reportsExpected_of_exec (u := (s.loadKey klen v).generateSubkeys.startContext) rfl
      (congrArg Host.Outcome.next (conclude_of_ok hb)) (if_pos ((validKeyLength_iff klen).1 hk)) rfl
  · exact reportsExpected_of_exec rfl (congrArg Host.Outcome.next (conclude_of_error hb))
      (if_neg (by simp [← validKeyLength_iff, hk])) rfl

/-- UPDATE checks for a key, then for data, then for FINALIZED (R110, R163). -/
theorem reportsExpected_update (n : Nat) (s : State) : ReportsExpected (.update n) s := by
  rcases updateBody_cases n s with ⟨hm, hb⟩ | ⟨hm, rfl, hb⟩ | ⟨hm, _, hb⟩ | ⟨hm, hn, hb⟩
  · exact reportsExpected_of_exec rfl (exec_update_of_error hb) (by simp [errorCode, hm, CmdError.code]) rfl
  · exact reportsExpected_of_exec rfl (exec_update_of_ok hb) (by simp [errorCode, hm]) rfl
  · exact reportsExpected_of_exec (absorb_errs _ s) (exec_update_of_ok hb) (by simp [errorCode, hm]) rfl
  · exact reportsExpected_of_exec rfl (exec_update_of_error hb) (by simp [errorCode, hm, hn, CmdError.code]) rfl

/-- FINAL checks for a key, then for data in FINALIZED (R111, R163). -/
theorem reportsExpected_final (n : Nat) (s : State) : ReportsExpected (.final n) s := by
  rcases finalBody_cases n s with ⟨hm, hb⟩ | ⟨hm, rfl, hb⟩ | ⟨hm, hn, hb⟩ | ⟨hm, _, hb⟩ | ⟨hm, _, hb⟩
  · exact reportsExpected_of_exec rfl (exec_final_of_error hb) (by simp [errorCode, hm, CmdError.code]) rfl
  · exact reportsExpected_of_exec rfl (exec_final_of_ok hb) (by simp [errorCode, hm]) rfl
  · exact reportsExpected_of_exec rfl (exec_final_of_error hb)
      (by simp [errorCode, hm, Nat.pos_of_ne_zero hn, CmdError.code]) rfl
  · exact reportsExpected_of_exec (finalBody_ok_errs hb) (exec_final_of_ok hb) (by simp [errorCode, hm]) rfl
  · exact reportsExpected_of_exec (finalBody_ok_errs hb) (exec_final_of_ok hb) (by simp [errorCode, hm]) rfl

/-- VERIFY checks what FINAL checks, then the candidate against the tag of the state FINAL's body leaves (R112, R163). -/
theorem reportsExpected_verify {n : Nat} (clen : Nat) {s : State} (hn : n ≤ 16) (hbuf : s.buf.length ≤ 16) :
    ReportsExpected (.verify n clen) s := by
  cases hm : s.mode with
  | unkeyed =>
    exact reportsExpected_of_exec rfl (exec_verify_of_error (finalBody_of_unkeyed hm n) clen)
      (by simp [errorCode, hm, CmdError.code]) (by simp [eqResult, hm])
  | active =>
    have hb := finalBody_of_active_eq hm hn hbuf
    exact reportsExpected_of_exec (finalBody_ok_errs hb) (exec_verify_of_ok hb clen) (by simp [errorCode, hm])
      (by simp [eqResult, hm])
  | finalized =>
    rcases Nat.eq_zero_or_pos n with rfl | hpos
    · exact reportsExpected_of_exec rfl (exec_verify_of_ok (finalBody_zero_of_finalized hm) clen)
        (by simp [errorCode, hm]) (by simp [eqResult, hm])
    · exact reportsExpected_of_exec rfl (exec_verify_of_error (finalBody_of_finalized hm hpos) clen)
        (by simp [errorCode, hm, hpos, CmdError.code]) (by simp [eqResult, hm, hpos])

/-- A well-formed command completes with the code and the comparison result the rules expect. Only VERIFY's comparison
reads what FINAL computed, so only it needs the bound on BUF. -/
theorem reportsExpected {i : Instr} {s : State} (hi : i.wellFormed = true) (hbuf : s.buf.length ≤ 16) :
    ReportsExpected i s := by
  cases i with
  | init klen v => exact reportsExpected_init klen v s
  | update n => exact reportsExpected_update n s
  | final n => exact reportsExpected_final n s
  | verify n clen =>
    obtain ⟨hn, _⟩ : n ≤ 16 ∧ clen ≤ 16 := by simpa [Instr.wellFormed] using hi
    exact reportsExpected_verify clen hn hbuf
  | cteq n clen =>
    obtain ⟨hn, hc⟩ : n ≤ 16 ∧ clen ≤ 16 := by simpa [Instr.wellFormed] using hi
    exact ⟨s, rfl, (cteqReportsEquality n clen s hn hc).1⟩
  | double => exact ⟨{ s with dout := dbl s.din }, rfl, (doubleWritesDout.1 s).1⟩

end Sys2Proof.Machine
end

section
/-! PROOF. The statements of spec/60_exceptions.md: what cannot be read (O20), the frame of an error (O36), the report of
every command (O37) and its one code (O38). -/

namespace Sys2Proof.Machine

open Sys2Proof.Expected

/-- Settles O20: a read depends on the observable state alone (`busRead_of_view_eq`), whose TOUT is made of the tag shown
(`tout_eq_of_tagOf_eq`) and whose STATUS is assembled from the registers named (`status_of_fields`). -/
theorem secretsCannotBeRead : Obligations.SecretsCannotBeRead := by
  intro s t hdin hcand hdout hmode hvar hklen hbuf herr heq herrs htag off width
  have hstatus : s.status = t.status :=
    (status_of_fields t.err t.eq t.mode t.varReg t.buf.length t.klenReg t.errs herr heq hmode hvar hbuf hklen
      herrs).trans (status_of_fields _ _ _ _ _ _ _ rfl rfl rfl rfl rfl rfl rfl).symm
  have hview : s.view = t.view :=
    (view_eq_iff s t).2 ⟨hdin, hcand, tout_eq_of_tagOf_eq hmode hvar htag, hdout, hstatus⟩
  exact busRead_of_view_eq hview off width

/-- Settles O36: a CMD write that ends with an error only reports, or is a VERIFY's TagMismatch, which reports in the state
FINAL's body leaves (`commandState_report_cases`); the bus response passes through that body (`finalBody_of_respond`). -/
theorem errorsLeaveNoPartialState : Obligations.ErrorsLeaveNoPartialState := by
  intro w s t h herr
  rw [cmdWrite_eq] at h
  cases h
  rcases commandState_report_cases w (s.respond .written) with ⟨u, q, hc, _⟩ | ⟨e, hne, hc⟩ | ⟨n, c, u, hd, hf, hc⟩ <;>
    rw [hc] at herr ⊢
  · exact absurd rfl herr
  · exact ⟨fun _ => rfl, fun h3 => absurd ((code_eq_three_iff e).1 h3) hne⟩
  · obtain ⟨v, hv, rfl⟩ := finalBody_of_respond hf
    have hmode : v.mode = .finalized := finalBody_ok_mode hv
    refine ⟨fun h3 => absurd rfl h3, fun _ => ⟨n, c, reported 0#4 false v, hd, exec_final_of_ok hv, hmode, ?_⟩⟩
    simp [report, reported, State.respond, codeOf, CmdError.code]

/-- Settles O37: every CMD write leaves a code of R160 and a sticky ERRS (`commandState_err_le`, `commandState_errs`), EQ =
1 only from a comparison that succeeded (`commandState_report_cases`), and a well-formed command the report the rules
expect (`reportsExpected`). -/
theorem everyCommandReports : Obligations.EveryCommandReports := by
  refine ⟨fun w s => ⟨_, cmdWrite_eq w s, commandState_err_le w _, commandState_errs w _, fun hw => ?_, fun hq => ?_⟩,
    fun i s hi hbuf => ?_⟩
  · obtain ⟨e, he⟩ := (decode_error_iff_illegalWord w).2 hw
    rw [commandState_of_error he]
    exact ⟨rfl, rfl⟩
  · rcases commandState_report_cases w (s.respond .written) with ⟨u, q, hc, _, hcompare⟩ | ⟨e, _, hc⟩ |
      ⟨_, _, u, _, _, hc⟩ <;> rw [hc] at hq ⊢
    · exact ⟨rfl, hcompare hq⟩
    · cases hq
    · cases hq
  · obtain ⟨u, hu, hx⟩ := reportsExpected hi hbuf
    exact ⟨_, hx, rfl, rfl, by rw [← hu]; rfl⟩

/-- Settles O38: an illegal word reports 5 (`cmdWrite_of_illegalWord`), a well-formed command the code of the first check
it fails (`reportsExpected`). -/
theorem oneCodeByOrderOfChecks : Obligations.OneCodeByOrderOfChecks := by
  refine ⟨fun w s hw => ⟨_, cmdWrite_of_illegalWord hw s, rfl⟩, fun i s hi hbuf => ?_⟩
  obtain ⟨u, _, hx⟩ := reportsExpected hi hbuf
  exact ⟨_, hx, rfl⟩

end Sys2Proof.Machine
end

section
/-! SUPPORT. What reset leaves (R180, R181): the start state with the later inputs and the response to the transaction cut
off beside it; the two words that are computed from the state, STATUS and TOUT, then read zero. -/

namespace Sys2Proof.Machine

/-- With nothing issued the step stays put (R182). -/
theorem step_idle {s : State} (h : s.pending = []) : step s = .next s := by
  simp [step, stepInput, h]

/-- TOUT shows no byte of TAG in the start state, which is not FINALIZED (R130). -/
@[simp] theorem reset_tout : State.reset.tout = 0#128 := tout_of_not_finalized (by decide)

/-- STATUS in the start state, as R180 repeats it from R29 (O21). -/
@[simp] theorem reset_status : State.reset.status = 0#32 := by
  obtain ⟨_, _, _, hreset⟩ := statusWordFields
  exact hreset

/-- TOUT and STATUS read neither the later inputs nor the response, all in which `takeReset` differs from the start. -/
theorem takeReset_tout (cut : Option Access) (later : List Input) : (takeReset cut later).tout = 0#128 := reset_tout

theorem takeReset_status (cut : Option Access) (later : List Input) : (takeReset cut later).status = 0#32 := reset_status

/-- The transaction cut off is seen in the response alone (R181). -/
theorem takeReset_some (a : Access) (later : List Input) :
    takeReset (some a) later = { takeReset none later with response := some (Config.resetAbortResponse a) } := rfl

end Sys2Proof.Machine
end

section
/-! PROOF. The statements of spec/70_reset_and_hazards.md: the reset values (O10), the idle core (O8) and the transaction
cut off by reset (O11). -/

namespace Sys2Proof.Machine

/-- Settles O10: the step answers `takeReset` (`step_reset`), whose registers are the start state's by definition and whose
STATUS and TOUT are computed from those (`takeReset_status`, `takeReset_tout`). -/
theorem resetValuesOfEveryElement : Obligations.ResetValuesOfEveryElement := by
  refine ⟨fun s cut rest hp => ⟨takeReset cut rest, step_reset hp, ?_⟩, reset_status, reset_tout, rfl, rfl, rfl, rfl⟩
  exact ⟨rfl, rfl, rfl, rfl, rfl, rfl, rfl, rfl, rfl, rfl, rfl, rfl, rfl, rfl, rfl, rfl, rfl,
    takeReset_status cut rest, takeReset_tout cut rest, rfl⟩

/-- Settles O8: the step takes the oldest input, and there is none (`step_idle`). -/
theorem idleCoreDoesNothing : Obligations.IdleCoreDoesNothing := fun _ => step_idle

/-- Settles O11: both steps answer `takeReset` (`step_reset`), which keeps of the transaction cut off only the response
(`takeReset_some`). -/
theorem cutOffTransactionHasNoEffect : Obligations.CutOffTransactionHasNoEffect := by
  intro s s' a rest hcut hnone
  refine ⟨takeReset none rest, step_reset hnone, rfl, ?_⟩
  rw [step_reset hcut, takeReset_some]

end Sys2Proof.Machine
end

section
/-! SUPPORT. What keeps the invariant of R37: it reads the engine's context and the report alone, so each operation is
seen through what it does to those; a command ends by writing the report, which is sound whatever the state. -/

namespace Sys2Proof.Machine

/-! ## What the invariant reads -/

/-- The invariant passes to a state with the same context whose own report is sound. -/
theorem State.Inv.of_context_eq {s t : State} (h : s.Inv) (hc : t.context = s.context) (hr : t.ReportSound) :
    t.Inv := by
  obtain ⟨hmode, hkreg, hklen, hvar, hl, hk1, hk2, hbuf, hchain, htag⟩ := (context_eq_iff t s).1 hc
  obtain ⟨hunkeyed, hsubkeys, hfinal, hbuffer, _, htail⟩ := h
  refine ⟨?_, ?_, ?_, ?_, hr, ?_⟩
  · simpa only [State.UnkeyedClean, hmode, hklen, hbuf, hchain, htag, hl, hk1, hk2, hvar] using hunkeyed
  · simpa only [State.SubkeysOfKey, State.key, hmode, hklen, hkreg, hl, hk1, hk2] using hsubkeys
  · simpa only [State.FinalizedClean, hmode, hbuf, hchain, htag] using hfinal
  · simpa only [State.BufferBounded, hmode, hbuf, hchain, htag] using hbuffer
  · simpa only [State.KeyTailZero, hkreg, hklen] using htail

/-- The report of R162 is sound over every state, when EQ = 1 goes with success only. -/
theorem reportSound_report {q : Bool} {e : Option CmdError} (h : q = true → e = none) (s : State) :
    (report s q e).ReportSound := by
  refine ⟨codeOf_le e, fun hq => (codeOf_eq_zero_iff e).2 (h hq), fun herr => ?_⟩
  have he : e.isSome = true := Option.isSome_iff_ne_none.2 (mt (codeOf_eq_zero_iff e).2 herr)
  rw [report_errs, he, Bool.or_true]

theorem inv_report {s : State} (h : s.Inv) {q : Bool} {e : Option CmdError} (hq : q = true → e = none) :
    (report s q e).Inv :=
  h.of_context_eq rfl (reportSound_report hq s)

/-! ## The operations of the engine -/

/-- The start state holds nothing (R180). -/
theorem inv_reset : State.reset.Inv where
  unkeyed _ := ⟨rfl, rfl, rfl, rfl, rfl, rfl, rfl, rfl⟩
  subkeys h := absurd rfl h
  finalized := nofun
  buffer := ⟨Nat.zero_le 16, nofun⟩
  report := ⟨Nat.zero_le 5, nofun, fun h => absurd rfl h⟩
  keyTail := (keepFirst_zero 32 0).symm

/-- INIT's context: subkeys of a key of a legal length, nothing buffered, and zeros past the key (R85). -/
theorem inv_init {s : State} (h : s.Inv) {klen : Nat} (hk : validKeyLength klen = true) (v : Variant) :
    ((s.loadKey klen v).generateSubkeys.startContext).Inv where
  unkeyed := nofun
  subkeys _ := ⟨hk, rfl, rfl, rfl⟩
  finalized := nofun
  buffer := ⟨Nat.zero_le 16, fun _ => ⟨rfl, fun _ => rfl⟩⟩
  report := h.report
  keyTail := (keepFirst_idem rfl (validKeyLength_le hk) s.keyw).symm

/-- An absorb step in ACTIVE leaves at most 16 bytes; it leaves none only when nothing was staged, and then nothing was
chained (R100, R101). -/
theorem inv_absorb {s : State} (h : s.Inv) (hm : s.mode = .active) (d : List Byte) : (absorb d s).Inv where
  unkeyed hu := by
    rw [absorb_mode, hm] at hu
    cases hu
  subkeys _ := by
    simpa only [absorb_klenReg, absorb_lreg, absorb_k1reg, absorb_k2reg, absorb_key] using
      h.subkeys (by rw [hm]; decide)
  finalized hf := by
    rw [absorb_mode, hm] at hf
    cases hf
  buffer := by
    obtain ⟨_, hactive⟩ := h.buffer
    obtain ⟨htag, hchain⟩ := hactive hm
    obtain ⟨hle, hne⟩ := absorb_buf_length d s
    refine ⟨hle, fun _ => ⟨(absorb_tag d s).trans htag, fun hnil => ?_⟩⟩
    have hstaged : s.buf ++ d = [] := by
      by_contra hstaged
      exact hne hstaged hnil
    rw [absorb_short (by rw [hstaged]; exact Nat.zero_le 16)]
    exact hchain (List.append_eq_nil_iff.1 hstaged).1
  report := by simpa only [State.ReportSound, absorb_err, absorb_eq, absorb_errs] using h.report
  keyTail := by simpa only [State.KeyTailZero, absorb_kreg, absorb_klenReg] using h.keyTail

/-- The finish step consumes the buffer and gives the chain the tag (R104). -/
theorem inv_finish {s : State} (h : s.Inv) (hm : s.mode = .active) : (finish s).Inv where
  unkeyed := nofun
  subkeys _ := h.subkeys (by rw [hm]; decide)
  finalized _ := ⟨rfl, rfl⟩
  buffer := ⟨Nat.zero_le 16, nofun⟩
  report := h.report
  keyTail := h.keyTail

/-- A success of FINAL's body finishes an ACTIVE context, with or without a chunk, or keeps a FINALIZED one (R111). -/
theorem inv_finalBody {s u : State} (h : s.Inv) {n : Nat} (hf : finalBody n s = .ok u) : u.Inv := by
  rcases finalBody_cases n s with ⟨_, e⟩ | ⟨_, _, e⟩ | ⟨_, _, e⟩ | ⟨hm, _, e⟩ | ⟨hm, _, e⟩ <;> cases e.symm.trans hf
  · exact h
  · exact inv_finish h hm
  · exact inv_finish (inv_absorb h hm _) ((absorb_mode _ s).trans hm)

/-! ## Commands and CMD writes -/

/-- VERIFY's report never shows EQ = 1 with TagMismatch (R112). -/
theorem inv_compareTag {s : State} (h : s.Inv) (clen : Nat) : (compareTag clen s).Inv := by
  rcases compareTag_cases clen s with hc | hc <;> rw [hc]
  · exact inv_report h fun _ => rfl
  · exact inv_report h nofun

/-- Every command keeps the invariant: it writes the report over a state that has it. -/
theorem inv_execState {s : State} (h : s.Inv) (i : Instr) : (execState i s).Inv := by
  rcases execState_cases i s with ⟨klen, v, _, hk, he⟩ | ⟨e, _, _, he⟩ | ⟨n, _, _, hm, he⟩ | ⟨_, _, he⟩ |
    ⟨n, u, _, hf, he⟩ | ⟨n, c, u, _, hf, he⟩ | ⟨n, c, _, he⟩ | ⟨_, he⟩ <;> rw [he]
  · exact inv_report (inv_init h hk v) nofun
  · exact inv_report h nofun
  · exact inv_report (inv_absorb h hm _) nofun
  · exact inv_report h nofun
  · exact inv_report (inv_finalBody h hf) nofun
  · exact inv_compareTag (inv_finalBody h hf) c
  · exact inv_report h fun _ => rfl
  · exact h.of_context_eq rfl (reportSound_report (q := false) nofun _)

/-- An illegal word only reports (R68). -/
theorem inv_commandState {s : State} (h : s.Inv) (w : Word) : (commandState w s).Inv := by
  rcases commandState_cases w s with ⟨i, _, hc⟩ | hc <;> rw [hc]
  · exact inv_execState h i
  · exact inv_report h nofun

/-- The inputs still to come and the bus response are no part of the invariant. -/
theorem inv_taking {s : State} (h : s.Inv) (rest : List Input) (r : Response) : (s.taking rest r).Inv :=
  h.of_context_eq rfl h.report

end Sys2Proof.Machine
end

section
/-! PROOF. The statements about every step and its start: the invariant (O41, O40), the order of the inputs (O9); and
the words of R63 (O5). -/

namespace Sys2Proof.Machine

/-- Settles O41: over every case of a step (`step_next_cases`). A reset leaves the start state's context, a CMD write
what its command leaves, and the rest changes neither the context nor the report. -/
theorem stepKeepsInvariant : Obligations.StepKeepsInvariant := by
  intro s t hs h
  rcases step_next_cases h with ⟨_, rfl⟩ | ⟨cut, rest, _, rfl⟩ | ⟨_, _, rest, w, _, rfl⟩ | ⟨rest, w, _, rfl⟩ |
    ⟨_, rest, w, j, _, rfl | rfl | rfl⟩
  · exact hs
  · exact inv_reset.of_context_eq rfl inv_reset.report
  · exact inv_taking hs rest (.data w)
  · exact inv_commandState (inv_taking hs rest .written) w
  · exact hs.of_context_eq rfl hs.report
  · exact hs.of_context_eq rfl hs.report
  · exact hs.of_context_eq rfl hs.report

/-- Settles O40: `inv_reset`, clause by clause. -/
theorem invariantAtReset : Obligations.InvariantAtReset := inv_reset

/-- Settles O9: the step takes the oldest input (`step_cases`), and neither a transaction (`busAccess_pending`) nor a
reset changes the inputs after it. -/
theorem inputsTakenInOrder : Obligations.InputsTakenInOrder := by
  intro s t h
  rcases step_cases s with ⟨hp, hs⟩ | ⟨cut, rest, hp, hs⟩ | ⟨a, rest, hp, hs⟩ <;> rw [hs] at h
  · cases h
    rw [hp, List.tail_nil]
  · cases h
    rw [hp, List.tail_cons]
    rfl
  · rw [hp, List.tail_cons, busAccess_pending h]

/-- Settles O5: the encoder's sum fits 32 bits (`enc_toNat`); each example encodes to its word by computation, and so
the word decodes to the example (`decode_eq_ok_iff_encode_eq`). -/
theorem commandWordsOfSpec : Obligations.CommandWordsOfSpec := by
  have back : ∀ {i : Instr} {w : Word}, encode i = w → i.wellFormed = true → decode w = .ok i :=
    fun hw hi => decode_eq_ok_iff_encode_eq.2 ⟨hi, hw⟩
  exact ⟨fun _ _ _ _ => enc_toNat, rfl, back rfl rfl, rfl, back rfl rfl, rfl, back rfl rfl, rfl, back rfl rfl, rfl,
    back rfl rfl, rfl, back rfl rfl, rfl, back rfl rfl, rfl, back rfl rfl, rfl, back rfl rfl, rfl, back rfl rfl⟩

end Sys2Proof.Machine
end

section
/-! SUPPORT. The doubler over GF(2) (R81): a block as a polynomial of degree below 128, its shift and sum there, and the
doubler as a linear map whose kernel is zero. -/

namespace Sys2Proof.Machine

open Polynomial

/-! ## The doubler is linear and loses nothing -/

/-- The doubler is linear over XOR (R81). -/
theorem dbl_xor (a b : Block) : dbl (a ^^^ b) = dbl a ^^^ dbl b := by
  apply BitVec.eq_of_getLsbD_eq
  intro i hi
  simp only [BitVec.getLsbD_xor, dbl_getLsbD _ i hi, Bool.and_xor_distrib_left, Bool.and_xor_distrib_right,
    Bool.xor_assoc, Bool.xor_left_comm]

/-- Bit 0 of a double is the top bit; with that bit 0, every other bit moves up by one. So only zero doubles to zero. -/
theorem eq_zero_of_dbl_eq_zero {x : Block} (h : dbl x = 0#128) : x = 0#128 := by
  have hbit : ∀ i, i < 128 →
      ((decide (0 < i) && x.getLsbD (i - 1)) ^^ (x.getLsbD 127 && (0x87#128).getLsbD i)) = false := by
    intro i hi
    rw [← dbl_getLsbD x i hi, h, BitVec.getLsbD_zero]
  have htop : x.getLsbD 127 = false := by simpa using hbit 0 (by decide)
  apply BitVec.eq_of_getLsbD_eq
  intro i hi
  rcases Nat.lt_or_ge i 127 with hlt | hge
  · have hmoved := hbit (i + 1) (by omega)
    rw [htop] at hmoved
    simpa using hmoved
  · rw [show i = 127 by omega, htop, BitVec.getLsbD_zero]

theorem dbl_injective : Function.Injective dbl := by
  intro a b h
  rw [← BitVec.xor_eq_zero_iff]
  exact eq_zero_of_dbl_eq_zero (by rw [dbl_xor, h, BitVec.xor_self])

/-! ## A block as a polynomial -/

/-- The polynomial over GF(2) with the coefficient of x^j at bit j of a block (R81, log 19). -/
noncomputable def blockPoly (x : Block) : (ZMod 2)[X] := ∑ j ∈ Finset.range 128, if x.getLsbD j then X ^ j else 0

/-- The sum of two blocks is their XOR: equal terms cancel in characteristic 2. -/
theorem blockPoly_xor (a b : Block) : blockPoly (a ^^^ b) = blockPoly a + blockPoly b := by
  rw [blockPoly, blockPoly, blockPoly, ← Finset.sum_add_distrib]
  refine Finset.sum_congr rfl fun j _ => ?_
  rw [BitVec.getLsbD_xor]
  cases a.getLsbD j <;> cases b.getLsbD j <;> simp [CharTwo.add_self_eq_zero]

/-- x times a block is its shift, and x^128 for the bit shifted out. -/
theorem X_mul_blockPoly (x : Block) :
    X * blockPoly x = blockPoly (x <<< 1) + if x.getLsbD 127 then X ^ 128 else 0 := by
  have hshift : blockPoly (x <<< 1) = ∑ j ∈ Finset.range 127, if x.getLsbD j then X ^ (j + 1) else 0 := by
    rw [blockPoly, Finset.sum_range_succ' _ 127]
    simp only [BitVec.getLsbD_shiftLeft, Nat.add_sub_cancel]
    refine (add_eq_left.2 (by simp)).trans (Finset.sum_congr rfl fun j hj => ?_)
    have hj' : j + 1 < 128 := by
      rw [Finset.mem_range] at hj
      omega
    simp [hj']
  rw [hshift, blockPoly, Finset.sum_range_succ, mul_add, Finset.mul_sum]
  refine congrArg₂ (· + ·) ?_ ?_
  · refine Finset.sum_congr rfl fun j _ => ?_
    rw [mul_ite, mul_zero, pow_succ']
  · simp only [mul_ite, mul_zero, ← pow_succ', Nat.reduceAdd]

/-- RB is the modulus without its leading term (R80, R81). -/
theorem blockPoly_reduction : blockPoly 0x87#128 = X ^ 7 + X ^ 2 + X + 1 := by
  have hlow : blockPoly 0x87#128 = ∑ j ∈ Finset.range 8, if (0x87#128).getLsbD j then X ^ j else 0 := by
    refine (Finset.sum_subset (Finset.range_subset_range.2 (by decide)) fun j _ hj => ?_).symm
    rw [reduction_getLsbD_of_ge (by simpa using hj)]
    rfl
  calc blockPoly 0x87#128
      = 1 + X + X ^ 2 + X ^ 7 := by rw [hlow]; simp [Finset.sum_range_succ]
    _ = X ^ 7 + X ^ 2 + X + 1 := by ring

/-- Doubling is the shift, and RB when a bit was shifted out (R80). -/
theorem blockPoly_dbl (x : Block) :
    blockPoly (dbl x) = blockPoly (x <<< 1) + if x.getLsbD 127 then X ^ 7 + X ^ 2 + X + 1 else 0 := by
  by_cases h : x.getLsbD 127 = true
  · rw [dbl, if_pos h, if_pos h, blockPoly_xor, blockPoly_reduction]
  · rw [dbl, if_neg h, if_neg h, add_zero]

/-- x times a block is its double, and the modulus for the bit shifted out (R81). -/
theorem X_mul_blockPoly_eq_dbl (x : Block) :
    X * blockPoly x =
      (if x.getLsbD 127 then 1 else 0) * (X ^ 128 + X ^ 7 + X ^ 2 + X + 1) + blockPoly (dbl x) := by
  rw [X_mul_blockPoly, blockPoly_dbl]
  split
  · have hcancel := CharTwo.add_self_eq_zero (X ^ 7 + X ^ 2 + X + 1 : (ZMod 2)[X])
    linear_combination -hcancel
  · ring

end Sys2Proof.Machine
end

section
/-! PROOF. The statement of spec/40_subkey.md about the field GF(2^128): the doubler multiplies by x (O24). -/

namespace Sys2Proof.Machine

/-- Settles O24: the quotient is the bit shifted out (`X_mul_blockPoly_eq_dbl`); the doubler is linear (`dbl_xor`), and
injective (`dbl_injective`) on a finite type; the bits named are those of RB (`dbl_getLsbD`). -/
theorem doublerMultipliesByX : Obligations.DoublerMultipliesByX := by
  refine ⟨fun x => ⟨if x.getLsbD 127 then 1 else 0, ?_⟩, by decide, dbl_xor,
    Finite.injective_iff_bijective.1 dbl_injective, fun x => ?_⟩
  · simpa only [blockPoly] using X_mul_blockPoly_eq_dbl x
  · have hred : ∀ i, (0x87#128).getLsbD i = true → (x.getLsbD 127 && (0x87#128).getLsbD i) = x.getLsbD 127 := by
      intro i hi
      rw [hi, Bool.and_true]
    refine ⟨?_, ?_, ?_, ?_⟩ <;> rw [dbl_getLsbD x _ (by decide), hred _ (by decide)]
    · exact Bool.false_xor _
    · rfl
    · rfl
    · rfl

end Sys2Proof.Machine
end

section
/-! SUPPORT. The calls at the AES port (R106): what an operation adds to the trace, by their number and their key. -/

namespace Sys2Proof.Machine

open Sys2Proof.Expected

/-- From `s` to `t` the core makes `n` calls at the AES port, each with the key stored in `t` (R106). -/
def MakesCalls (n : Nat) (s t : State) : Prop :=
  ∃ calls : List AesCall, t.aesCalls = calls ++ s.aesCalls ∧ calls.length = n ∧ ∀ c ∈ calls, c.key = t.key

theorem makesCalls_none {n : Nat} (hn : n = 0) {s t : State} (h : t.aesCalls = s.aesCalls) : MakesCalls n s t :=
  ⟨[], h, hn.symm, nofun⟩

theorem makesCalls_one {s t : State} {b : Block} (h : t.aesCalls = ⟨t.key, b⟩ :: s.aesCalls) : MakesCalls 1 s t :=
  ⟨[⟨t.key, b⟩], h, rfl, by simp⟩

/-- The calls of two operations in turn, when the second keeps the key. -/
theorem MakesCalls.trans {m n : Nat} {s t u : State} (h : MakesCalls m s t) (h' : MakesCalls n t u)
    (hk : u.key = t.key) : MakesCalls (n + m) s u := by
  obtain ⟨calls, happ, hlen, hkey⟩ := h
  obtain ⟨calls', happ', hlen', hkey'⟩ := h'
  refine ⟨calls' ++ calls, by rw [happ', happ, List.append_assoc], by rw [List.length_append, hlen, hlen'],
    fun c hc => ?_⟩
  rcases List.mem_append.1 hc with hc | hc
  · exact hkey' c hc
  · rw [hk]
    exact hkey c hc

/-! ## The engine -/

/-- An absorb step encrypts once when BUF and the chunk exceed a block, else not at all (R101, R106). -/
theorem makesCalls_absorbed {n : Nat} (hn : n ≤ 16) (s : State) :
    MakesCalls (if 16 < s.buf.length + n then 1 else 0) s (absorbed s n) := by
  have hlen : (staged s n).length = s.buf.length + n := by
    rw [staged, List.length_append, List.length_take, bytesOf_length, Nat.min_eq_left hn]
  by_cases h : (staged s n).length ≤ 16
  · rw [if_neg (by omega), absorbed, if_pos h]
    exact makesCalls_none rfl rfl
  · rw [if_pos (by omega), absorbed, if_neg h]
    exact makesCalls_one rfl

/-- In ACTIVE, FINAL's body encrypts in the absorb step as the chunk needs, and once in the finish step (R106). -/
theorem makesCalls_finished {n : Nat} (hn : n ≤ 16) (s : State) :
    MakesCalls (if 16 < s.buf.length + n then 2 else 1) s (finished (absorbed s n)) := by
  have hfinish : MakesCalls 1 (absorbed s n) (finished (absorbed s n)) := makesCalls_one rfl
  have h := (makesCalls_absorbed hn s).trans hfinish rfl
  rwa [Nat.add_comm, ite_add] at h

/-- FINAL's body makes the calls R106 gives FINAL, or fails where R106 gives it none. -/
theorem finalBody_calls {n : Nat} {s : State} (hn : n ≤ 16) (hbuf : s.buf.length ≤ 16) :
    (∃ e, finalBody n s = .error e ∧ aesCallCount (.final n) s = 0) ∨
      ∃ u, finalBody n s = .ok u ∧ MakesCalls (aesCallCount (.final n) s) s u := by
  cases hm : s.mode with
  | unkeyed => exact .inl ⟨_, finalBody_of_unkeyed hm n, by simp [aesCallCount, hm]⟩
  | active =>
    refine .inr ⟨_, finalBody_of_active_eq hm hn hbuf, ?_⟩
    rw [aesCallCount, if_pos hm]
    exact makesCalls_finished hn s
  | finalized =>
    have hcount : aesCallCount (.final n) s = 0 := by simp [aesCallCount, hm]
    rcases Nat.eq_zero_or_pos n with rfl | hpos
    · exact .inr ⟨s, finalBody_zero_of_finalized hm, makesCalls_none hcount rfl⟩
    · exact .inl ⟨_, finalBody_of_finalized hm hpos, hcount⟩

/-! ## Commands -/

/-- INIT generates the subkeys of a key of a legal length with one call, under the new key (R85, R106). -/
theorem exec_init_calls (klen : Nat) (v : Variant) (s : State) :
    ∃ t, exec (.init klen v) s = .next t ∧ MakesCalls (aesCallCount (.init klen v) s) s t := by
  refine ⟨_, exec_eq _ s, ?_⟩
  by_cases hk : validKeyLength klen = true
  · rw [execState_init_of_valid hk, aesCallCount, if_pos ((validKeyLength_iff klen).1 hk)]
    exact makesCalls_one rfl
  · rw [execState_init_of_invalid (by simpa using hk), aesCallCount, if_neg (mt (validKeyLength_iff klen).2 hk)]
    exact makesCalls_none rfl rfl

/-- UPDATE encrypts only in an absorb step (R106, R110). -/
theorem exec_update_calls {n : Nat} {s : State} (hn : n ≤ 16) (hbuf : s.buf.length ≤ 16) :
    ∃ t, exec (.update n) s = .next t ∧ MakesCalls (aesCallCount (.update n) s) s t := by
  rcases updateBody_cases n s with ⟨hm, hb⟩ | ⟨_, rfl, hb⟩ | ⟨hm, _, hb⟩ | ⟨hm, _, hb⟩
  · exact ⟨_, exec_update_of_error hb, makesCalls_none (by simp [aesCallCount, hm]) rfl⟩
  · have hcount : aesCallCount (.update 0) s = 0 := if_neg fun h => absurd h.2 (by omega)
    exact ⟨_, exec_update_of_ok hb, makesCalls_none hcount rfl⟩
  · have hcount : aesCallCount (.update n) s = if 16 < s.buf.length + n then 1 else 0 := by
      simp [aesCallCount, hm]
    rw [absorb_eq_absorbed hn hbuf] at hb
    exact ⟨_, exec_update_of_ok hb, by rw [hcount]; exact makesCalls_absorbed hn s⟩
  · exact ⟨_, exec_update_of_error hb, makesCalls_none (by simp [aesCallCount, hm]) rfl⟩

/-- A well-formed command makes the calls R106 derives for it. -/
theorem exec_calls {i : Instr} {s : State} (hi : i.wellFormed = true) (hbuf : s.buf.length ≤ 16) :
    ∃ t, exec i s = .next t ∧ MakesCalls (aesCallCount i s) s t := by
  cases i with
  | init klen v => exact exec_init_calls klen v s
  | update n => exact exec_update_calls (by simpa [Instr.wellFormed] using hi) hbuf
  | final n =>
    rcases finalBody_calls (n := n) (by simpa [Instr.wellFormed] using hi) hbuf with ⟨e, hf, hcount⟩ | ⟨u, hf, hcalls⟩
    · exact ⟨_, exec_final_of_error hf, makesCalls_none hcount rfl⟩
    · exact ⟨_, exec_final_of_ok hf, hcalls⟩
  | verify n clen =>
    obtain ⟨hn, _⟩ : n ≤ 16 ∧ clen ≤ 16 := by simpa [Instr.wellFormed] using hi
    have hcount : aesCallCount (.verify n clen) s = aesCallCount (.final n) s := rfl
    rw [hcount]
    rcases finalBody_calls hn hbuf with ⟨e, hf, hnone⟩ | ⟨u, hf, hcalls⟩
    · exact ⟨_, exec_verify_of_error hf clen, makesCalls_none hnone rfl⟩
    · exact ⟨_, exec_verify_of_ok hf clen, hcalls⟩
  | cteq n clen => exact ⟨_, exec_eq _ s, makesCalls_none rfl rfl⟩
  | double => exact ⟨_, exec_eq _ s, makesCalls_none rfl rfl⟩

/-- A CMD write of a word that decodes runs its command, in the state in which the write is answered (R45, R60). -/
theorem cmdWrite_of_ok {w : Word} {i : Instr} (h : decode w = .ok i) (s : State) :
    cmdWrite w s = exec i (s.respond .written) := by
  rw [cmdWrite_eq, commandState_of_ok h, exec_eq]

end Sys2Proof.Machine
end

section
/-! PROOF. The statement of spec/41_engine.md about the AES port: its calls per command word (O39). -/

namespace Sys2Proof.Machine

open Sys2Proof.Expected

/-- Settles O39: a word that decodes makes the calls of its command (`exec_calls`), an illegal word only reports. -/
theorem aesCallsPerCommand : Obligations.AesCallsPerCommand := by
  intro w s hbuf
  cases hd : decode w with
  | ok i =>
    obtain ⟨hi, _⟩ := wellFormed_and_encode_of_decode hd
    obtain ⟨t, hx, calls, happ, hlen, hkey⟩ := exec_calls (s := s.respond .written) hi hbuf
    exact ⟨t, calls, (cmdWrite_of_ok hd s).trans hx, happ, fun j hj => by cases hj; exact hlen, nofun, hkey⟩
  | error e =>
    refine ⟨_, [], cmdWrite_eq w s, ?_, nofun, fun _ => rfl, nofun⟩
    rw [commandState_of_error hd]
    rfl

end Sys2Proof.Machine
end

section
/-! SUPPORT. The engine over a whole message (R102, R105): from a fresh context, chunk by chunk, BUF and CHAIN are
determined by the bytes taken so far and the rest of the context stays; the finish step then writes their CMAC. -/

namespace Sys2Proof.Machine

open Sys2Proof.Expected

/-! ## A fresh context and what it has taken so far -/

/-- A fresh context of the key `k`, as INIT leaves it (R85): ACTIVE, with the subkeys, and nothing taken in. -/
structure State.Fresh (k : List Byte) (s : State) : Prop where
  mode : s.mode = .active
  buf : s.buf = []
  chain : s.chain = 0#128
  key : s.key = k
  k1reg : s.k1reg = dbl (Config.aesEncrypt k 0#128)
  k2reg : s.k2reg = dbl (dbl (Config.aesEncrypt k 0#128))

/-- `t` is the context of `s` after the bytes `p`: BUF and CHAIN stand where `p` leaves them, the rest as in `s`
(R102). -/
structure Took (k p : List Byte) (s t : State) : Prop where
  absorbed : Absorbed k p t
  context : t.context = { s.context with buf := t.buf, chain := t.chain }

/-- Nothing but the context tells what has been taken in. -/
theorem Took.of_context_eq {k p : List Byte} {s t u : State} (h : Took k p s t) (hc : u.context = t.context) :
    Took k p s u := by
  obtain ⟨_, hkreg, hklen, _, _, _, _, hbuf, hchain, _⟩ := (context_eq_iff u t).1 hc
  obtain ⟨⟨q, hp, hq, hle, hne, hcbc, hk⟩, hrest⟩ := h
  refine ⟨⟨q, ?_, hq, ?_, ?_, ?_, ?_⟩, ?_⟩
  · rw [hbuf, hp]
  · rwa [hbuf]
  · rwa [hbuf]
  · rw [hchain, hcbc]
  · rw [← hk, State.key, hkreg, hklen, State.key]
  · rw [hc, hrest, hbuf, hchain]

theorem State.Fresh.took {k : List Byte} {s : State} (h : s.Fresh k) : Took k [] s s := by
  refine ⟨⟨[], ?_, rfl, ?_, fun _ => rfl, h.chain, h.key⟩, rfl⟩
  · rw [h.buf, List.append_nil]
  · rw [h.buf]
    exact Nat.zero_le 16

theorem Took.buf_length_le {k p : List Byte} {s t : State} (h : Took k p s t) : t.buf.length ≤ 16 := by
  obtain ⟨⟨_, _, _, hle, _⟩, _⟩ := h
  exact hle

theorem Took.mode_eq {k p : List Byte} {s t : State} (h : Took k p s t) : t.mode = s.mode :=
  congrArg Context.mode h.context

theorem Took.varReg_eq {k p : List Byte} {s t : State} (h : Took k p s t) : t.varReg = s.varReg :=
  congrArg Context.varReg h.context

theorem absorb_context (d : List Byte) (s : State) :
    (absorb d s).context = { s.context with buf := (absorb d s).buf, chain := (absorb d s).chain } := by
  rw [absorb_frame]
  rfl

/-- One more chunk in the absorb step (R100, R102). -/
theorem Took.nextChunk {k p d : List Byte} {s t : State} (h : Took k p s t) (hd : d.length ≤ 16) :
    Took k (p ++ d) s (absorb d t) :=
  ⟨absorbed_absorb h.absorbed hd, by rw [absorb_context, h.context]⟩

/-- BUF holds the last 1 to 16 bytes taken in and CHAIN the chain of the whole blocks before them; nothing of an empty
message is held (R102). -/
theorem Absorbed.buf_and_chain {k p : List Byte} {s : State} (h : Absorbed k p s) :
    (p = [] → s.buf = [] ∧ s.chain = 0#128) ∧
      (p ≠ [] → s.buf.length = (p.length - 1) % 16 + 1 ∧ s.buf = p.drop (p.length - s.buf.length) ∧
        s.chain = cbc k (p.take (p.length - s.buf.length))) := by
  obtain ⟨q, rfl, hq, hle, hne, hchain, _⟩ := h
  have hcut : (q ++ s.buf).length - s.buf.length = q.length := by
    rw [List.length_append, Nat.add_sub_cancel]
  refine ⟨fun hp => ?_, fun hp => ⟨?_, ?_, ?_⟩⟩
  · obtain ⟨hq0, hbuf⟩ := List.append_eq_nil_iff.1 hp
    exact ⟨hbuf, by rw [hchain, hq0, cbc_nil]⟩
  · have hpos : 0 < s.buf.length := by
      refine List.length_pos_iff.2 fun hbuf => hp ?_
      rw [hbuf, hne hbuf, List.append_nil]
    rw [List.length_append]
    omega
  · rw [hcut, List.drop_left]
  · rw [hcut, List.take_left, hchain]

/-- The message alone determines the context: its chunks do not (R102). -/
theorem Took.context_unique {k p : List Byte} {s t u : State} (ht : Took k p s t) (hu : Took k p s u) :
    t.context = u.context := by
  obtain ⟨hnil, hcons⟩ := ht.absorbed.buf_and_chain
  obtain ⟨hnil', hcons'⟩ := hu.absorbed.buf_and_chain
  have hsame : t.buf = u.buf ∧ t.chain = u.chain := by
    by_cases hp : p = []
    · rw [(hnil hp).1, (hnil' hp).1, (hnil hp).2, (hnil' hp).2]
      exact ⟨rfl, rfl⟩
    · obtain ⟨hlen, hbuf, hchain⟩ := hcons hp
      obtain ⟨hlen', hbuf', hchain'⟩ := hcons' hp
      rw [hlen] at hbuf hchain
      rw [hlen'] at hbuf' hchain'
      exact ⟨hbuf.trans hbuf'.symm, hchain.trans hchain'.symm⟩
  rw [ht.context, hu.context, hsame.1, hsame.2]

/-! ## The bodies of UPDATE and FINAL in ACTIVE, as one absorb step whatever the length -/

theorem dinSlice_length_le (s : State) {n : Nat} (hn : n ≤ 16) : (s.dinSlice n).length ≤ 16 :=
  (List.length_take_le n _).trans hn

/-- UPDATE absorbs its chunk; the empty chunk it skips would change nothing (R110). -/
theorem updateBody_eq_absorb {s : State} {n : Nat} (h : s.mode = .active) (hn : n ≤ 16) (hbuf : s.buf.length ≤ 16) :
    updateBody n s = .ok (absorb (s.dinSlice n) s) := by
  rcases Nat.eq_zero_or_pos n with rfl | hpos
  · rw [updateBody_zero (by rw [h]; decide), absorb_eq_absorbed hn hbuf, absorbed_zero hbuf]
  · rw [updateBody_of_active h hpos hn hbuf, absorb_eq_absorbed hn hbuf]

/-- FINAL in a context that took `p` writes the CMAC of `p` and its own chunk (R104, R105). -/
theorem Took.final {k p : List Byte} {s t : State} (hs : s.Fresh k) (h : Took k p s t) {n : Nat} (hn : n ≤ 16) :
    ∃ u, finalBody n t = .ok u ∧ u.tag = cmac k (p ++ t.dinSlice n) ∧ u.varReg = s.varReg := by
  have hbody := finalBody_of_active_eq (h.mode_eq.trans hs.mode) hn h.buf_length_le
  rw [← absorb_eq_absorbed hn h.buf_length_le, ← finish_eq_finished] at hbody
  have htook := h.nextChunk (dinSlice_length_le t hn)
  have hk1 : (absorb (t.dinSlice n) t).k1reg = s.k1reg := congrArg Context.k1reg htook.context
  have hk2 : (absorb (t.dinSlice n) t).k2reg = s.k2reg := congrArg Context.k2reg htook.context
  exact ⟨_, hbody, finish_tag_of_absorbed htook.absorbed (hk1.trans hs.k1reg) (hk2.trans hs.k2reg), htook.varReg_eq⟩

/-! ## INIT and UPDATE commands -/

/-- INIT with a legal key length leaves a fresh context of the key (R85). -/
theorem fresh_init {klen : Nat} (hk : validKeyLength klen = true) (v : Variant) (s : State) :
    (execState (.init klen v) s).Fresh ((bytesOf 32 s.keyw).take klen) := by
  rw [execState_init_of_valid hk, ← loadKey_key (validKeyLength_le hk) v s]
  exact ⟨rfl, rfl, rfl, rfl, rfl, rfl⟩

/-- UPDATE commands after INIT take their chunks in and succeed (R102). -/
theorem feed_took {k : List Byte} {s : State} (hs : s.Fresh k) {cs : List (Block × Nat)}
    (hcs : ∀ c ∈ cs, c.2 ≤ 16) {p : List Byte} {t : State} (ht : Took k p s t) (herr : t.err = 0#4) :
    ∃ u, feed cs t = .next u ∧ Took k (p ++ message cs) s u ∧ u.err = 0#4 := by
  induction cs generalizing p t with
  | nil => exact ⟨t, rfl, by rwa [message, List.flatMap_nil, List.append_nil], herr⟩
  | cons c cs ih =>
    rw [List.forall_mem_cons] at hcs
    obtain ⟨hc, hcs⟩ := hcs
    have hloaded : Took k p s { t with din := c.1 } := ht.of_context_eq rfl
    have hx := exec_update_of_ok (updateBody_eq_absorb (hloaded.mode_eq.trans hs.mode) hc hloaded.buf_length_le)
    have htook := hloaded.nextChunk (dinSlice_length_le { t with din := c.1 } hc)
    obtain ⟨u, hfeed, hu, huerr⟩ := ih hcs (htook.of_context_eq (u := reported 0#4 false _) rfl) rfl
    refine ⟨u, by rw [feed, hx]; exact hfeed, ?_, huerr⟩
    rwa [message, List.flatMap_cons, ← List.append_assoc]

/-- INIT and UPDATE commands leave the context of the key in which the message of the chunks was taken in (R102). -/
theorem init_feed_took {klen : Nat} (hk : klen = 16 ∨ klen = 24 ∨ klen = 32) (v : Variant) (s : State) :
    ∃ s0, exec (.init klen v) s = .next s0 ∧ s0.Fresh ((bytesOf 32 s.keyw).take klen) ∧ s0.varReg = v ∧
      ∀ cs : List (Block × Nat), (∀ c ∈ cs, c.2 ≤ 16) →
        ∃ t, feed cs s0 = .next t ∧ Took ((bytesOf 32 s.keyw).take klen) (message cs) s0 t ∧ t.err = 0#4 := by
  have hv := (validKeyLength_iff klen).2 hk
  have hs0 := fresh_init hv v s
  have herr : (execState (.init klen v) s).err = 0#4 := by
    rw [execState_init_of_valid hv]
    rfl
  refine ⟨_, exec_eq _ s, hs0, ?_, fun cs hcs => feed_took hs0 hcs hs0.took herr⟩
  rw [execState_init_of_valid hv]
  rfl

/-! ## After FINAL -/

/-- A FINAL that reports no error is its body's success with the report written (R111, R162). -/
theorem exec_final_success {n : Nat} {s t : State} (h : exec (.final n) s = .next t) (herr : t.err = 0#4) :
    ∃ u, finalBody n s = .ok u ∧ t = reported 0#4 false u := by
  cases hf : finalBody n s with
  | error e =>
    rw [exec_final_of_error hf] at h
    cases h
    exact absurd herr (code_bounds e).1
  | ok u =>
    rw [exec_final_of_ok hf] at h
    cases h
    exact ⟨u, rfl, rfl⟩

/-- Reporting a success again changes nothing (R162). -/
theorem reported_success_again (s : State) : reported 0#4 false (reported 0#4 false s) = reported 0#4 false s := by
  simp [reported]

/-- VERIFY's comparison reports no error exactly on the tag (R112). -/
theorem compared_err_eq_zero_iff (s : State) (clen : Nat) :
    (compared s clen).err = 0#4 ↔ (bytesOf 16 s.cand).take clen = tagOf s := by
  rw [compared, matchesTag]
  by_cases h : (bytesOf 16 s.cand).take clen = tagOf s <;> simp [h, reported]

end Sys2Proof.Machine
end

section
/-! PROOF. The statements of spec/41_engine.md and spec/42_truncate.md about whole messages: BUF and CHAIN (O42, O43),
the tag (O44, O45), and the context after FINAL (O47). -/

namespace Sys2Proof.Machine

open Sys2Proof.Expected

/-- Settles O42: the chunks are taken in (`init_feed_took`), and the message tells BUF and CHAIN
(`Absorbed.buf_and_chain`). -/
theorem absorbDependsOnMessageOnly : Obligations.AbsorbDependsOnMessageOnly := by
  intro klen v s cs hk hcs
  obtain ⟨s0, hinit, hs0, _, hfeed⟩ := init_feed_took hk v s
  obtain ⟨t, ht, htook, herr⟩ := hfeed cs hcs
  exact ⟨s0, t, hinit, ht, htook.mode_eq.trans hs0.mode, herr, htook.absorbed.buf_and_chain⟩

/-- Settles O43: both lists of chunks take in one message, which determines the context (`Took.context_unique`). -/
theorem anySplitGivesSameContext : Obligations.AnySplitGivesSameContext := by
  intro klen v s cs cs' hk hcs hcs' hmessage
  obtain ⟨s0, hinit, _, _, hfeed⟩ := init_feed_took hk v s
  obtain ⟨t, ht, htook, _⟩ := hfeed cs hcs
  obtain ⟨t', ht', htook', _⟩ := hfeed cs' hcs'
  rw [← hmessage] at htook'
  exact ⟨s0, t, t', hinit, ht, ht', htook.context_unique htook'⟩

/-- Settles O44: FINAL's body, which VERIFY runs too, writes the CMAC of what was taken in and the last chunk
(`Took.final`). -/
theorem engineComputesCmac : Obligations.EngineComputesCmac := by
  intro klen v s cs last hk hcs hlast
  obtain ⟨s0, hinit, hs0, _, hfeed⟩ := init_feed_took hk v s
  obtain ⟨t, ht, htook, _⟩ := hfeed cs hcs
  obtain ⟨u, hbody, htag, _⟩ := (htook.of_context_eq (u := { t with din := last.1 }) rfl).final hs0 hlast
  have hmode : u.mode = .finalized := finalBody_ok_mode hbody
  exact ⟨s0, t, hinit, ht, ⟨_, exec_final_of_ok hbody, rfl, hmode, htag⟩,
    fun clen _ => ⟨_, exec_verify_of_ok hbody clen, hmode, htag⟩⟩

/-- Settles O45: FINAL's body writes the CMAC to TAG (`Took.final`), of which TOUT keeps the 12 bytes of the variant. -/
theorem truncatedTagIsPrefix : Obligations.TruncatedTagIsPrefix := by
  intro klen s cs last hk hcs hlast
  obtain ⟨s0, hinit, hs0, hvar, hfeed⟩ := init_feed_took hk .cmac96 s
  obtain ⟨t, ht, htook, _⟩ := hfeed cs hcs
  obtain ⟨u, hbody, htag, hvar'⟩ := (htook.of_context_eq (u := { t with din := last.1 }) rfl).final hs0 hlast
  have htlen : u.tlen = 12 := by
    rw [tlen_eq, if_pos (finalBody_ok_mode hbody), tagLen, if_pos (hvar'.trans hvar)]
  have htout : (reported 0#4 false u).tout = keepFirst 16 12 u.tag := by
    rw [← htlen]
    rfl
  refine ⟨s0, t, _, hinit, ht, exec_final_of_ok hbody, rfl, ?_⟩
  rw [htout, bytesOf_keepFirst rfl (by decide), htag]
  rfl

/-- Settles O47: such a FINAL leaves FINALIZED with a success reported (`exec_final_success`); in FINALIZED FINAL 0
keeps the state, data fails, and VERIFY 0 compares with the tag (`compared_err_eq_zero_iff`). -/
theorem finalizedContextConsequences : Obligations.FinalizedContextConsequences := by
  intro n s t _ _ hfinal herr
  obtain ⟨u, hbody, rfl⟩ := exec_final_success hfinal herr
  have hu : u.mode = .finalized := finalBody_ok_mode hbody
  have hmode : (reported 0#4 false u).mode = .finalized := hu
  have hkeep := finalBody_zero_of_finalized hmode
  refine ⟨?_, fun m hpos _ => ?_, fun clen _ => ?_⟩
  · rw [exec_final_of_ok hkeep, reported_success_again]
  · exact ⟨exec_update_of_error (updateBody_of_finalized hmode hpos),
      exec_final_of_error (finalBody_of_finalized hmode hpos)⟩
  · exact ⟨_, exec_verify_of_ok hkeep clen, rfl, compared_err_eq_zero_iff _ clen⟩

end Sys2Proof.Machine
end

section
/-! SUPPORT. The host procedures over data of any length (R140 to R144): the data cut into pieces, the UPDATE commands
over them, FINAL 0 or VERIFY 0 after them, and INIT before them, each with the context it leaves. -/

namespace Sys2Proof.Machine

open Sys2Proof.Expected

/-! ## The pieces of the data -/

/-- The pieces put together are the data, and each holds 1 to 16 bytes (R140). -/
theorem chunksOf16_spec (fuel : Nat) (data : List Byte) (h : data.length ≤ fuel) :
    (chunksOf16 fuel data).flatten = data ∧ ∀ c ∈ chunksOf16 fuel data, 1 ≤ c.length ∧ c.length ≤ 16 := by
  induction fuel generalizing data with
  | zero =>
    rw [List.eq_nil_of_length_eq_zero (Nat.le_zero.1 h)]
    exact ⟨rfl, nofun⟩
  | succ fuel ih =>
    rw [chunksOf16]
    split
    case isTrue h0 =>
      rw [List.eq_nil_of_length_eq_zero h0]
      exact ⟨rfl, nofun⟩
    case isFalse h0 =>
      obtain ⟨hflat, hlen⟩ := ih (data.drop 16) (by rw [List.length_drop]; omega)
      refine ⟨by rw [List.flatten_cons, hflat, List.take_append_drop], List.forall_mem_cons.2 ⟨?_, hlen⟩⟩
      rw [List.length_take]
      omega

theorem chunks16_flatten (data : List Byte) : (chunks16 data).flatten = data :=
  (chunksOf16_spec _ data (le_refl _)).1

theorem chunks16_length {data c : List Byte} (h : c ∈ chunks16 data) : 1 ≤ c.length ∧ c.length ≤ 16 :=
  (chunksOf16_spec _ data (le_refl _)).2 c h

/-- Data that is not empty has a first piece. -/
theorem chunks16_cons {data : List Byte} (h : data ≠ []) :
    ∃ c cs, chunks16 data = c :: cs ∧ 1 ≤ c.length ∧ c.length ≤ 16 := by
  cases hc : chunks16 data with
  | nil =>
    have hflat := chunks16_flatten data
    rw [hc] at hflat
    exact absurd hflat.symm h
  | cons c cs => exact ⟨c, cs, rfl, chunks16_length (by rw [hc]; exact List.mem_cons_self)⟩

/-! ## Windows and commands of the host, with the context they leave -/

/-- A piece loaded into DIN is the slice a command of its length takes (R54, R72). -/
theorem loadDin_loads {c : List Byte} (h : c.length ≤ 16) (s : State) :
    ∃ l, loadDin c s = .done () l ∧ l.context = s.context ∧ l.dinSlice c.length = c :=
  ⟨_, loadDin_eq h s, rfl, take_bytesOf_blockOf_zeroPadded h⟩

theorem loadCand_loads {c : List Byte} (h : c.length ≤ 16) (s : State) :
    ∃ l, loadCand c s = .done () l ∧ l.context = s.context ∧ l.candSlice c.length = c :=
  ⟨_, loadCand_eq h s, rfl, take_bytesOf_blockOf_zeroPadded h⟩

/-- A command whose body succeeds passes the host's check and leaves the body's context. -/
theorem checkedCommand_of_body_ok {c : AsmCommand} (hc : c.expand.wellFormed = true) {s u : State}
    (h : execState c.expand s = conclude s (.ok u)) :
    ∃ t, checkedCommand c s = .done () t ∧ t.context = u.context := by
  obtain ⟨r, hr⟩ := checkedCommand_of_success hc h rfl
  exact ⟨_, hr, rfl⟩

/-- A command whose body fails ends the host's procedure with its code and leaves the context as it was (R14, R140). -/
theorem checkedCommand_of_body_error {c : AsmCommand} (hc : c.expand.wellFormed = true) {s : State} {e : CmdError}
    (h : execState c.expand s = conclude s (.error e)) :
    ∃ t, checkedCommand c s = .failed e.code t ∧ t.context = s.context := by
  obtain ⟨r, hr⟩ := checkedCommand_of_error hc h (code_bounds e).1
  exact ⟨_, hr, rfl⟩

theorem update_wellFormed {n : Nat} (hn : n ≤ 16) : (AsmCommand.command (.update n)).expand.wellFormed = true := by
  simpa [AsmCommand.expand, Instr.wellFormed] using hn

/-- UPDATE commands take the pieces in, in order (R102, R140). -/
theorem hostUpdates_took {k : List Byte} {s : State} (hs : s.Fresh k) {cs : List (List Byte)}
    (hcs : ∀ c ∈ cs, c.length ≤ 16) {p : List Byte} {t : State} (ht : Took k p s t) :
    ∃ u, hostUpdates cs t = .done () u ∧ Took k (p ++ cs.flatten) s u := by
  induction cs generalizing p t with
  | nil => exact ⟨t, rfl, by rwa [List.flatten_nil, List.append_nil]⟩
  | cons c cs ih =>
    rw [List.forall_mem_cons] at hcs
    obtain ⟨hc, hcs⟩ := hcs
    obtain ⟨l, hload, hlctx, hslice⟩ := loadDin_loads hc t
    have hloaded : Took k p s l := ht.of_context_eq hlctx
    have hbody := updateBody_eq_absorb (hloaded.mode_eq.trans hs.mode) hc hloaded.buf_length_le
    rw [hslice] at hbody
    obtain ⟨l', hupdate, hctx⟩ := checkedCommand_of_body_ok (update_wellFormed hc) (congrArg (conclude l) hbody)
    obtain ⟨u, hu, htook⟩ := ih hcs ((hloaded.nextChunk hc).of_context_eq hctx)
    refine ⟨u, (andThen_done hload).trans ((andThen_done hupdate).trans hu), ?_⟩
    rwa [List.flatten_cons, ← List.append_assoc]

/-- In a MODE in which UPDATE with data fails, the first piece ends the procedure, and the context stays (R140, R161).
-/
theorem hostUpdates_of_error {s : State} {e : CmdError}
    (he : ∀ (n : Nat) (u : State), 1 ≤ n → u.mode = s.mode → updateBody n u = .error e) {data : List Byte}
    (hdata : data ≠ []) :
    ∃ t, hostUpdates (chunks16 data) s = .failed e.code t ∧ t.context = s.context := by
  obtain ⟨c, cs, hchunks, hpos, hc⟩ := chunks16_cons hdata
  obtain ⟨l, hload, hlctx, _⟩ := loadDin_loads hc s
  have hbody := he c.length l hpos (congrArg Context.mode hlctx)
  obtain ⟨t, hupdate, hctx⟩ := checkedCommand_of_body_error (update_wellFormed hc) (congrArg (conclude l) hbody)
  rw [hchunks]
  exact ⟨t, (andThen_done hload).trans (andThen_failed hupdate), hctx.trans hlctx⟩

/-- UPDATE with data fails in UNKEYED (R110), and so do the pieces of any data. -/
theorem hostUpdates_of_unkeyed {s : State} (h : s.mode = .unkeyed) {data : List Byte} (hdata : data ≠ []) :
    ∃ t, hostUpdates (chunks16 data) s = .failed 4#4 t ∧ t.context = s.context :=
  hostUpdates_of_error (e := .notKeyed) (fun n _ _ hm => updateBody_of_unkeyed (hm.trans h) n) hdata

theorem hostUpdates_of_finalized {s : State} (h : s.mode = .finalized) {data : List Byte} (hdata : data ≠ []) :
    ∃ t, hostUpdates (chunks16 data) s = .failed 2#4 t ∧ t.context = s.context :=
  hostUpdates_of_error (e := .alreadyFinalized) (fun _ _ hpos hm => updateBody_of_finalized (hm.trans h) hpos) hdata

/-- No data, no command. -/
theorem hostUpdates_nil (s : State) : hostUpdates (chunks16 []) s = .done () s := rfl

/-! ## FINAL 0 and HOST_DIGEST -/

/-- FINAL 0 that succeeds lets the host read the tag of the context it leaves (R140). -/
theorem finalTag_of_ok {s f : State} (h : finalBody 0 s = .ok f) :
    ∃ t, finalTag s = .done (tagOf f) t ∧ t.context = f.context := by
  obtain ⟨t, hfinal, hctx⟩ := checkedCommand_of_body_ok (c := .digest) rfl (congrArg (conclude s) h)
  obtain ⟨hmode, _, _, hvar, _, _, _, _, _, htag⟩ := (context_eq_iff t f).1 hctx
  obtain ⟨r, hread⟩ := readTag_eq t
  rw [tagBytes_of_finalized (hmode.trans (finalBody_ok_mode h)), tagOf, tagLen, hvar, htag] at hread
  exact ⟨t.respond r, (andThen_done hfinal).trans hread, hctx⟩

theorem finalTag_of_error {s : State} {e : CmdError} (h : finalBody 0 s = .error e) :
    ∃ t, finalTag s = .failed e.code t ∧ t.context = s.context := by
  obtain ⟨t, hfinal, hctx⟩ := checkedCommand_of_body_error (c := .digest) rfl (congrArg (conclude s) h)
  exact ⟨t, andThen_failed hfinal, hctx⟩

/-- HOST_DIGEST is the UPDATE commands, then FINAL 0 and the tag (R140). -/
theorem hostDigest_of_updates {data : List Byte} {s t : State} (h : hostUpdates (chunks16 data) s = .done () t) :
    hostDigest data s = finalTag t :=
  andThen_done h

theorem hostDigest_of_updates_failed {data : List Byte} {s t : State} {code : BitVec 4}
    (h : hostUpdates (chunks16 data) s = .failed code t) : hostDigest data s = .failed code t :=
  andThen_failed h

/-- FINAL 0 in a context that took `p` leaves the tag of `p`, at the length of the variant (R105, R130). -/
theorem Took.finalZero {k p : List Byte} {s t : State} (hs : s.Fresh k) (h : Took k p s t) :
    ∃ f, finalBody 0 t = .ok f ∧ f.tag = cmac k p ∧ tagOf f = (bytesOf 16 (cmac k p)).take (tagLen s) := by
  obtain ⟨f, hf, htag, hvar⟩ := h.final hs (Nat.zero_le 16)
  have hslice : t.dinSlice 0 = [] := rfl
  rw [hslice, List.append_nil] at htag
  exact ⟨f, hf, htag, by rw [tagOf, tagLen, tagLen, hvar, htag]⟩

/-- The UPDATE commands over data of any length take it in (R140). -/
theorem hostUpdates_of_fresh {k : List Byte} {s : State} (hs : s.Fresh k) (data : List Byte) :
    ∃ t, hostUpdates (chunks16 data) s = .done () t ∧ Took k data s t := by
  obtain ⟨t, ht, htook⟩ := hostUpdates_took hs (fun _ hc => (chunks16_length hc).2) hs.took
  exact ⟨t, ht, by rwa [chunks16_flatten, List.nil_append] at htook⟩

/-- HOST_DIGEST in a fresh context returns the CMAC of the data, at the length of the variant (R140). -/
theorem hostDigest_of_fresh {k : List Byte} {s : State} (hs : s.Fresh k) (data : List Byte) :
    ∃ t, hostDigest data s = .done ((bytesOf 16 (cmac k data)).take (tagLen s)) t ∧ t.mode = .finalized ∧
      t.tag = cmac k data := by
  obtain ⟨t, ht, htook⟩ := hostUpdates_of_fresh hs data
  obtain ⟨f, hf, htag, hbytes⟩ := htook.finalZero hs
  obtain ⟨u, hu, hctx⟩ := finalTag_of_ok hf
  obtain ⟨humode, _, _, _, _, _, _, _, _, hutag⟩ := (context_eq_iff u f).1 hctx
  exact ⟨u, by rw [hostDigest_of_updates ht, hu, hbytes], humode.trans (finalBody_ok_mode hf), hutag.trans htag⟩

/-- The invariant makes an ACTIVE context with an empty buffer fresh (R37). -/
theorem fresh_of_inv {s : State} (h : s.Inv) (hm : s.mode = .active) (hbuf : s.buf = []) : s.Fresh s.key := by
  obtain ⟨_, hl, hk1, hk2⟩ := h.subkeys (by rw [hm]; decide)
  obtain ⟨_, hactive⟩ := h.buffer
  exact ⟨hm, hbuf, (hactive hm).2 hbuf, rfl, by rw [hk1, hl], by rw [hk2, hk1, hl]⟩

/-! ## INIT and the PRF -/

theorem State.Fresh.of_context_eq {k : List Byte} {s t : State} (h : s.Fresh k) (hc : t.context = s.context) :
    t.Fresh k := by
  obtain ⟨hmode, hkreg, hklen, _, _, hk1, hk2, hbuf, hchain, _⟩ := (context_eq_iff t s).1 hc
  exact ⟨hmode.trans h.mode, hbuf.trans h.buf, hchain.trans h.chain,
    by rw [← h.key, State.key, hkreg, hklen, State.key], hk1.trans h.k1reg, hk2.trans h.k2reg⟩

/-- A key loaded into KEYW is the slice INIT of its length copies (R54, R72). -/
theorem loadKeyWindow_loads {k : List Byte} (h : k.length ≤ 32) (s : State) :
    ∃ l, loadKeyWindow k s = .done () l ∧ (bytesOf 32 l.keyw).take k.length = k :=
  ⟨_, loadKeyWindow_eq h s, take_bytesOf_ofBytes_zeroPadded h⟩

/-- The host's INIT of a key of a legal length leaves its fresh context (R85, R141). -/
theorem hostInit_fresh {k : List Byte} (hk : validKeyLength k.length = true) (v : Variant) (s : State) :
    ∃ t, hostInit k v s = .done () t ∧ t.Fresh k ∧ t.varReg = v := by
  have hle := validKeyLength_le hk
  have hwf : (AsmCommand.command (.init k.length v)).expand.wellFormed = true := by
    simp only [AsmCommand.expand, Instr.wellFormed, decide_eq_true_eq]
    omega
  obtain ⟨l, hload, hkeyw⟩ := loadKeyWindow_loads hle s
  have hfresh := fresh_init hk v l
  rw [hkeyw, execState_init_of_valid hk] at hfresh
  obtain ⟨t, ht, hctx⟩ := checkedCommand_of_body_ok hwf (execState_init_of_valid hk v l)
  exact ⟨t, (andThen_done hload).trans ht, hfresh.of_context_eq hctx, congrArg Context.varReg hctx⟩

/-- INIT with the full-length variant and HOST_DIGEST return the whole CMAC, from every state (R140, R141). -/
theorem hostInit_hostDigest {k : List Byte} (hk : k.length = 16) (data : List Byte) (s : State) :
    ∃ t, andThen (hostInit k .cmac) (fun _ => hostDigest data) s = .done (bytesOf 16 (cmac k data)) t := by
  obtain ⟨s', hinit, hfresh, hvar⟩ := hostInit_fresh (k := k) (by rw [hk]; rfl) .cmac s
  obtain ⟨t, ht, _⟩ := hostDigest_of_fresh hfresh data
  have hlen : tagLen s' = 16 := by rw [tagLen, hvar]; rfl
  rw [hlen, List.take_of_length_le (bytesOf_length 16 _).le] at ht
  exact ⟨t, (andThen_done hinit).trans ht⟩

theorem prfKeyOf_length (vk : List Byte) : (prfKeyOf vk).length = 16 := by
  rw [prfKeyOf]
  split
  case isTrue h => exact h
  case isFalse => exact bytesOf_length 16 _

/-- PRF_KEY returns the key the PRF uses (R141). -/
theorem hostPrfKey_eq (vk : List Byte) (s : State) : ∃ t, hostPrfKey vk s = .done (prfKeyOf vk) t := by
  rw [hostPrfKey, prfKeyOf]
  split
  case isTrue => exact ⟨s, rfl⟩
  case isFalse => exact hostInit_hostDigest (List.length_replicate) vk s

/-! ## Verify -/

/-- A state that has the context of another finalizes to the same context (R104). -/
theorem finalBody_zero_of_context_eq {s t f : State} (hc : t.context = s.context) (hf : finalBody 0 s = .ok f) :
    ∃ g, finalBody 0 t = .ok g ∧ g.context = f.context := by
  obtain ⟨hmode, hkreg, hklen, hvar, hl, hk1, hk2, hbuf, hchain, _⟩ := (context_eq_iff t s).1 hc
  rcases finalBody_cases 0 s with ⟨_, e⟩ | ⟨hm, _, e⟩ | ⟨_, hne, _⟩ | ⟨hm, _, e⟩ | ⟨_, hne, _⟩
  · cases e.symm.trans hf
  · cases e.symm.trans hf
    exact ⟨t, finalBody_zero_of_finalized (hmode.trans hm), hc⟩
  · exact absurd rfl hne
  · cases e.symm.trans hf
    refine ⟨finish t, ?_, ?_⟩
    · simp only [finalBody, hmode.trans hm, if_neg (Nat.lt_irrefl 0)]
    · have hkey : t.key = s.key := by rw [State.key, hkreg, hklen, State.key]
      have hlast : t.lastBlock = s.lastBlock := by rw [State.lastBlock, hbuf, hk1, hk2, State.lastBlock]
      simp [context_eq_iff, hkreg, hklen, hvar, hl, hk1, hk2, hchain, hkey, hlast]
  · exact absurd rfl hne

theorem tagOf_of_context_eq {s t : State} (hc : t.context = s.context) : tagOf t = tagOf s := by
  obtain ⟨_, _, _, hvar, _, _, _, _, _, htag⟩ := (context_eq_iff t s).1 hc
  rw [tagOf, tagLen, hvar, htag, tagOf, tagLen]

theorem check_wellFormed {n : Nat} (hn : n ≤ 16) : (AsmCommand.check n).expand.wellFormed = true := by
  simpa [AsmCommand.expand, Instr.wellFormed] using hn

/-- The one error VERIFY's comparison reports is TagMismatch (R112). -/
theorem compared_err_of_ne {s : State} {clen : Nat} (h : (compared s clen).err ≠ 0#4) :
    (compared s clen).err = 3#4 := by
  rw [compared] at h ⊢
  cases hm : matchesTag s clen with
  | true => exact absurd (by rw [hm]; rfl) h
  | false => rfl

/-- VERIFY 0 with a loaded candidate passes the host's check exactly when the candidate is the tag (R112, R140). -/
theorem checkedCheck_decides {cand : List Byte} (hcand : cand.length ≤ 16) {s f : State} (hf : finalBody 0 s = .ok f)
    (hloaded : s.candSlice cand.length = cand) :
    ∃ u, u.context = f.context ∧
      checkedCommand (.check cand.length) s = if cand = tagOf f then .done () u else .failed 3#4 u := by
  have hx : execState (AsmCommand.check cand.length).expand s = compared f cand.length :=
    (exec_next_iff.1 (exec_verify_of_ok hf cand.length)).symm
  have hfcand : f.cand = s.cand := by rw [finalBody_frame hf]
  have hiff : (compared f cand.length).err = 0#4 ↔ cand = tagOf f := by
    rw [compared_err_eq_zero_iff, hfcand]
    exact Eq.congr_left hloaded
  by_cases h : cand = tagOf f
  · obtain ⟨r, hr⟩ := checkedCommand_of_success (check_wellFormed hcand) hx (hiff.2 h)
    exact ⟨(compared f cand.length).respond r, rfl, by rw [hr, if_pos h]⟩
  · have hne : (compared f cand.length).err ≠ 0#4 := mt hiff.1 h
    obtain ⟨r, hr⟩ := checkedCommand_of_error (check_wellFormed hcand) hx hne
    rw [compared_err_of_ne hne] at hr
    exact ⟨(compared f cand.length).respond r, rfl, by rw [hr, if_neg h]⟩

/-- A software verify whose data was taken in decides the tag of the context FINAL leaves, for a candidate of any length
(R112, R144). -/
theorem hostVerify_decides (cand : List Byte) {data : List Byte} {s t f : State}
    (hu : hostUpdates (chunks16 data) s = .done () t) (hf : finalBody 0 t = .ok f) :
    ∃ u, u.context = f.context ∧
      hostVerify cand data s = if cand = tagOf f then .done () u else .failed 3#4 u := by
  by_cases hcand : cand.length ≤ 16
  · obtain ⟨l, hload, hlctx, hslice⟩ := loadCand_loads hcand t
    rw [hostVerify, if_pos hcand, andThen_done hu, andThen_done hload]
    obtain ⟨g, hg, hctx⟩ := finalBody_zero_of_context_eq hlctx hf
    obtain ⟨u, hctx', hu'⟩ := checkedCheck_decides hcand hg hslice
    rw [tagOf_of_context_eq hctx] at hu'
    exact ⟨u, hctx'.trans hctx, hu'⟩
  · obtain ⟨u, hdigest, hctx⟩ := finalTag_of_ok hf
    have hne : cand ≠ tagOf f := fun h => hcand (h ▸ tagOf_length_le f)
    rw [hostVerify, if_neg hcand, andThen_done ((hostDigest_of_updates hu).trans hdigest)]
    exact ⟨u, hctx, (if_neg hne).symm⟩

/-- An error of the UPDATE commands is the result of a software verify, whatever the candidate (R144). -/
theorem hostVerify_of_updates_failed (cand : List Byte) {data : List Byte} {s t : State} {code : BitVec 4}
    (hu : hostUpdates (chunks16 data) s = .failed code t) : hostVerify cand data s = .failed code t := by
  rw [hostVerify]
  split
  · exact andThen_failed hu
  · exact andThen_failed (hostDigest_of_updates_failed hu)

theorem execState_verify_of_error {n : Nat} {s : State} {e : CmdError} (h : finalBody n s = .error e) (clen : Nat) :
    execState (.verify n clen) s = conclude s (.error e) := by
  simp only [execState, h]

/-- Without data an UNKEYED core fails at FINAL or VERIFY, whatever the candidate (R112, R144). -/
theorem hostVerify_nil_of_unkeyed (cand : List Byte) {s : State} (h : s.mode = .unkeyed) :
    ∃ t, hostVerify cand [] s = .failed 4#4 t ∧ t.context = s.context := by
  rw [hostVerify]
  split
  case isTrue hcand =>
    obtain ⟨l, hload, hlctx, _⟩ := loadCand_loads hcand s
    have hbody : finalBody 0 l = .error .notKeyed := finalBody_of_unkeyed ((congrArg Context.mode hlctx).trans h) 0
    obtain ⟨t, hcheck, hctx⟩ :=
      checkedCommand_of_body_error (check_wellFormed hcand) (execState_verify_of_error hbody cand.length)
    exact ⟨t, (andThen_done (hostUpdates_nil s)).trans ((andThen_done hload).trans hcheck), hctx.trans hlctx⟩
  case isFalse =>
    obtain ⟨t, ht, hctx⟩ := finalTag_of_error (finalBody_of_unkeyed h 0)
    exact ⟨t, andThen_failed ((hostDigest_of_updates (hostUpdates_nil s)).trans ht), hctx⟩

end Sys2Proof.Machine
end

section
/-! PROOF. The statements of spec/43_host_procedures.md about one core: HOST_DIGEST (O48, O49), the PRF (O50) and a
software verify (O51, O54). -/

namespace Sys2Proof.Machine

open Sys2Proof.Expected

/-- Settles O48: the invariant makes the context fresh (`fresh_of_inv`), and there HOST_DIGEST returns the CMAC
(`hostDigest_of_fresh`). -/
theorem hostDigestIsCmac : Obligations.HostDigestIsCmac := fun _ data hinv hm hbuf =>
  hostDigest_of_fresh (fresh_of_inv hinv hm hbuf) data

/-- Settles O49: data fails at its first UPDATE (`hostUpdates_of_error`), no data goes on to FINAL 0, which reads the
tag or fails (`finalTag_of_ok`, `finalTag_of_error`). -/
theorem hostDigestStopsAtFirstError : Obligations.HostDigestStopsAtFirstError := by
  intro s data
  refine ⟨fun hm hdata => ?_, fun hm hnil => ?_, fun hm => ?_⟩
  · obtain ⟨t, ht, hctx⟩ := hostUpdates_of_finalized hm hdata
    exact ⟨t, hostDigest_of_updates_failed ht, hctx⟩
  · subst hnil
    exact finalTag_of_ok (finalBody_zero_of_finalized hm)
  · by_cases hdata : data = []
    · subst hdata
      exact finalTag_of_error (finalBody_of_unkeyed hm 0)
    · obtain ⟨t, ht, hctx⟩ := hostUpdates_of_unkeyed hm hdata
      exact ⟨t, hostDigest_of_updates_failed ht, hctx⟩

/-- Settles O50: PRF_KEY returns a key of 16 bytes (`hostPrfKey_eq`, `prfKeyOf_length`), under which INIT and
HOST_DIGEST return the whole CMAC (`hostInit_hostDigest`). -/
theorem hostPrfIsTwoStepCmac : Obligations.HostPrfIsTwoStepCmac := by
  intro s vk m
  obtain ⟨t, ht⟩ := hostPrfKey_eq vk s
  obtain ⟨u, hu⟩ := hostInit_hostDigest (prfKeyOf_length vk) m t
  exact ⟨u, (andThen_done ht).trans hu⟩

/-- Settles O51: in a fresh context the data is taken in (`hostUpdates_of_fresh`), and the candidate is compared with
its tag (`hostVerify_decides`). -/
theorem hostVerifyDecidesTag : Obligations.HostVerifyDecidesTag := by
  intro s cand data hinv hm hbuf
  have hfresh := fresh_of_inv hinv hm hbuf
  obtain ⟨t, ht, htook⟩ := hostUpdates_of_fresh hfresh data
  obtain ⟨f, hf, _, hbytes⟩ := htook.finalZero hfresh
  obtain ⟨u, _, hu⟩ := hostVerify_decides cand ht hf
  rw [hbytes] at hu
  exact ⟨fun h => ⟨u, hu.trans (if_pos h)⟩, fun h => ⟨u, hu.trans (if_neg h)⟩⟩

/-- Settles O54: an error of the data's UPDATE is the result (`hostVerify_of_updates_failed`); without data FINAL 0
fails in UNKEYED (`hostVerify_nil_of_unkeyed`) and keeps the tag in FINALIZED (`hostVerify_decides`). -/
theorem hostVerifyReportsEngineErrors : Obligations.HostVerifyReportsEngineErrors := by
  intro s cand data
  refine ⟨fun hm => ?_, fun hm hdata => ?_, fun hm hnil hcand => ?_, fun hm hnil hcand => ?_⟩
  · by_cases hdata : data = []
    · subst hdata
      exact hostVerify_nil_of_unkeyed cand hm
    · obtain ⟨t, ht, hctx⟩ := hostUpdates_of_unkeyed hm hdata
      exact ⟨t, hostVerify_of_updates_failed cand ht, hctx⟩
  · obtain ⟨t, ht, hctx⟩ := hostUpdates_of_finalized hm hdata
    exact ⟨t, hostVerify_of_updates_failed cand ht, hctx⟩
  · subst hnil
    obtain ⟨u, hctx, hu⟩ := hostVerify_decides cand (hostUpdates_nil s) (finalBody_zero_of_finalized hm)
    exact ⟨u, hu.trans (if_pos hcand), hctx⟩
  · subst hnil
    obtain ⟨u, hctx, hu⟩ := hostVerify_decides cand (hostUpdates_nil s) (finalBody_zero_of_finalized hm)
    exact ⟨u, hu.trans (if_neg hcand), hctx⟩

end Sys2Proof.Machine
end
